-- ==== Sys2Proof/Word.lean ====
section
/-! DEFINITION. The value types of the block: field-register images, limbs, window words, register numbers. -/

namespace Sys2Proof

/-- The number of a field register F0 to F15; every 4-bit value names one (R71). -/
abbrev FReg := Fin 16

/-- The content of a field register: a 280-bit Montgomery image (R26). -/
abbrev Word := BitVec 280

/-- One 56-bit limb (R13). -/
abbrev Limb := BitVec 56

/-- A limb vector `L[0..4]`, limb 0 least significant (R13): one limb buffer of the window (R31, R33). -/
abbrev Limbs := Vector Limb 5

/-- The content of one 64-bit register of the window (R37). -/
abbrev Word64 := BitVec 64

/-- The four 64-bit registers of a byte buffer: 32 bytes, byte 0 least significant (R32, R33). -/
abbrev ByteBuf := Vector Word64 4

/-- A 32-bit command word (R69). -/
abbrev CmdWord := BitVec 32

end Sys2Proof
end

