-- ==== Sys2Proof/Config.lean ====
section
/-! DEFINITION. What one build of the block fixes (the modulus, MODSEL, the window's place), and the free values. -/

namespace Sys2Proof

/-- The parameters a build fixes (R8, R10, R54). No command, access or reset changes them. -/
structure Build where
  /-- `P_MOD`, the modulus `p` (R8). -/
  pMod : Nat
  /-- `ID.MODSEL`: which modulus the block was built with (R36). -/
  modsel : BitVec 4
  /-- `WINDOW_BASE`: the host address of window offset 0 (R54). -/
  windowBase : Nat
  deriving DecidableEq, Repr, Inhabited

namespace Build

/-- Fq, the modulus of the BN254 base field. PRESUMED: the number is general knowledge (G1 of
93_implementation_defined.md, D2 of 92_eei_decisions.md), not the source's (log 2). -/
def fqModulus : Nat := 0x30644e72e131a029b85045b68181585d97816a916871ca8d3c208c16d87cfd47

/-- Fr, the modulus of the BN254 scalar field. PRESUMED, as `fqModulus` (log 2). -/
def frModulus : Nat := 0x30644e72e131a029b85045b68181585d2833e84879b9709143e1f593f0000001

/-- MODSEL names `P_MOD`: 0 for Fq, 1 for Fr (R10, R36). For any other modulus it is a parameter of its own (U20; log 19),
but the values 2 to 15 are never produced (R36). -/
abbrev ModselNames (b : Build) : Prop :=
  (b.pMod = fqModulus → b.modsel = 0) ∧ (b.pMod = frModulus → b.modsel = 1) ∧ b.modsel.toNat ≤ 1

/-- What R8 demands of `P_MOD` (prime, 254 bits; it is then odd), and R10 and R36 of MODSEL. -/
abbrev Valid (b : Build) : Prop :=
  Nat.Prime b.pMod ∧ 2 ^ 253 ≤ b.pMod ∧ b.pMod < 2 ^ 254 ∧ b.ModselNames

/-- The build over the BN254 base field (log 2). -/
def fq : Build where
  pMod := fqModulus
  modsel := 0
  windowBase := 0

/-- The build over the BN254 scalar field (log 2). -/
def fr : Build where
  pMod := frModulus
  modsel := 1
  windowBase := 0

end Build

namespace Config

/-- A build nothing is known of. -/
opaque anyBuild : Build

/-- The build of this block: any build at all that R8, R10 and R36 allow (`P_MOD` is OPEN, U1; `WINDOW_BASE` is OPEN, U2).
DESIGN CHOICE, safe: nothing can be proved of it but `Build.Valid` (log 1). -/
def build : Build := if anyBuild.Valid then anyBuild else Build.fq

/-- The free values a faulting command leaves behind: the value of draw number `n` (R127). No body: nothing is known of
any of them (log 6). -/
opaque draw : Nat → Word64

/-- The free values read while a command runs: what the register at window offset `off` shows of what that command
writes, between write number `n` to the window and the next (R34, R42, R44, R157). No body, as `draw` (log 5). -/
opaque busyRead (n off : Nat) : Word64

end Config

end Sys2Proof
end

