-- ==== Sys2Proof/Syntax.lean ====
section
/-! DEFINITION. The commands: one constructor for each row of the opcode map (R74). -/

namespace Sys2Proof

/-- The 24 commands of NBFA-CMD version 1 (R74). `fd` is the destination, `fa` and `fb` the sources (R70, R71). A
command's buffers and PRED are implied by its opcode (R76). -/
inductive Instr where
  /-- `from_raw_limbs` (R89). -/
  | fldraw (fd : FReg)
  /-- `from_limbs`, `from_biguint56` (R90). -/
  | fldl (fd : FReg)
  /-- `from_u56` (R91). -/
  | fldu56 (fd : FReg)
  /-- `from_bytes` (R92). -/
  | fldb (fd : FReg)
  /-- The raw export (R93). -/
  | fstraw (fa : FReg)
  /-- `to_biguint56` (R94). -/
  | fstl (fa : FReg)
  /-- `to_bytes` (R95). -/
  | fstb (fa : FReg)
  /-- `to_bits` (R96). -/
  | fstbits (fa : FReg)
  /-- `zero` (R99). -/
  | fzero (fd : FReg)
  /-- `one` (R100). -/
  | fone (fd : FReg)
  /-- `neg` (R101). -/
  | fneg (fd fa : FReg)
  /-- `eq` (R102). -/
  | feq (fa fb : FReg)
  /-- `is_zero` (R103). -/
  | fisz (fa : FReg)
  /-- `is_one` (R104). -/
  | fisone (fa : FReg)
  /-- `add` (R106). -/
  | fadd (fd fa fb : FReg)
  /-- `sub` (R107). -/
  | fsub (fd fa fb : FReg)
  /-- `double` (R108). -/
  | fdbl (fd fa : FReg)
  /-- The widening multiply (R115). -/
  | wmul (fa fb : FReg)
  /-- `montgomery_reduce` (R116). -/
  | redc (fd : FReg)
  /-- `mul` (R117). -/
  | fmul (fd fa fb : FReg)
  /-- `square` (R118). -/
  | fsqr (fd fa : FReg)
  /-- `pow`, accounted: U = 0 (R120). -/
  | fpow (fd fa : FReg)
  /-- `pow_unc`, unaccounted: U = 1 (R122). -/
  | fpowu (fd fa : FReg)
  /-- `invert` (R123). -/
  | finv (fd fa : FReg)
  deriving DecidableEq, Repr

end Sys2Proof
end

