-- ==== Sys2Proof/Machine/State.lean ====
section
/-! DEFINITION. The state of the block and of its surroundings, as plain data, and the state after reset (R52). -/

namespace Sys2Proof.Machine

/-- The fault codes of R128, in its order (0x01 to 0x08). -/
inductive FaultCode where
  | illegal
  | uninit
  | noncanon
  | rawRange
  | redcRange
  | invZero
  | invCheck
  | busy
  deriving DecidableEq, Repr

/-- One host access, at a host address and with a width in bytes (R54, R58). -/
inductive Access where
  | read (addr width : Nat)
  | write (addr width : Nat) (value : Word64)
  deriving DecidableEq, Repr

/-- What the block answers on the host bus. -/
inductive Answer where
  /-- The data of a read. -/
  | data (v : Word64)
  /-- A write taken without a bus error, be it stored, ignored or discarded (R46, R47, R136). -/
  | ack
  /-- The bus-error response (R47, R58, R137). -/
  | busError
  deriving DecidableEq, Repr

/-- What happens next around the block. The list of these in State is the model's own: it interleaves the two agents of
R25 and the platform in any order (log 3). -/
inductive Event where
  /-- The host performs an access. -/
  | access (a : Access)
  /-- The core finishes the command in flight, if there is one (R40, R160). -/
  | core
  /-- The platform asserts the reset input (R150). -/
  | assertReset
  /-- The platform releases the reset input (R150). -/
  | releaseReset
  deriving DecidableEq, Repr

/-- The reasons the machine stops. A fault of the block (R126) is none of them: it is a next state. -/
inductive Fault where
  /-- Raised by `step` on a host access while the reset input is asserted: "the block answers no host access" (R150),
  treated as stuck (U13). Safe: nothing is claimed of what follows. -/
  | heldInReset
  deriving DecidableEq, Repr

/-- The reasons a step has no meaning. -/
inductive Refusal where
  /-- Raised by `exec` for a command without a meaning; no arm does. Safe. -/
  | notModelled (mnemonic : String)
  deriving DecidableEq, Repr

/-- The whole state. The fields down to `resetIn` are the spec's, the last three the model's own. -/
structure State where
  /-- The parameters of this build, never changed (R8, R10, R48, R54). -/
  build : Build
  /-- F0 to F15 with their VALID bits: `some v` is VALID = 1 with content `v`; `none` is VALID = 0, which has no value at
  all (R26, R28). -/
  f : Vector (Option Word) 16
  /-- LIMB_IN0 to LIMB_IN4 (R31). -/
  limbIn : Limbs
  /-- HI_IN0 to HI_IN4 (R31). -/
  hiIn : Limbs
  /-- BYTES_IN0 to BYTES_IN3 (R32). -/
  bytesIn : ByteBuf
  /-- LIMB_OUT0 to LIMB_OUT4 (R33). -/
  limbOut : Limbs
  /-- HI_OUT0 to HI_OUT4 (R33). -/
  hiOut : Limbs
  /-- BYTES_OUT0 to BYTES_OUT3 (R33). -/
  bytesOut : ByteBuf
  /-- STATUS.PRED (R42). -/
  pred : Bool
  /-- STATUS.FAULT (R41). -/
  fault : Bool
  /-- STATUS.FCODE (R43). -/
  fcode : BitVec 8
  /-- FINFO (R45). -/
  finfo : Word64
  /-- The CMD value of the command in flight (R46, R51); STATUS.BUSY is 1 while there is one (R40). -/
  inFlight : Option Word64
  /-- The reset input is asserted (R150). -/
  resetIn : Bool
  /-- What happens next around the block; when it is used up, only the core goes on (log 3). -/
  script : List Event
  /-- The answers the host has been given, oldest first (log 8). -/
  answers : List Answer
  /-- The number of the next free value of `Config.draw` and `Config.busyRead` (log 5, log 6). -/
  draws : Nat
  deriving DecidableEq, Repr

/-- The values of R52 for a block of the given build, with nothing pending around it. -/
def State.initial (b : Build) : State where
  build := b
  f := Vector.replicate 16 none
  limbIn := Vector.replicate 5 0
  hiIn := Vector.replicate 5 0
  bytesIn := Vector.replicate 4 0
  limbOut := Vector.replicate 5 0
  hiOut := Vector.replicate 5 0
  bytesOut := Vector.replicate 4 0
  pred := false
  fault := false
  fcode := 0
  finfo := 0
  inFlight := none
  resetIn := false
  script := []
  answers := []
  draws := 0

/-- The machine right after reset (R52, R150), for a build nothing is known of but `Build.Valid` (log 1). -/
def State.reset : State := State.initial Config.build

end Sys2Proof.Machine
end

