-- ==== Sys2Proof/Machine/Operands.lean ====
section
/-! DEFINITION. Operand forms: what commands read from the input buffers, how results are laid out in the output
buffers, and where each command's result goes (R13, R14, R31 to R33, R56, R76). -/

namespace Sys2Proof.Machine

/-- `limbsToNat(L)` (R13). -/
def limbsToNat (l : Limbs) : Nat :=
  l[0].toNat + l[1].toNat * 2 ^ 56 + l[2].toNat * 2 ^ 112 + l[3].toNat * 2 ^ 168 + l[4].toNat * 2 ^ 224

/-- `natToLimbs(v)`: limb `j` is `v[56j+55:56j]` (R13). -/
def natToLimbs (v : Nat) : Limbs :=
  #v[BitVec.ofNat 56 v, BitVec.ofNat 56 (v / 2 ^ 56), BitVec.ofNat 56 (v / 2 ^ 112),
    BitVec.ofNat 56 (v / 2 ^ 168), BitVec.ofNat 56 (v / 2 ^ 224)]

/-- The number a byte buffer holds, by its four registers (R32). -/
def byteBufToNat (b : ByteBuf) : Nat :=
  b[0].toNat + b[1].toNat * 2 ^ 64 + b[2].toNat * 2 ^ 128 + b[3].toNat * 2 ^ 192

/-- `OUT_Y <- v`: register `m` holds `v[64m+63:64m]` (R33). -/
def natToByteBuf (v : Nat) : ByteBuf :=
  #v[BitVec.ofNat 64 v, BitVec.ofNat 64 (v / 2 ^ 64), BitVec.ofNat 64 (v / 2 ^ 128), BitVec.ofNat 64 (v / 2 ^ 192)]

/-- Byte `k` of the byte vector a buffer holds: bits `8*(k mod 8)+7` down to `8*(k mod 8)` of register `k div 8` (R32). -/
def byteOf (b : ByteBuf) (k : Fin 32) : BitVec 8 :=
  (b[k.val / 8]'(by omega)).extractLsb' (8 * (k.val % 8)) 8

/-- The 254 entries of the bit export, entry `i` being bit `i` (R56, R96). -/
def exportBits (c : Nat) : List Bool := (List.range 254).map c.testBit

/-- Register `m` of BYTES_OUT filled with entries `64m` to `64m+63`; positions without an entry are 0 (R96). -/
def packBits (entries : List Bool) (m : Nat) : Word64 :=
  BitVec.ofNat 64 (((entries.drop (64 * m)).take 64).foldr (fun e n => e.toNat + 2 * n) 0)

/-- The bit layout of BYTES_OUT after FSTBITS (R96). -/
def bitsToByteBuf (entries : List Bool) : ByteBuf :=
  #v[packBits entries 0, packBits entries 1, packBits entries 2, packBits entries 3]

/-- A natural number as the content of a field register (R26). -/
def toWord (n : Nat) : Word := BitVec.ofNat 280 n

/-- `IN_L` (R16, R31). -/
def State.inL (s : State) : Nat := limbsToNat s.limbIn

/-- `IN_H` (R16, R31). -/
def State.inH (s : State) : Nat := limbsToNat s.hiIn

/-- `IN_Y` (R16, R32). -/
def State.inY (s : State) : Nat := byteBufToNat s.bytesIn

/-- What a command writes (R76): the destination whose state R127 and R157 speak of. -/
inductive Output where
  /-- The field register FD. -/
  | reg (d : FReg)
  /-- LIMB_OUT. -/
  | limbs
  /-- LIMB_OUT and HI_OUT. -/
  | wide
  /-- BYTES_OUT. -/
  | bytes
  /-- STATUS.PRED. -/
  | pred
  deriving DecidableEq, Repr

/-- The "writes" column of R76. -/
def outputOf : Instr → Output
  | .fldraw d => .reg d
  | .fldl d => .reg d
  | .fldu56 d => .reg d
  | .fldb d => .reg d
  | .fstraw _ => .limbs
  | .fstl _ => .limbs
  | .fstb _ => .bytes
  | .fstbits _ => .bytes
  | .fzero d => .reg d
  | .fone d => .reg d
  | .fneg d _ => .reg d
  | .feq _ _ => .pred
  | .fisz _ => .pred
  | .fisone _ => .pred
  | .fadd d _ _ => .reg d
  | .fsub d _ _ => .reg d
  | .fdbl d _ => .reg d
  | .wmul _ _ => .wide
  | .redc d => .reg d
  | .fmul d _ _ => .reg d
  | .fsqr d _ => .reg d
  | .fpow d _ => .reg d
  | .fpowu d _ => .reg d
  | .finv d _ => .reg d

end Sys2Proof.Machine
end

