-- ==== Sys2Proof/Machine/Flags.lean ====
section
/-! DEFINITION. The flag computations: the one architectural flag STATUS.PRED (R42) and the internal carry and borrow of
the limb-wise addition and subtraction (R49, R106, R107). -/

namespace Sys2Proof.Machine

/-- PRED of FEQ: structural comparison of two images (R102). -/
def predEq (x y : Word) : Bool := x == y

/-- PRED of FISZ (R103). -/
def predZero (x : Word) : Bool := x == 0

/-- PRED of FISONE, against the constant `R` of the build (R104). -/
def predOne (r : Nat) (x : Word) : Bool := x.toNat == r

/-- The carry-out `c` of the 280-bit sum (R106). -/
def addCarry (x y : Nat) : Nat := (x + y) / 2 ^ 280

/-- The borrow-out `bw` of the 280-bit difference (R107). -/
def subBorrow (x y : Nat) : Nat := if x < y then 1 else 0

/-- The limb-wise sum with carry over limb lists, limb 0 first: the sum limbs and the carry-out (R106). -/
def limbAdd : List Nat → List Nat → Nat → List Nat × Nat
  | x :: xs, y :: ys, c =>
    let t := x + y + c
    let r := limbAdd xs ys (t / 2 ^ 56)
    (t % 2 ^ 56 :: r.1, r.2)
  | _, _, c => ([], c)

/-- The limb-wise difference with borrow over limb lists, limb 0 first: the difference limbs and the borrow-out (R107). -/
def limbSub : List Nat → List Nat → Nat → List Nat × Nat
  | x :: xs, y :: ys, w =>
    let r := limbSub xs ys (if x < y + w then 1 else 0)
    ((x + 2 ^ 56 - (y + w)) % 2 ^ 56 :: r.1, r.2)
  | _, _, w => ([], w)

end Sys2Proof.Machine
end

