-- ==== Sys2Proof/Machine/Datapath.lean ====
section
/-! DEFINITION. The hardwired constants (R9) and the datapath functions (R17): ModAdd, ModSub, WideMul, REDC, MontMul,
ToMont, FromMont, Pow. All values are natural numbers (R11); `p` is `P_MOD`. -/

namespace Sys2Proof.Machine

/-- `R = 2^280 mod p`, the image of one (R9). -/
def montOne (p : Nat) : Nat := 2 ^ 280 % p

/-- `R2 = R^2 mod p` (R9). -/
def montR2 (p : Nat) : Nat := montOne p ^ 2 % p

/-- One Newton step towards the inverse of `p` modulo 2^56. -/
def inverseStep (p x : Nat) : Nat := x * (2 ^ 56 + 2 - p * x % 2 ^ 56) % 2 ^ 56

/-- `p^-1 mod 2^56` for odd `p` (R9): `p` is its own inverse modulo 8, and each step doubles the number of right bits
(log 20). -/
def inverseMod56 (p : Nat) : Nat :=
  inverseStep p (inverseStep p (inverseStep p (inverseStep p (inverseStep p p))))

/-- `P_INV = (-(p^-1)) mod 2^56` (R9). -/
def montPInv (p : Nat) : Nat := (2 ^ 56 - inverseMod56 p) % 2 ^ 56

/-- `ModAdd(x, y)` (R106). -/
def modAdd (p x y : Nat) : Nat :=
  let sum := (x + y) % 2 ^ 280
  if addCarry x y = 0 ∧ sum < p then sum else (sum + 2 ^ 280 - p) % 2 ^ 280

/-- `ModSub(x, y)` (R107). -/
def modSub (p x y : Nat) : Nat :=
  let diff := (x + 2 ^ 280 - y) % 2 ^ 280
  if subBorrow x y = 0 then diff else (diff + p) % 2 ^ 280

/-- The negative of an image, zero kept (R101). -/
def modNeg (p x : Nat) : Nat := if x = 0 then 0 else p - x

/-- `WideMul(x, y) = (lo, hi)` (R111). -/
def wideMul (x y : Nat) : Nat × Nat := (x * y % 2 ^ 280, x * y / 2 ^ 280)

/-- The five limbs of a value as naturals, limb 0 first (R13). -/
def limbList (v : Nat) : List Nat :=
  [v % 2 ^ 56, v / 2 ^ 56 % 2 ^ 56, v / 2 ^ 112 % 2 ^ 56, v / 2 ^ 168 % 2 ^ 56, v / 2 ^ 224 % 2 ^ 56]

/-- The value of a list of limbs, limb 0 first (R13). -/
def limbListValue : List Nat → Nat
  | [] => 0
  | x :: xs => x + 2 ^ 56 * limbListValue xs

/-- The inner step `j` of REDC: add `k * P[j]` and the carry into `buf[i+j]` (R112). -/
def redcInner (pl : List Nat) (k i : Nat) (bc : List Nat × Nat) (j : Nat) : List Nat × Nat :=
  let t := bc.1.getD (i + j) 0 + k * pl.getD j 0 + bc.2
  (bc.1.set (i + j) (t % 2 ^ 56), t / 2 ^ 56)

/-- The outer step `i` of REDC on the buffer and the second carry `c2` (R112; log 20 for `P_INV`). -/
def redcOuter (p pinv : Nat) (bc : List Nat × Nat) (i : Nat) : List Nat × Nat :=
  let k := bc.1.getD i 0 * pinv % 2 ^ 56
  let inner := [0, 1, 2, 3, 4].foldl (redcInner (limbList p) k i) (bc.1, 0)
  let t := inner.1.getD (i + 5) 0 + inner.2 + bc.2
  (inner.1.set (i + 5) (t % 2 ^ 56), t / 2 ^ 56)

/-- The 10-limb buffer and the second carry after the five steps of REDC (R112). -/
def redcBuffer (p lo hi : Nat) : List Nat × Nat :=
  [0, 1, 2, 3, 4].foldl (redcOuter p (montPInv p)) (limbList lo ++ limbList hi, 0)

/-- `u`, the upper five limbs of the buffer with the second carry (R112). -/
def redcUpper (p lo hi : Nat) : Nat :=
  limbListValue ((redcBuffer p lo hi).1.drop 5) + (redcBuffer p lo hi).2 * 2 ^ 280

/-- `REDC(lo, hi)` (R112). -/
def redc (p lo hi : Nat) : Nat :=
  if p ≤ redcUpper p lo hi then redcUpper p lo hi - p else redcUpper p lo hi

/-- `MontMul(x, y) = REDC(WideMul(x, y))` (R114). -/
def montMul (p x y : Nat) : Nat := redc p (wideMul x y).1 (wideMul x y).2

/-- `ToMont(v) = MontMul(v, R2)` (R87). -/
def toMont (p v : Nat) : Nat := montMul p v (montR2 p)

/-- `FromMont(x) = REDC(x, 0)` (R88). -/
def fromMont (p x : Nat) : Nat := redc p x 0

/-- The loop of `Pow` over exponent bits `n - 1` down to 0: square, multiply, select (R120). -/
def powLoop (p x e : Nat) : Nat → Nat → Nat
  | 0, acc => acc
  | n + 1, acc =>
    let sq := montMul p acc acc
    powLoop p x e n (if e.testBit n then montMul p sq x else sq)

/-- `Pow(x, e)`: all 280 exponent bits, most significant first, from one (R120). -/
def montPow (p x e : Nat) : Nat := powLoop p x e 280 (montOne p)

end Sys2Proof.Machine
end

