-- ==== Sys2Proof/WellFormed.lean ====
section
/-! DEFINITION. Which CMD values are legal encodings, as the match and mask table says (R73, R75). The decoder of
Decode.lean follows the checks of R85 and does not use this table; an obligation says that the two agree. Every term of
`Instr` is well formed by its type: a register field holds four bits and every 4-bit value names a register (R71). -/

namespace Sys2Proof

/-- The operand classes (R73): which register fields a command uses. -/
inductive CmdClass where
  | d
  | a
  | ab
  | da
  | dab
  deriving DecidableEq, Repr

/-- The mask of fixed bits of a class (R73). -/
def CmdClass.mask : CmdClass → CmdWord
  | .d => 0xFFFFF0FF
  | .a => 0xFFFF0FFF
  | .ab => 0xFFF00FFF
  | .da => 0xFFFF00FF
  | .dab => 0xFFF000FF

/-- One row of the match and mask table (R75). -/
structure OpcodeRow where
  /-- The mnemonic of R74. -/
  mnemonic : String
  /-- The operand class of R74. -/
  cls : CmdClass
  /-- `OPC + U*2^6` (R75). -/
  bitsFixed : CmdWord
  deriving DecidableEq, Repr

/-- The match values of R75 with the classes of R74. -/
def opcodeTable : List OpcodeRow :=
  [⟨"FLDRAW", .d, 0x01⟩, ⟨"FLDL", .d, 0x02⟩, ⟨"FLDU56", .d, 0x03⟩, ⟨"FLDB", .d, 0x04⟩,
    ⟨"FSTRAW", .a, 0x05⟩, ⟨"FSTL", .a, 0x06⟩, ⟨"FSTB", .a, 0x07⟩, ⟨"FSTBITS", .a, 0x08⟩] ++
  [⟨"FZERO", .d, 0x09⟩, ⟨"FONE", .d, 0x0A⟩, ⟨"FNEG", .da, 0x0B⟩, ⟨"FEQ", .ab, 0x0C⟩,
    ⟨"FISZ", .a, 0x0D⟩, ⟨"FISONE", .a, 0x0E⟩] ++
  [⟨"FADD", .dab, 0x10⟩, ⟨"FSUB", .dab, 0x11⟩, ⟨"FDBL", .da, 0x12⟩] ++
  [⟨"WMUL", .ab, 0x18⟩, ⟨"REDC", .d, 0x19⟩, ⟨"FMUL", .dab, 0x1A⟩, ⟨"FSQR", .da, 0x1B⟩] ++
  [⟨"FPOW", .da, 0x20⟩, ⟨"FPOWU", .da, 0x60⟩, ⟨"FINV", .da, 0x21⟩]

/-- The mnemonic of a command (R74). -/
def mnemonicOf : Instr → String
  | .fldraw _ => "FLDRAW"
  | .fldl _ => "FLDL"
  | .fldu56 _ => "FLDU56"
  | .fldb _ => "FLDB"
  | .fstraw _ => "FSTRAW"
  | .fstl _ => "FSTL"
  | .fstb _ => "FSTB"
  | .fstbits _ => "FSTBITS"
  | .fzero _ => "FZERO"
  | .fone _ => "FONE"
  | .fneg _ _ => "FNEG"
  | .feq _ _ => "FEQ"
  | .fisz _ => "FISZ"
  | .fisone _ => "FISONE"
  | .fadd _ _ _ => "FADD"
  | .fsub _ _ _ => "FSUB"
  | .fdbl _ _ => "FDBL"
  | .wmul _ _ => "WMUL"
  | .redc _ => "REDC"
  | .fmul _ _ _ => "FMUL"
  | .fsqr _ _ => "FSQR"
  | .fpow _ _ => "FPOW"
  | .fpowu _ _ => "FPOWU"
  | .finv _ _ => "FINV"

/-- `w` encodes the command of the row: `(w AND mask) = match` (R75). -/
def OpcodeRow.fits (r : OpcodeRow) (w : CmdWord) : Bool := w &&& r.cls.mask == r.bitsFixed

/-- The 64-bit CMD value `v` encodes a command: its upper half is 0 (R78) and its word fits a row (R75). -/
def legalCmdValue (v : Word64) : Bool :=
  v.extractLsb' 32 32 == 0 && opcodeTable.any fun r => r.fits (v.setWidth 32)

end Sys2Proof
end

