-- ==== Sys2Proof/Decode.lean ====
section
/-! DEFINITION. The decoder of a CMD value (R70, R74, R85) and, after it, the encoder (R70). -/

namespace Sys2Proof

/-- `n[hi:lo]`, the bits `hi` down to `lo` of a natural number (R12). -/
def bits (n hi lo : Nat) : Nat := n / 2 ^ lo % 2 ^ (hi - lo + 1)

/-- Why a CMD value is no command: the check of R85 that fails first. Each raises E_ILLEGAL (R129). -/
inductive Reject where
  /-- Bits [63:32] of the CMD write are not 0 (R78). -/
  | highHalf
  /-- Bit 7 or bits [31:20] are not 0 (R78). -/
  | reservedBits
  /-- OPC is assigned to no command (R77). -/
  | unassignedOpc
  /-- U = 1 with an OPC other than 0x20 (R79). -/
  | misplacedU
  /-- A register field the class does not use is not 0 (R80). -/
  | unusedField
  deriving DecidableEq, Repr

/-- The command word's fields (R70). -/
structure CmdFields where
  u : Nat
  fd : FReg
  fa : FReg
  fb : FReg
  deriving DecidableEq, Repr

/-- The fields U, FD, FA and FB of the word `n` (R70). -/
def fieldsOf (n : Nat) : CmdFields where
  u := bits n 6 6
  fd := Fin.ofNat 16 (bits n 11 8)
  fa := Fin.ofNat 16 (bits n 15 12)
  fb := Fin.ofNat 16 (bits n 19 16)

/-- The class and the command of an OPC value; none where the value is assigned to no command (R74, R77). -/
def opcodeRow (opc : Nat) (f : CmdFields) : Option (CmdClass × Instr) :=
  match opc with
  | 0x01 => some (.d, .fldraw f.fd)
  | 0x02 => some (.d, .fldl f.fd)
  | 0x03 => some (.d, .fldu56 f.fd)
  | 0x04 => some (.d, .fldb f.fd)
  | 0x05 => some (.a, .fstraw f.fa)
  | 0x06 => some (.a, .fstl f.fa)
  | 0x07 => some (.a, .fstb f.fa)
  | 0x08 => some (.a, .fstbits f.fa)
  | 0x09 => some (.d, .fzero f.fd)
  | 0x0A => some (.d, .fone f.fd)
  | 0x0B => some (.da, .fneg f.fd f.fa)
  | 0x0C => some (.ab, .feq f.fa f.fb)
  | 0x0D => some (.a, .fisz f.fa)
  | 0x0E => some (.a, .fisone f.fa)
  | 0x10 => some (.dab, .fadd f.fd f.fa f.fb)
  | 0x11 => some (.dab, .fsub f.fd f.fa f.fb)
  | 0x12 => some (.da, .fdbl f.fd f.fa)
  | 0x18 => some (.ab, .wmul f.fa f.fb)
  | 0x19 => some (.d, .redc f.fd)
  | 0x1A => some (.dab, .fmul f.fd f.fa f.fb)
  | 0x1B => some (.da, .fsqr f.fd f.fa)
  | 0x20 => some (.da, if f.u = 1 then .fpowu f.fd f.fa else .fpow f.fd f.fa)
  | 0x21 => some (.da, .finv f.fd f.fa)
  | _ => none

/-- The fields a class does not use are all 0 (R73, R80). -/
def unusedZero (c : CmdClass) (f : CmdFields) : Bool :=
  match c with
  | .d => f.fa == 0 && f.fb == 0
  | .a => f.fd == 0 && f.fb == 0
  | .ab => f.fd == 0
  | .da => f.fb == 0
  | .dab => true

/-- The decode checks of R85, in its order, on the 64-bit value of a CMD write. Total (R86). -/
def decode (v : Word64) : Except Reject Instr :=
  let n := v.toNat
  if bits n 63 32 ≠ 0 then .error .highHalf
  else if bits n 7 7 ≠ 0 ∨ bits n 31 20 ≠ 0 then .error .reservedBits
  else
    match opcodeRow (bits n 5 0) (fieldsOf n) with
    | none => .error .unassignedOpc
    | some (c, i) =>
      if bits n 6 6 = 1 ∧ bits n 5 0 ≠ 0x20 then .error .misplacedU
      else if unusedZero c (fieldsOf n) then .ok i
      else .error .unusedField

/-- The word `OPC + U*2^6 + FD*2^8 + FA*2^12 + FB*2^16` (R70). -/
def cmdWord (opc u : Nat) (fd fa fb : FReg) : CmdWord :=
  BitVec.ofNat 32 (opc + u * 2 ^ 6 + fd.val * 2 ^ 8 + fa.val * 2 ^ 12 + fb.val * 2 ^ 16)

/-- The command word of a command (R70, R74); unused fields are 0 (R73). -/
def encode : Instr → CmdWord
  | .fldraw d => cmdWord 0x01 0 d 0 0
  | .fldl d => cmdWord 0x02 0 d 0 0
  | .fldu56 d => cmdWord 0x03 0 d 0 0
  | .fldb d => cmdWord 0x04 0 d 0 0
  | .fstraw a => cmdWord 0x05 0 0 a 0
  | .fstl a => cmdWord 0x06 0 0 a 0
  | .fstb a => cmdWord 0x07 0 0 a 0
  | .fstbits a => cmdWord 0x08 0 0 a 0
  | .fzero d => cmdWord 0x09 0 d 0 0
  | .fone d => cmdWord 0x0A 0 d 0 0
  | .fneg d a => cmdWord 0x0B 0 d a 0
  | .feq a b => cmdWord 0x0C 0 0 a b
  | .fisz a => cmdWord 0x0D 0 0 a 0
  | .fisone a => cmdWord 0x0E 0 0 a 0
  | .fadd d a b => cmdWord 0x10 0 d a b
  | .fsub d a b => cmdWord 0x11 0 d a b
  | .fdbl d a => cmdWord 0x12 0 d a 0
  | .wmul a b => cmdWord 0x18 0 0 a b
  | .redc d => cmdWord 0x19 0 d 0 0
  | .fmul d a b => cmdWord 0x1A 0 d a b
  | .fsqr d a => cmdWord 0x1B 0 d a 0
  | .fpow d a => cmdWord 0x20 0 d a 0
  | .fpowu d a => cmdWord 0x20 1 d a 0
  | .finv d a => cmdWord 0x21 0 d a 0

/-- The 64-bit value a host writes to CMD for a command word: the word zero-extended (R19, R69). -/
def cmdValue (w : CmdWord) : Word64 := w.setWidth 64

/-- The CMD value whose low `nbits` bits are those of `w` and whose other bits are 0. -/
def tableValue (nbits w : Nat) : Word64 := BitVec.ofNat 64 (w % 2 ^ nbits)

/-- What the decoder reads from a row of the opcode table: the command word, low bit first, as bits [31:0] of the CMD
write (R69). -/
def decodeTableWord (nbits w : Nat) : Option Instr :=
  match decode (tableValue nbits w) with
  | .ok i => some i
  | .error _ => none

end Sys2Proof
end

