-- ==== Sys2Proof/Machine/Ops.lean ====
section
/-! DEFINITION. The named operations over the state: reading and writing field registers, output buffers and PRED,
completing a command, taking a fault (R126, R127) and leaving the fault state by a reset (R141, R151). -/

namespace Sys2Proof.Machine

/-- STATUS.BUSY (R40). -/
def State.busy (s : State) : Bool := s.inFlight.isSome

/-- `VALID[i]` (R28). -/
def State.validBit (s : State) (i : FReg) : Bool := s.f[i.val].isSome

/-- `F[d] <- v`, which sets `VALID[d]` (R16, R29). -/
def State.putF (s : State) (d : FReg) (v : Word) : State := { s with f := s.f.set d.val (some v) }

/-- `OUT_L <- v` (R33). -/
def State.putLimbOut (s : State) (v : Nat) : State := { s with limbOut := natToLimbs v }

/-- `OUT_H <- v` (R33). -/
def State.putHiOut (s : State) (v : Nat) : State := { s with hiOut := natToLimbs v }

/-- BYTES_OUT takes the given registers (R33, R96). -/
def State.putBytesOut (s : State) (b : ByteBuf) : State := { s with bytesOut := b }

/-- `PRED <- b` (R42). -/
def State.putPred (s : State) (b : Bool) : State := { s with pred := b }

/-- The command in flight has completed: BUSY <- 0 (R40). -/
def State.done (s : State) : State := { s with inFlight := none }

/-- The FCODE of a fault (R128). -/
def FaultCode.byte : FaultCode → BitVec 8
  | .illegal => 0x01
  | .uninit => 0x02
  | .noncanon => 0x03
  | .rawRange => 0x04
  | .redcRange => 0x05
  | .invZero => 0x06
  | .invCheck => 0x07
  | .busy => 0x08

/-- FINFO of a fault a command raises: its word (R45, R126). -/
def commandInfo (w : CmdWord) : Word64 := w.setWidth 64

/-- FINFO of E_BUSY: the word in flight, and the offset of the write in bits [43:32] (R45, R126). -/
def busyInfo (w : CmdWord) (off : Nat) : Word64 := BitVec.ofNat 64 (w.toNat + off % 2 ^ 12 * 2 ^ 32)

/-- `raise Fault(code, info)`: the one way a fault is taken (R126). A fault already recorded is kept (R43). -/
def State.raise (s : State) (code : FaultCode) (info : Word64) : State :=
  { s with
    fault := true
    fcode := if s.fault then s.fcode else code.byte
    finfo := if s.fault then s.finfo else info
    inFlight := none }

/-- A limb register of unspecified content: bits [63:56] still read 0 (R127). -/
def freeLimb (n : Nat) : Limb := (Config.draw n).setWidth 56

/-- A limb buffer of unspecified content, from draw `n` on (R127). -/
def freeLimbs (n : Nat) : Limbs :=
  #v[freeLimb n, freeLimb (n + 1), freeLimb (n + 2), freeLimb (n + 3), freeLimb (n + 4)]

/-- A byte buffer of unspecified content, from draw `n` on (R127). -/
def freeBytes (n : Nat) : ByteBuf :=
  #v[Config.draw n, Config.draw (n + 1), Config.draw (n + 2), Config.draw (n + 3)]

/-- A bit of unspecified value. -/
def freeBit (n : Nat) : Bool := (Config.draw n).getLsbD 0

/-- What a faulting command leaves of its destination (R127): its output buffer and PRED hold free values; a destination
register, unreadable until a reset clears VALID, is left as it was (log 6). -/
def State.spoil (s : State) (o : Output) : State :=
  match o with
  | .reg _ => s
  | .limbs => { s with limbOut := freeLimbs s.draws, draws := s.draws + 5 }
  | .wide => { s with limbOut := freeLimbs s.draws, hiOut := freeLimbs (s.draws + 5), draws := s.draws + 10 }
  | .bytes => { s with bytesOut := freeBytes s.draws, draws := s.draws + 4 }
  | .pred => { s with pred := freeBit s.draws, draws := s.draws + 1 }

/-- The command `i` ends with a fault of its own (R126, R127). FINFO is its word (log 17). -/
def State.fail (s : State) (i : Instr) (code : FaultCode) : State :=
  (s.raise code (commandInfo (encode i))).spoil (outputOf i)

/-- The source operand `F[r]` of command `i`: E_UNINIT where `VALID[r]` is 0, and otherwise the rest of the command (R85,
R130). -/
def State.useF (s : State) (i : Instr) (r : FReg) (rest : Word → State) : State :=
  match s.f[r.val] with
  | some x => rest x
  | none => s.fail i .uninit

/-- The effect of a reset, hard or soft, on every piece of state (R52, R151): the return from the fault state (R141). The
build, the reset input and what lies around the block are not the reset's. -/
def State.clear (s : State) : State :=
  { State.initial s.build with resetIn := s.resetIn, script := s.script, answers := s.answers, draws := s.draws }

end Sys2Proof.Machine
end

