-- ==== Sys2Proof/Machine/AddSub.lean ====
section
/-! DEFINITION. The addition and subtraction commands (43_add_sub.md). -/

namespace Sys2Proof.Machine

/-- FADD (R106). -/
def execFadd (fd fa fb : FReg) (s : State) : Host.Outcome State Fault Refusal :=
  .next (s.useF (.fadd fd fa fb) fa fun x => s.useF (.fadd fd fa fb) fb fun y =>
    (s.putF fd (toWord (modAdd s.build.pMod x.toNat y.toNat))).done)

/-- FSUB (R107). -/
def execFsub (fd fa fb : FReg) (s : State) : Host.Outcome State Fault Refusal :=
  .next (s.useF (.fsub fd fa fb) fa fun x => s.useF (.fsub fd fa fb) fb fun y =>
    (s.putF fd (toWord (modSub s.build.pMod x.toNat y.toNat))).done)

/-- FDBL (R108). -/
def execFdbl (fd fa : FReg) (s : State) : Host.Outcome State Fault Refusal :=
  .next (s.useF (.fdbl fd fa) fa fun x => (s.putF fd (toWord (modAdd s.build.pMod x.toNat x.toNat))).done)

end Sys2Proof.Machine
end

