-- ==== Sys2Proof/Machine/Conversion.lean ====
section
/-! DEFINITION. The representation and conversion commands (41_conversion.md). Every meaning answers a next state: the
command completed, or its fault taken (R126). -/

namespace Sys2Proof.Machine

/-- FLDRAW (R89). -/
def execFldraw (fd : FReg) (s : State) : Host.Outcome State Fault Refusal :=
  .next (if s.inL < s.build.pMod then (s.putF fd (toWord s.inL)).done else s.fail (.fldraw fd) .rawRange)

/-- FLDL (R90). -/
def execFldl (fd : FReg) (s : State) : Host.Outcome State Fault Refusal :=
  .next (s.putF fd (toWord (toMont s.build.pMod s.inL))).done

/-- FLDU56: LIMB_IN0 alone is read (R91). -/
def execFldu56 (fd : FReg) (s : State) : Host.Outcome State Fault Refusal :=
  .next (s.putF fd (toWord (toMont s.build.pMod s.limbIn[0].toNat))).done

/-- FLDB (R92). -/
def execFldb (fd : FReg) (s : State) : Host.Outcome State Fault Refusal :=
  .next (if s.inY < s.build.pMod then (s.putF fd (toWord (toMont s.build.pMod s.inY))).done
    else s.fail (.fldb fd) .noncanon)

/-- FSTRAW (R93). -/
def execFstraw (fa : FReg) (s : State) : Host.Outcome State Fault Refusal :=
  .next (s.useF (.fstraw fa) fa fun x => (s.putLimbOut x.toNat).done)

/-- FSTL (R94). -/
def execFstl (fa : FReg) (s : State) : Host.Outcome State Fault Refusal :=
  .next (s.useF (.fstl fa) fa fun x => (s.putLimbOut (fromMont s.build.pMod x.toNat)).done)

/-- FSTB (R95). -/
def execFstb (fa : FReg) (s : State) : Host.Outcome State Fault Refusal :=
  .next (s.useF (.fstb fa) fa fun x => (s.putBytesOut (natToByteBuf (fromMont s.build.pMod x.toNat))).done)

/-- FSTBITS (R96). -/
def execFstbits (fa : FReg) (s : State) : Host.Outcome State Fault Refusal :=
  .next (s.useF (.fstbits fa) fa fun x =>
    (s.putBytesOut (bitsToByteBuf (exportBits (fromMont s.build.pMod x.toNat)))).done)

end Sys2Proof.Machine
end

