-- ==== Sys2Proof/Machine/Exponent.lean ====
section
/-! DEFINITION. The exponentiation and inversion commands (45_exponent.md). -/

namespace Sys2Proof.Machine

/-- FPOW: accounted; the exponent is IN_L (R120). -/
def execFpow (fd fa : FReg) (s : State) : Host.Outcome State Fault Refusal :=
  .next (s.useF (.fpow fd fa) fa fun x => (s.putF fd (toWord (montPow s.build.pMod x.toNat s.inL))).done)

/-- FPOWU: unaccounted; the value of FPOW by any schedule of steps, of which this is one (R121, R122; log 21). -/
def execFpowu (fd fa : FReg) (s : State) : Host.Outcome State Fault Refusal :=
  .next (s.useF (.fpowu fd fa) fa fun x => (s.putF fd (toWord (montPow s.build.pMod x.toNat s.inL))).done)

/-- The inverse FINV computes: exponent `p - 2` (R123). -/
def finvCandidate (p x : Nat) : Nat := montPow p x (p - 2)

/-- FINV: zero faults, and the result is verified before it is written (R123). -/
def execFinv (fd fa : FReg) (s : State) : Host.Outcome State Fault Refusal :=
  .next (s.useF (.finv fd fa) fa fun x =>
    if x.toNat = 0 then s.fail (.finv fd fa) .invZero
    else if montMul s.build.pMod x.toNat (finvCandidate s.build.pMod x.toNat) ≠ montOne s.build.pMod then
      s.fail (.finv fd fa) .invCheck
    else (s.putF fd (toWord (finvCandidate s.build.pMod x.toNat))).done)

end Sys2Proof.Machine
end

