-- ==== Sys2Proof/Machine/Identities.lean ====
section
/-! DEFINITION. The identities, negation and equality commands (42_identities_equality.md). -/

namespace Sys2Proof.Machine

/-- FZERO (R99). -/
def execFzero (fd : FReg) (s : State) : Host.Outcome State Fault Refusal :=
  .next (s.putF fd 0).done

/-- FONE (R100). -/
def execFone (fd : FReg) (s : State) : Host.Outcome State Fault Refusal :=
  .next (s.putF fd (toWord (montOne s.build.pMod))).done

/-- FNEG (R101). -/
def execFneg (fd fa : FReg) (s : State) : Host.Outcome State Fault Refusal :=
  .next (s.useF (.fneg fd fa) fa fun x => (s.putF fd (toWord (modNeg s.build.pMod x.toNat))).done)

/-- FEQ (R102). -/
def execFeq (fa fb : FReg) (s : State) : Host.Outcome State Fault Refusal :=
  .next (s.useF (.feq fa fb) fa fun x => s.useF (.feq fa fb) fb fun y => (s.putPred (predEq x y)).done)

/-- FISZ (R103). -/
def execFisz (fa : FReg) (s : State) : Host.Outcome State Fault Refusal :=
  .next (s.useF (.fisz fa) fa fun x => (s.putPred (predZero x)).done)

/-- FISONE (R104). -/
def execFisone (fa : FReg) (s : State) : Host.Outcome State Fault Refusal :=
  .next (s.useF (.fisone fa) fa fun x => (s.putPred (predOne (montOne s.build.pMod) x)).done)

end Sys2Proof.Machine
end

