-- ==== Sys2Proof/Machine/Multiply.lean ====
section
/-! DEFINITION. The multiplication and Montgomery reduction commands (44_multiply.md). -/

namespace Sys2Proof.Machine

/-- WMUL (R115). -/
def execWmul (fa fb : FReg) (s : State) : Host.Outcome State Fault Refusal :=
  .next (s.useF (.wmul fa fb) fa fun x => s.useF (.wmul fa fb) fb fun y =>
    ((s.putLimbOut (wideMul x.toNat y.toNat).1).putHiOut (wideMul x.toNat y.toNat).2).done)

/-- REDC (R116). -/
def execRedc (fd : FReg) (s : State) : Host.Outcome State Fault Refusal :=
  .next (if s.inH < s.build.pMod then (s.putF fd (toWord (redc s.build.pMod s.inL s.inH))).done
    else s.fail (.redc fd) .redcRange)

/-- FMUL (R117). -/
def execFmul (fd fa fb : FReg) (s : State) : Host.Outcome State Fault Refusal :=
  .next (s.useF (.fmul fd fa fb) fa fun x => s.useF (.fmul fd fa fb) fb fun y =>
    (s.putF fd (toWord (montMul s.build.pMod x.toNat y.toNat))).done)

/-- FSQR (R118). -/
def execFsqr (fd fa : FReg) (s : State) : Host.Outcome State Fault Refusal :=
  .next (s.useF (.fsqr fd fa) fa fun x => (s.putF fd (toWord (montMul s.build.pMod x.toNat x.toNat))).done)

end Sys2Proof.Machine
end

