-- ==== Sys2Proof/Machine/Dispatch.lean ====
section
/-! DEFINITION. The dispatch: one arm per command (R74). -/

namespace Sys2Proof.Machine

def exec (i : Instr) (s : State) : Host.Outcome State Fault Refusal :=
  match i with
  | .fldraw fd => Sys2Proof.Machine.execFldraw fd s
  | .fldl fd => Sys2Proof.Machine.execFldl fd s
  | .fldu56 fd => Sys2Proof.Machine.execFldu56 fd s
  | .fldb fd => Sys2Proof.Machine.execFldb fd s
  | .fstraw fa => Sys2Proof.Machine.execFstraw fa s
  | .fstl fa => Sys2Proof.Machine.execFstl fa s
  | .fstb fa => Sys2Proof.Machine.execFstb fa s
  | .fstbits fa => Sys2Proof.Machine.execFstbits fa s
  | .fzero fd => Sys2Proof.Machine.execFzero fd s
  | .fone fd => Sys2Proof.Machine.execFone fd s
  | .fneg fd fa => Sys2Proof.Machine.execFneg fd fa s
  | .feq fa fb => Sys2Proof.Machine.execFeq fa fb s
  | .fisz fa => Sys2Proof.Machine.execFisz fa s
  | .fisone fa => Sys2Proof.Machine.execFisone fa s
  | .fadd fd fa fb => Sys2Proof.Machine.execFadd fd fa fb s
  | .fsub fd fa fb => Sys2Proof.Machine.execFsub fd fa fb s
  | .fdbl fd fa => Sys2Proof.Machine.execFdbl fd fa s
  | .wmul fa fb => Sys2Proof.Machine.execWmul fa fb s
  | .redc fd => Sys2Proof.Machine.execRedc fd s
  | .fmul fd fa fb => Sys2Proof.Machine.execFmul fd fa fb s
  | .fsqr fd fa => Sys2Proof.Machine.execFsqr fd fa s
  | .fpow fd fa => Sys2Proof.Machine.execFpow fd fa s
  | .fpowu fd fa => Sys2Proof.Machine.execFpowu fd fa s
  | .finv fd fa => Sys2Proof.Machine.execFinv fd fa s

end Sys2Proof.Machine
end

