-- ==== Sys2Proof/Machine/Window.lean ====
section
/-! DEFINITION. The register window: its map (R37), what a host read returns (R36 to R47, R157) and what a host write does
(R38, R46, R47, R136). -/

namespace Sys2Proof.Machine

/-- The registers of the window (R37). -/
inductive WinReg where
  | id
  | ctrl
  | status
  | cmd
  | finfo
  | limbIn (j : Fin 5)
  | hiIn (j : Fin 5)
  | bytesIn (m : Fin 4)
  | limbOut (j : Fin 5)
  | hiOut (j : Fin 5)
  | bytesOut (m : Fin 4)
  deriving DecidableEq, Repr

/-- The offset of a register (R37). -/
def winOffset : WinReg → Nat
  | .id => 0x000
  | .ctrl => 0x008
  | .status => 0x010
  | .cmd => 0x018
  | .finfo => 0x020
  | .limbIn j => 0x040 + 8 * j.val
  | .hiIn j => 0x080 + 8 * j.val
  | .bytesIn m => 0x0C0 + 8 * m.val
  | .limbOut j => 0x100 + 8 * j.val
  | .hiOut j => 0x140 + 8 * j.val
  | .bytesOut m => 0x180 + 8 * m.val

/-- All registers of the window, in the order of R37. -/
def winRegs : List WinReg :=
  [.id, .ctrl, .status, .cmd, .finfo] ++ (List.finRange 5).map .limbIn ++ (List.finRange 5).map .hiIn ++
    (List.finRange 4).map .bytesIn ++ (List.finRange 5).map .limbOut ++ (List.finRange 5).map .hiOut ++
    (List.finRange 4).map .bytesOut

/-- The register at an offset; none at a reserved offset or one that is not a multiple of 8 (R37, R58). -/
def winRegAt (off : Nat) : Option WinReg := winRegs.find? fun r => winOffset r == off

/-- ID (R36). -/
def idValue (b : Build) : Word64 :=
  BitVec.ofNat 64 (5 + 56 * 2 ^ 8 + 16 * 2 ^ 16 + 254 * 2 ^ 24 + 32 * 2 ^ 32 + b.modsel.toNat * 2 ^ 40 + 1 * 2 ^ 48)

/-- What the command in flight will write, if its value is a legal encoding (R76; log 22). -/
def State.runningOutput (s : State) : Option Output :=
  match s.inFlight with
  | none => none
  | some v =>
    match decode v with
    | .ok i => some (outputOf i)
    | .error _ => none

/-- What a register shows of what the command in flight writes: a free value, the same at every read until the next host
write to the window, whatever its answer, or the end of the command (R60, R157; log 5). -/
def State.freeRead (s : State) (r : WinReg) : Word64 := Config.busyRead s.draws (winOffset r)

/-- PRED as read: a draw while a predicate command runs (R42). -/
def State.predRead (s : State) : Bool :=
  if s.runningOutput = some .pred then (s.freeRead .status).getLsbD 2 else s.pred

/-- `VALID[i]` as read: the running command's destination may read its old value or 1 (R44). -/
def State.validRead (s : State) (i : FReg) : Bool :=
  s.validBit i || (decide (s.runningOutput = some (.reg i)) && (s.freeRead .status).getLsbD (16 + i.val))

/-- VALID[15:0] as read, as a number (R44). -/
def State.validMask (s : State) : Nat :=
  (List.finRange 16).foldr (fun i n => (s.validRead i).toNat * 2 ^ i.val + n) 0

/-- STATUS as read: one snapshot (R39, R59). -/
def State.statusRead (s : State) : Word64 :=
  BitVec.ofNat 64 (s.busy.toNat + s.fault.toNat * 2 + s.predRead.toNat * 2 ^ 2 + s.fcode.toNat * 2 ^ 8 +
    s.validMask * 2 ^ 16)

/-- The command in flight writes LIMB_OUT. -/
def State.limbOutBusy (s : State) : Bool := s.runningOutput = some .limbs || s.runningOutput = some .wide

/-- The command in flight writes HI_OUT. -/
def State.hiOutBusy (s : State) : Bool := s.runningOutput = some .wide

/-- The command in flight writes BYTES_OUT. -/
def State.bytesOutBusy (s : State) : Bool := s.runningOutput = some .bytes

/-- A limb register as read: bits [63:56] are 0 (R31). -/
def limbRead (l : Limb) : Word64 := l.setWidth 64

/-- The value a host read of a register returns (R37). An output buffer the command in flight writes reads as a draw
(R34, R157; log 5); its limb layout is kept (U7). -/
def State.readReg (s : State) : WinReg → Word64
  | .id => idValue s.build
  | .ctrl => 0
  | .status => s.statusRead
  | .cmd => 0
  | .finfo => s.finfo
  | .limbIn j => limbRead s.limbIn[j.val]
  | .hiIn j => limbRead s.hiIn[j.val]
  | .bytesIn m => s.bytesIn[m.val]
  | .limbOut j => limbRead (if s.limbOutBusy then (s.freeRead (.limbOut j)).setWidth 56 else s.limbOut[j.val])
  | .hiOut j => limbRead (if s.hiOutBusy then (s.freeRead (.hiOut j)).setWidth 56 else s.hiOut[j.val])
  | .bytesOut m => if s.bytesOutBusy then s.freeRead (.bytesOut m) else s.bytesOut[m.val]

/-- The host bus is given an answer. -/
def State.answer (s : State) (a : Answer) : State := { s with answers := s.answers ++ [a] }

/-- A host read of a register: it is answered and nothing changes (R60). -/
def State.hostRead (s : State) (r : WinReg) : State := s.answer (.data (s.readReg r))

/-- E_BUSY: the write at `off` aborts the command in flight, whose CMD value is `v`, and is itself discarded (R136); the
aborted command's destination is left as R127 says. -/
def State.abort (s : State) (v : Word64) (off : Nat) : State :=
  let t := s.raise .busy (busyInfo (v.setWidth 32) off)
  match s.runningOutput with
  | some o => t.spoil o
  | none => t

/-- A CMD write (R46). -/
def State.writeCmd (s : State) (v : Word64) : State :=
  if s.fault then s
  else
    match s.inFlight with
    | some run => s.abort run (winOffset .cmd)
    | none => { s with inFlight := some v }

/-- A write to an input-buffer register at `off`: E_BUSY while a command runs, and otherwise `store` (R31, R136, R142).
DESIGN CHOICE: a write in the same cycle as the fault of the command in flight comes before that fault, and is discarded,
or after it, and is stored; never is the command's own code recorded and the write discarded (R139, U11; log 15). -/
def State.writeInput (s : State) (off : Nat) (store : State → State) : State :=
  match s.inFlight with
  | some run => s.abort run off
  | none => store s

/-- A host write of `v` to a register, but for its answer (R37, R38, R46, R47). -/
def State.writeReg (s : State) (r : WinReg) (v : Word64) : State :=
  match r with
  | .id => s
  | .ctrl => if v.getLsbD 0 then s.clear else s
  | .status => s
  | .cmd => s.writeCmd v
  | .finfo => s
  | .limbIn j =>
    s.writeInput (winOffset (.limbIn j)) fun t => { t with limbIn := t.limbIn.set j.val (v.setWidth 56) }
  | .hiIn j =>
    s.writeInput (winOffset (.hiIn j)) fun t => { t with hiIn := t.hiIn.set j.val (v.setWidth 56) }
  | .bytesIn m =>
    s.writeInput (winOffset (.bytesIn m)) fun t => { t with bytesIn := t.bytesIn.set m.val v }
  | .limbOut _ => s
  | .hiOut _ => s
  | .bytesOut _ => s

/-- A host write of `v` to a register: it is taken without an error, and what is read while a command runs may differ
from now on (R60; log 5). -/
def State.hostWrite (s : State) (r : WinReg) (v : Word64) : State :=
  let t := s.writeReg r v
  { t with answers := t.answers ++ [.ack], draws := t.draws + 1 }

/-- A host write to the window that reaches no register: a bus error, and no change of the block (R58, R137). It is a write
all the same, so what is read while a command runs may differ from now on, as after any write (R60; log 5). -/
def State.badWrite (s : State) : State := { s.answer .busError with draws := s.draws + 1 }

/-- The size of the window in bytes (R53). -/
def windowSize : Nat := 0x200

/-- The window offset of a host address; none outside the window (R54). DESIGN CHOICE: an access is to the window
when its first byte is, so one that begins below the window and reaches into it is not the block's (log 24). -/
def windowOffset (b : Build) (addr : Nat) : Option Nat :=
  if b.windowBase ≤ addr ∧ addr < b.windowBase + windowSize then some (addr - b.windowBase) else none

/-- The register an access reaches: it must be 8 bytes wide, aligned, and not at a reserved offset (R37, R58). -/
def reached (off width : Nat) : Option WinReg :=
  if width = 8 ∧ off % 8 = 0 then winRegAt off else none

/-- One host access on a block that is out of reset: a bus error where the access reaches no register (R47, R58, R137);
nothing at all where the address is not in the window (R54; log 9). -/
def State.access (s : State) (a : Access) : State :=
  match a with
  | .read addr width =>
    match windowOffset s.build addr with
    | none => s
    | some off =>
      match reached off width with
      | none => s.answer .busError
      | some r => s.hostRead r
  | .write addr width v =>
    match windowOffset s.build addr with
    | none => s
    | some off =>
      match reached off width with
      | none => s.badWrite
      | some r => s.hostWrite r v

/-- Byte `k` of the window's 64-bit register value `v`, at byte address `off + k` (R55). -/
def windowByte (v : Word64) (k : Fin 8) : BitVec 8 := v.extractLsb' (8 * k.val) 8

end Sys2Proof.Machine
end

