-- ==== Sys2Proof/Machine/Sequencer.lean ====
section
/-! DEFINITION. The turns of the machine: the core's (a command in flight is decoded and runs), the host's and the
platform's (R25, R64, R150). -/

namespace Sys2Proof.Machine

/-- The core's turn: the command in flight is decoded (R85) and runs to its end; a value that is no command raises
E_ILLEGAL (R129). Without a command in flight the block is idle, which changes no state (R149). -/
def runCore (s : State) : Host.Outcome State Fault Refusal :=
  match s.inFlight with
  | none => .next s
  | some v =>
    match decode v with
    | .ok i => exec i s
    | .error _ => .next (s.raise .illegal (commandInfo (v.setWidth 32)))

/-- The host address of an access. -/
def Access.addr : Access → Nat
  | .read addr _ => addr
  | .write addr _ _ => addr

/-- The host's turn. While the reset input is asserted the block answers no access to its window (R150, U13). -/
def hostAccess (s : State) (a : Access) : Host.Outcome State Fault Refusal :=
  if s.resetIn && (windowOffset s.build a.addr).isSome then .fault .heldInReset else .next (s.access a)

/-- The reset input changes: in reset, and on its release, every piece of state is at its reset value (R150, R152). -/
def State.setResetIn (s : State) (level : Bool) : State := { s.clear with resetIn := level }

/-- One turn: the event at hand on the state without it. -/
def turn (e : Event) (s : State) : Host.Outcome State Fault Refusal :=
  match e with
  | .core => runCore s
  | .access a => hostAccess s a
  | .assertReset => .next (s.setResetIn true)
  | .releaseReset => .next (s.setResetIn false)

/-- The next event of the script, or, when the script is used up, the core's turn: every command completes (R40, R160). -/
def nextTurn (s : State) : Host.Outcome State Fault Refusal :=
  match s.script with
  | [] => runCore s
  | e :: rest => turn e { s with script := rest }

/-- The state in which the CMD value `v` is in flight on a block free to run it, the core's turn being next. -/
def State.withCommand (s : State) (v : Word64) : State :=
  { s with
    inFlight := some v
    script := .core :: s.script
    fault := false
    fcode := 0
    finfo := 0
    resetIn := false }

end Sys2Proof.Machine
end

