-- ==== Sys2Proof/Machine/Step.lean ====
section
/-! DEFINITION. One step of the machine, and placing a command so that the next step runs it. -/

namespace Sys2Proof.Machine

/-- One step: the next turn of host, core or platform. -/
def step (s : State) : Host.Outcome State Fault Refusal := nextTurn s

/-- `s` with the command word of an opcode-table row in flight, so that the next step runs it: as if the host had just
written it to CMD of a block that accepts it (R46; log 11). -/
def State.withFetchWord (s : State) (nbits w : Nat) : State := s.withCommand (tableValue nbits w)

end Sys2Proof.Machine
end

