-- ==== Sys2Proof/Safety.lean ====
section
/-! DEFINITION. The terms claims are stated in: logical values (R15), and the invariant of the machine. -/

namespace Sys2Proof.Machine

/-- `mont(a)`, the image of a logical value (R15). -/
def mont (p a : Nat) : Nat := a * 2 ^ 280 % p

/-- `x` is the image of the logical value `a`, which is canonical (R15, R20): `a = unmont(x)`. -/
def IsImage (p x a : Nat) : Prop := a < p ∧ x = mont p a

/-- Field register `r` is valid and holds the image of the logical value `a`. -/
def State.HoldsLogical (s : State) (r : FReg) (a : Nat) : Prop :=
  ∃ x, s.f[r.val] = some x ∧ IsImage s.build.pMod x.toNat a

/-- The state after a command without a fault whose one result is the number `v` in field register `d`: the register
holds `v`, VALID is set, the command is no longer in flight, and nothing else has changed (R29, R40). -/
def State.wrote (s : State) (d : FReg) (v : Nat) : State :=
  { s with f := s.f.set d.val (some (toWord v)), inFlight := none }

/-- The host address of a window register (R37, R54). -/
def State.addrOf (s : State) (r : WinReg) : Nat := s.build.windowBase + winOffset r

/-- The commands of a list run one after the other, each to its end (R64). -/
def execAll : List Instr → State → Host.Outcome State Fault Refusal
  | [], s => .next s
  | i :: is, s =>
    match exec i s with
    | .next t => execAll is t
    | .fault r => .fault r
    | .refused r => .refused r

/-- The state of the block, all that the spec gives it, is the same in `t` as in `s`; only the model's own record of its
surroundings may differ. -/
def SameBlock (s t : State) : Prop := t = { s with script := t.script, answers := t.answers, draws := t.draws }

/-- One step of the machine in which the host performs the access `a` on the block in state `s`. -/
def hostDoes (a : Access) (s : State) : Host.Outcome State Fault Refusal :=
  step { s with script := .access a :: s.script }

/-- One step of the machine in which the core, in state `s`, runs the command in flight to its end. -/
def coreDoes (s : State) : Host.Outcome State Fault Refusal := step { s with script := .core :: s.script }

/-- The source registers of a command: FA and FB where its class uses them (R73). -/
def sourcesOf : Instr → List FReg
  | .fldraw _ => []
  | .fldl _ => []
  | .fldu56 _ => []
  | .fldb _ => []
  | .fstraw a => [a]
  | .fstl a => [a]
  | .fstb a => [a]
  | .fstbits a => [a]
  | .fzero _ => []
  | .fone _ => []
  | .fneg _ a => [a]
  | .feq a b => [a, b]
  | .fisz a => [a]
  | .fisone a => [a]
  | .fadd _ a b => [a, b]
  | .fsub _ a b => [a, b]
  | .fdbl _ a => [a]
  | .wmul a b => [a, b]
  | .redc _ => []
  | .fmul _ a b => [a, b]
  | .fsqr _ a => [a]
  | .fpow _ a => [a]
  | .fpowu _ a => [a]
  | .finv _ a => [a]

/-- What a faulting command whose output is `o` leaves alone (R127): every VALID bit, every other field register, every
other buffer, PRED unless it is the output, and whatever the fault mechanism does not record. -/
def KeepsAllBut (o : Output) (s t : State) : Prop :=
  (∀ r : FReg, t.validBit r = s.validBit r) ∧ (∀ r : FReg, o ≠ .reg r → t.f[r.val] = s.f[r.val]) ∧
    t.limbIn = s.limbIn ∧ t.hiIn = s.hiIn ∧ t.bytesIn = s.bytesIn ∧
    (o ≠ .limbs → o ≠ .wide → t.limbOut = s.limbOut) ∧ (o ≠ .wide → t.hiOut = s.hiOut) ∧
    (o ≠ .bytes → t.bytesOut = s.bytesOut) ∧ (o ≠ .pred → t.pred = s.pred) ∧
    t.build = s.build ∧ t.resetIn = s.resetIn

/-- The fault record of the block after a fault was taken in the state `s` (R126, R43): the first fault is kept. -/
def Faulted (s t : State) (code : BitVec 8) (info : Word64) : Prop :=
  t.fault = true ∧ t.inFlight = none ∧
    if s.fault then t.fcode = s.fcode ∧ t.finfo = s.finfo else t.fcode = code ∧ t.finfo = info

/-- The event is a host read, as every step of a host's WAIT is (R19, R65). -/
def isHostRead : Event → Bool
  | .access (.read _ _) => true
  | .access (.write _ _ _) => false
  | .core => false
  | .assertReset => false
  | .releaseReset => false

/-- The digit `k` of iteration `i` of REDC (R112). -/
def redcDigit (p lo hi i : Nat) : Nat :=
  (([0, 1, 2, 3, 4].take i).foldl (redcOuter p (montPInv p)) (limbList lo ++ limbList hi, 0)).1.getD i 0 * montPInv p %
    2 ^ 56

/-- Every valid field register holds a value below `p` (R22, R27). -/
def State.Canonical (s : State) : Prop :=
  ∀ (i : FReg) (x : Word), s.f[i.val] = some x → x.toNat < s.build.pMod

/-- What FAULT, FCODE, FINFO and the command in flight have to do with each other (R41, R43, R45, R126, R142). -/
def State.FaultRecord (s : State) : Prop :=
  if s.fault then
    s.inFlight = none ∧ 1 ≤ s.fcode.toNat ∧ s.fcode.toNat ≤ 8 ∧ s.finfo.toNat < 2 ^ 44 ∧
      (s.fcode ≠ 8 → s.finfo.toNat < 2 ^ 32)
  else s.fcode = 0 ∧ s.finfo = 0

/-- While the reset input is asserted every piece of state is at its reset value (R150). -/
def State.ResetHeld (s : State) : Prop := s.resetIn = true → s.clear = s

/-- The invariant every step keeps. -/
def State.Inv (s : State) : Prop :=
  s.build.Valid ∧ s.Canonical ∧ s.FaultRecord ∧ s.ResetHeld

end Sys2Proof.Machine
end

