-- ==== Sys2Proof/Certificates/Slice0/Obligations.lean ====
section
/-! DEFINITION. The statements for the provers. Each says what the spec's rules say the block does; a docstring names the
rules, and the log entry where a clause is the model's own choice. -/

open Sys2Proof Sys2Proof.Machine

/-! Encoding -/

/-- R70, R73, R74, R85: the encoding of every command decodes to that command, whatever its register numbers. -/
def Obligations.DecodeOfEncode : Prop :=
  ∀ i : Instr, decode (cmdValue (encode i)) = .ok i

/-- R81: every CMD value either encodes exactly one command or is rejected; a value that decodes to a command is the
encoding of that command. -/
def Obligations.ValueEncodesOneCommandOrNone : Prop :=
  ∀ v : Word64, (∃ r, decode v = .error r) ∨
    ∃ i, decode v = .ok i ∧ v = cmdValue (encode i) ∧ ∀ j, v = cmdValue (encode j) → j = i

/-- R75: the match values; a word encodes the command of a row exactly when `(w AND mask) = match`, and no word matches
two rows. The masks are those of R73. -/
def Obligations.WordEncodesRowExactlyIfMaskMatches : Prop :=
  opcodeTable.map (fun r => (r.mnemonic, r.bitsFixed)) =
    [("FLDRAW", 0x01), ("FLDL", 0x02), ("FLDU56", 0x03), ("FLDB", 0x04), ("FSTRAW", 0x05), ("FSTL", 0x06),
      ("FSTB", 0x07), ("FSTBITS", 0x08), ("FZERO", 0x09), ("FONE", 0x0A), ("FNEG", 0x0B), ("FEQ", 0x0C),
      ("FISZ", 0x0D), ("FISONE", 0x0E), ("FADD", 0x10), ("FSUB", 0x11), ("FDBL", 0x12), ("WMUL", 0x18),
      ("REDC", 0x19), ("FMUL", 0x1A), ("FSQR", 0x1B), ("FPOW", 0x20), ("FPOWU", 0x60), ("FINV", 0x21)] ∧
  opcodeTable.map (fun r => r.cls) =
    [.d, .d, .d, .d, .a, .a, .a, .a, .d, .d, .da, .ab, .a, .a, .dab, .dab, .da, .ab, .d, .dab, .da, .da, .da, .da] ∧
  CmdClass.mask .d = 0xFFFFF0FF ∧ CmdClass.mask .a = 0xFFFF0FFF ∧ CmdClass.mask .ab = 0xFFF00FFF ∧
  CmdClass.mask .da = 0xFFFF00FF ∧ CmdClass.mask .dab = 0xFFF000FF ∧
  (∀ w : CmdWord, ∀ r ∈ opcodeTable,
    (w &&& r.cls.mask = r.bitsFixed ↔ ∃ i, decode (cmdValue w) = .ok i ∧ mnemonicOf i = r.mnemonic)) ∧
  (∀ w : CmdWord, ∀ r ∈ opcodeTable, ∀ q ∈ opcodeTable,
    w &&& r.cls.mask = r.bitsFixed → w &&& q.cls.mask = q.bitsFixed → r = q)

/-- R84: the encoding examples. -/
def Obligations.EncodingExamples : Prop :=
  (encode (.fadd 2 0 1) = 0x00010210 ∧ decode 0x00010210 = .ok (.fadd 2 0 1)) ∧
  (encode (.fmul 2 0 1) = 0x0001021A ∧ decode 0x0001021A = .ok (.fmul 2 0 1)) ∧
  (encode (.fpowu 3 1) = 0x00001360 ∧ decode 0x00001360 = .ok (.fpowu 3 1)) ∧
  (encode (.feq 1 2) = 0x0002100C ∧ decode 0x0002100C = .ok (.feq 1 2)) ∧
  (encode (.fldb 0) = 0x00000004 ∧ decode 0x00000004 = .ok (.fldb 0)) ∧
  decode 0x00000000 = .error .unassignedOpc ∧ decode 0x0000010E = .error .unusedField

/-- R85, R86, R129: the command in flight either is a command and runs, or its value is no legal encoding and the core's
turn raises E_ILLEGAL and changes nothing else. That E_ILLEGAL comes at the core's turn, and not at the CMD write, is the
model's choice (log 16). -/
def Obligations.CommandRunsOrIsIllegal : Prop :=
  ∀ (s : State) (v : Word64), s.inFlight = some v → s.fault = false →
    (legalCmdValue v = true ∧ ∃ i, v = cmdValue (encode i) ∧ coreDoes s = exec i s) ∨
    (legalCmdValue v = false ∧
      coreDoes s = .next { s with
        fault := true
        fcode := 0x01
        finfo := (v.setWidth 32).setWidth 64
        inFlight := none })

/-! Steps and host accesses -/

/-- R25, R64: a step in which the core's turn has come runs the command whose encoding is in flight; with nothing more to
happen around the block, the core's turn is always next (log 3). -/
def Obligations.StepRunsTheDecodedCommand : Prop :=
  ∀ (s : State) (v : Word64) (i : Instr), s.inFlight = some v → decode v = .ok i →
    (s.script = [] → step s = exec i s) ∧
    (∀ rest, s.script = .core :: rest → step s = exec i { s with script := rest })

/-- Placing the word of an opcode-table row makes the next step run it (log 11). -/
def Obligations.PlacedWordIsRunNext : Prop :=
  ∀ (s : State) (nbits w : Nat) (i : Instr), decodeTableWord nbits w = some i →
    step (s.withFetchWord nbits w) = exec i { s with
      inFlight := some (tableValue nbits w)
      fault := false
      fcode := 0
      finfo := 0
      resetIn := false }

/-- R46: the three cases of a CMD write, and CMD reads as 0. That a value which is no command is in flight until the core's
turn raises E_ILLEGAL (R78, R85), and not only until the write, is the model's choice in the second and third case
(log 16). -/
def Obligations.CmdWrite : Prop :=
  ∀ (s : State) (v : Word64), s.resetIn = false →
    (∃ t, hostDoes (.write (s.addrOf .cmd) 8 v) s = .next t ∧ t.answers = s.answers ++ [.ack] ∧
      (s.fault = true → SameBlock s t) ∧
      (s.fault = false → ∀ run, s.inFlight = some run →
        t.fault = true ∧ t.fcode = 0x08 ∧ t.inFlight = none ∧
          t.finfo.toNat = (run.setWidth 32).toNat + 0x018 * 2 ^ 32) ∧
      (s.fault = false → s.inFlight = none → SameBlock { s with inFlight := some v } t)) ∧
    s.readReg .cmd = 0

/-- R136: what a host access does while a command runs. A write to CMD or to an input-buffer register raises E_BUSY with
its offset, aborts the command and is discarded; a CTRL write with bit 0 set resets; a write to a read-only register is
ignored; a read never faults. That BUSY is 1, and E_BUSY is raised, also while a value that is no command is in flight is
the model's choice (log 16). -/
def Obligations.BusyWriteAborts : Prop :=
  ∀ (s : State) (run v : Word64) (r : WinReg), s.resetIn = false → s.fault = false → s.inFlight = some run →
    (∃ t, hostDoes (.write (s.addrOf r) 8 v) s = .next t ∧
      match r with
      | .id | .status | .finfo | .limbOut _ | .hiOut _ | .bytesOut _ => SameBlock s t
      | .ctrl => if v.getLsbD 0 then SameBlock (State.initial s.build) t else SameBlock s t
      | .cmd | .limbIn _ | .hiIn _ | .bytesIn _ =>
        t.fault = true ∧ t.fcode = 0x08 ∧ t.inFlight = none ∧
          t.finfo.toNat = (run.setWidth 32).toNat + winOffset r * 2 ^ 32 ∧
          t.limbIn = s.limbIn ∧ t.hiIn = s.hiIn ∧ t.bytesIn = s.bytesIn) ∧
    (∃ t, hostDoes (.read (s.addrOf r) 8) s = .next t ∧ SameBlock s t)

/-- R31, R32, R63 (a), R142: on an idle block, faulted or not, a write to an input-buffer register stores it, masked to 56
bits in a limb buffer, and changes nothing else; the register then reads as what was stored. -/
def Obligations.InputWriteReadsBack : Prop :=
  ∀ (s : State) (v : Word64), s.resetIn = false → s.inFlight = none →
    (∀ j : Fin 5, ∃ t, hostDoes (.write (s.addrOf (.limbIn j)) 8 v) s = .next t ∧
      SameBlock { s with limbIn := s.limbIn.set j.val (v.setWidth 56) } t ∧
      (t.readReg (.limbIn j)).toNat = v.toNat % 2 ^ 56) ∧
    (∀ j : Fin 5, ∃ t, hostDoes (.write (s.addrOf (.hiIn j)) 8 v) s = .next t ∧
      SameBlock { s with hiIn := s.hiIn.set j.val (v.setWidth 56) } t ∧
      (t.readReg (.hiIn j)).toNat = v.toNat % 2 ^ 56) ∧
    (∀ m : Fin 4, ∃ t, hostDoes (.write (s.addrOf (.bytesIn m)) 8 v) s = .next t ∧
      SameBlock { s with bytesIn := s.bytesIn.set m.val v } t ∧
      t.readReg (.bytesIn m) = v)

/-- R38, R47: a write to a read-only register, or to CTRL with bit 0 clear, is taken without an error and changes nothing,
in every state of the block. -/
def Obligations.IgnoredWrites : Prop :=
  ∀ (s : State) (v : Word64) (r : WinReg), s.resetIn = false →
    (r = .id ∨ r = .status ∨ r = .finfo ∨ (∃ j, r = .limbOut j) ∨ (∃ j, r = .hiOut j) ∨ (∃ m, r = .bytesOut m) ∨
      (r = .ctrl ∧ v.getLsbD 0 = false)) →
    ∃ t, hostDoes (.write (s.addrOf r) 8 v) s = .next t ∧ t.answers = s.answers ++ [.ack] ∧ SameBlock s t

/-- R60: a read of any register changes no state, and a second read returns the same value, while a command runs too
(log 5). -/
def Obligations.ReadsHaveNoSideEffect : Prop :=
  ∀ (s : State) (r : WinReg), s.resetIn = false →
    ∃ t u, hostDoes (.read (s.addrOf r) 8) s = .next t ∧ t.answers = s.answers ++ [.data (s.readReg r)] ∧
      SameBlock s t ∧
      hostDoes (.read (s.addrOf r) 8) t = .next u ∧ u.answers = t.answers ++ [.data (s.readReg r)] ∧ SameBlock s u

/-- R58, R137: an access to the window that is not 8 bytes wide, not aligned, or at a reserved offset of R37 gets a
bus-error response and changes no state. -/
def Obligations.BusErrors : Prop :=
  ∀ (s : State) (off width : Nat) (v : Word64), s.resetIn = false → off < 0x200 →
    (width ≠ 8 ∨ off % 8 ≠ 0 ∨ (0x028 ≤ off ∧ off ≤ 0x03F) ∨ (0x068 ≤ off ∧ off ≤ 0x07F) ∨
      (0x0A8 ≤ off ∧ off ≤ 0x0BF) ∨ (0x0E0 ≤ off ∧ off ≤ 0x0FF) ∨ (0x128 ≤ off ∧ off ≤ 0x13F) ∨
      (0x168 ≤ off ∧ off ≤ 0x17F) ∨ (0x1A0 ≤ off ∧ off ≤ 0x1FF)) →
    (∃ t, hostDoes (.read (s.build.windowBase + off) width) s = .next t ∧ t.answers = s.answers ++ [.busError] ∧
      SameBlock s t) ∧
    (∃ t, hostDoes (.write (s.build.windowBase + off) width v) s = .next t ∧ t.answers = s.answers ++ [.busError] ∧
      SameBlock s t)

/-- R37: the offsets of the registers; every other offset of the window is reserved. -/
def Obligations.WindowMap : Prop :=
  winRegAt 0x000 = some .id ∧ winRegAt 0x008 = some .ctrl ∧ winRegAt 0x010 = some .status ∧
  winRegAt 0x018 = some .cmd ∧ winRegAt 0x020 = some .finfo ∧
  (∀ j : Fin 5, winRegAt (0x040 + 8 * j.val) = some (.limbIn j) ∧ winRegAt (0x080 + 8 * j.val) = some (.hiIn j) ∧
    winRegAt (0x100 + 8 * j.val) = some (.limbOut j) ∧ winRegAt (0x140 + 8 * j.val) = some (.hiOut j)) ∧
  (∀ m : Fin 4, winRegAt (0x0C0 + 8 * m.val) = some (.bytesIn m) ∧
    winRegAt (0x180 + 8 * m.val) = some (.bytesOut m)) ∧
  (∀ off r, winRegAt off = some r → off = winOffset r)

/-- R39: the fields of STATUS, and a write to it is ignored. PRED and VALID read as R42 and R44 say: exactly, but for a
predicate command in flight and for the destination of the command in flight, which reads its old value or 1. That a value
in flight that is no command writes nothing, so that PRED and VALID then read exactly, is the model's choice (log 22). -/
def Obligations.StatusFields : Prop :=
  ∀ s : State,
    (s.readReg .status).getLsbD 0 = s.busy ∧ (s.readReg .status).getLsbD 1 = s.fault ∧
    (s.runningOutput ≠ some .pred → (s.readReg .status).getLsbD 2 = s.pred) ∧
    (s.readReg .status).extractLsb' 3 5 = 0 ∧ (s.readReg .status).extractLsb' 8 8 = s.fcode ∧
    (∀ i : FReg, (s.runningOutput ≠ some (.reg i) → (s.readReg .status).getLsbD (16 + i.val) = s.validBit i) ∧
      (s.validBit i = true → (s.readReg .status).getLsbD (16 + i.val) = true)) ∧
    (s.readReg .status).extractLsb' 32 32 = 0 ∧
    (s.resetIn = false → ∀ v, ∃ t, hostDoes (.write (s.addrOf .status) 8 v) s = .next t ∧ SameBlock s t)

/-- R36, R10: the value of ID, in every state; of an Fq block it is the one with MODSEL 0 and of an Fr block the one with
MODSEL 1, the numbers Fq and Fr being presumed (log 2); for another modulus MODSEL is open (U20, log 19). -/
def Obligations.IdValues : Prop :=
  ∀ s : State, s.build.Valid →
    ((s.build.modsel = 0 ∧ s.readReg .id = 0x00010020FE103805) ∨
      (s.build.modsel = 1 ∧ s.readReg .id = 0x00010120FE103805)) ∧
    (s.build.pMod = Build.fqModulus → s.readReg .id = 0x00010020FE103805) ∧
    (s.build.pMod = Build.frModulus → s.readReg .id = 0x00010120FE103805)

/-- R34, R157, R63 (b): an output buffer the command in flight does not write, and every buffer of an idle block, reads as
what was left in it; input buffers, FINFO and CTRL read exactly in every state; a limb register reads below 2^56 always.
That a value in flight that is no command writes no buffer, so that all of them then read exactly, is the model's choice
(log 22). -/
def Obligations.ReadsOfWhatIsNotBeingWritten : Prop :=
  ∀ s : State,
    (∀ j : Fin 5, s.runningOutput ≠ some .limbs → s.runningOutput ≠ some .wide →
      (s.readReg (.limbOut j)).toNat = s.limbOut[j.val].toNat) ∧
    (∀ j : Fin 5, s.runningOutput ≠ some .wide → (s.readReg (.hiOut j)).toNat = s.hiOut[j.val].toNat) ∧
    (∀ m : Fin 4, s.runningOutput ≠ some .bytes → s.readReg (.bytesOut m) = s.bytesOut[m.val]) ∧
    (∀ j : Fin 5, (s.readReg (.limbOut j)).toNat < 2 ^ 56 ∧ (s.readReg (.hiOut j)).toNat < 2 ^ 56) ∧
    (∀ j : Fin 5, (s.readReg (.limbIn j)).toNat = s.limbIn[j.val].toNat ∧
      (s.readReg (.hiIn j)).toNat = s.hiIn[j.val].toNat) ∧
    (∀ m : Fin 4, s.readReg (.bytesIn m) = s.bytesIn[m.val]) ∧
    s.readReg .finfo = s.finfo ∧ s.readReg .ctrl = 0 ∧
    (s.inFlight = none → s.runningOutput = none)

/-! Reset -/

/-- R52: the state after reset, and after the release of the hard reset and after a soft reset of any state. -/
def Obligations.ResetStateValues : Prop :=
  (∀ (b : Build) (t : State), SameBlock (State.initial b) t →
    (∀ i : FReg, t.validBit i = false) ∧ t.limbIn = Vector.replicate 5 0 ∧ t.hiIn = Vector.replicate 5 0 ∧
    t.bytesIn = Vector.replicate 4 0 ∧ t.limbOut = Vector.replicate 5 0 ∧ t.hiOut = Vector.replicate 5 0 ∧
    t.bytesOut = Vector.replicate 4 0 ∧ t.readReg .status = 0 ∧ t.readReg .finfo = 0 ∧ t.readReg .ctrl = 0 ∧
    t.readReg .id = idValue b ∧ t.build = b ∧ t.inFlight = none) ∧
  SameBlock (State.initial State.reset.build) State.reset ∧
  (∀ (s t : State) (rest : List Event), step { s with script := .releaseReset :: rest } = .next t →
    SameBlock (State.initial s.build) t) ∧
  (∀ s : State, s.resetIn = false → ∃ t, hostDoes (.write (s.addrOf .ctrl) 8 1) s = .next t ∧
    SameBlock (State.initial s.build) t)

/-- R151: the soft reset, in every state, and the CTRL write that is none. -/
def Obligations.SoftReset : Prop :=
  ∀ (s : State) (v : Word64), s.resetIn = false →
    ∃ t, hostDoes (.write (s.addrOf .ctrl) 8 v) s = .next t ∧ t.answers = s.answers ++ [.ack] ∧
      (v.getLsbD 0 = true → SameBlock (State.initial s.build) t) ∧ (v.getLsbD 0 = false → SameBlock s t)

/-- R150, R152: the hard reset abandons whatever runs, and its release leaves the reset state, which accepts a CMD write at
once. That the state is at its reset values already while the input is asserted, and that an access to the held block stops
the machine (U13), are the model's choices (log 10); so is that an illegal CMD value is in flight until the core's turn
(log 16). -/
def Obligations.HardReset : Prop :=
  ∀ (s : State) (rest : List Event),
    (∃ t, step { s with script := .assertReset :: rest } = .next t ∧
      SameBlock { State.initial s.build with resetIn := true } t ∧ t.script = rest ∧
      ∀ off width v, off < 0x200 →
        hostDoes (.read (t.build.windowBase + off) width) t = .fault .heldInReset ∧
        hostDoes (.write (t.build.windowBase + off) width v) t = .fault .heldInReset) ∧
    (∃ t, step { s with script := .releaseReset :: rest } = .next t ∧ SameBlock (State.initial s.build) t ∧
      t.script = rest ∧
      ∀ v, ∃ u, hostDoes (.write (t.addrOf .cmd) 8 v) t = .next u ∧ u.inFlight = some v)

/-! Faults -/

/-- R130: a command with a source register whose VALID bit is 0 does not compute: it raises E_UNINIT with its word. -/
def Obligations.InvalidSourceFaults : Prop :=
  ∀ (i : Instr) (s : State), (∃ r ∈ sourcesOf i, s.validBit r = false) →
    ∃ t, exec i s = .next t ∧ Faulted s t 0x02 ((encode i).setWidth 64) ∧ KeepsAllBut (outputOf i) s t

/-- R131, R132, R133, R134: the value checks of FLDB, FLDRAW, REDC and FINV. The exact next state keeps the content of the
destination register, which R127 leaves unspecified and allows to be kept: that is the model's choice (log 6). -/
def Obligations.ValueChecksFault : Prop :=
  ∀ (s : State) (d a : FReg), s.fault = false →
    (s.build.pMod ≤ s.inY → exec (.fldb d) s = .next { s with
      fault := true, fcode := 0x03, finfo := (encode (.fldb d)).setWidth 64, inFlight := none }) ∧
    (s.build.pMod ≤ s.inL → exec (.fldraw d) s = .next { s with
      fault := true, fcode := 0x04, finfo := (encode (.fldraw d)).setWidth 64, inFlight := none }) ∧
    (s.build.pMod ≤ s.inH → exec (.redc d) s = .next { s with
      fault := true, fcode := 0x05, finfo := (encode (.redc d)).setWidth 64, inFlight := none }) ∧
    (s.f[a.val] = some 0 → exec (.finv d a) s = .next { s with
      fault := true, fcode := 0x06, finfo := (encode (.finv d a)).setWidth 64, inFlight := none })

/-- R139: the priority of the checks of one command: an illegal value faults with E_ILLEGAL whatever the registers hold,
an invalid source with E_UNINIT whatever the values, and the value checks come after. That an illegal value faults at the
core's turn is the model's choice (log 16). -/
def Obligations.FaultPriority : Prop :=
  ∀ (s t : State) (v : Word64), s.fault = false → s.inFlight = some v → coreDoes s = .next t →
    (legalCmdValue v = false → t.fcode = 0x01) ∧
    (∀ i, v = cmdValue (encode i) → (∃ r ∈ sourcesOf i, s.validBit r = false) → t.fcode = 0x02) ∧
    (∀ i, v = cmdValue (encode i) → (∀ r ∈ sourcesOf i, s.validBit r = true) →
      t.fault = false ∨
      (∃ d, i = .fldb d ∧ t.fcode = 0x03) ∨ (∃ d, i = .fldraw d ∧ t.fcode = 0x04) ∨
      (∃ d, i = .redc d ∧ t.fcode = 0x05) ∨ (∃ d a, i = .finv d a ∧ (t.fcode = 0x06 ∨ t.fcode = 0x07)))

/-- R135: on canonical registers FINV never raises E_INV_CHECK. -/
def Obligations.InverseCheckNeverFails : Prop :=
  ∀ (s t : State) (d a : FReg), s.build.Valid → s.Canonical → s.fault = false → exec (.finv d a) s = .next t →
    t.fault = true → t.fcode ≠ 0x07

/-- R127: what a faulting command leaves alone, whether it faults by its own checks or is aborted by a host write (the
command in flight of E_BUSY). -/
def Obligations.FaultingCommandLeavesTheRest : Prop :=
  (∀ (i : Instr) (s t : State), s.fault = false → exec i s = .next t → t.fault = true →
    KeepsAllBut (outputOf i) s t) ∧
  (∀ (i : Instr) (s t : State) (r : WinReg) (v : Word64), s.resetIn = false → s.fault = false →
    s.inFlight = some (cmdValue (encode i)) → hostDoes (.write (s.addrOf r) 8 v) s = .next t → t.fault = true →
    KeepsAllBut (outputOf i) s t)

/-- R41, R43, R45, R142: in the fault state only a reset changes the fault record; no command starts, and the field
registers, the output buffers and PRED stay as they are. That the state is at its reset values already while the reset input
is asserted is the model's choice (log 10). -/
def Obligations.FaultStaysUntilReset : Prop :=
  ∀ s t : State, s.fault = true → s.FaultRecord → step s = .next t →
    (t.fault = true ∧ t.fcode = s.fcode ∧ t.finfo = s.finfo ∧ t.inFlight = none ∧ t.f = s.f ∧ t.limbOut = s.limbOut ∧
      t.hiOut = s.hiOut ∧ t.bytesOut = s.bytesOut ∧ t.pred = s.pred) ∨
    (∃ rest v, (s.script = .assertReset :: rest ∨ s.script = .releaseReset :: rest ∨
        (s.script = .access (.write (s.addrOf .ctrl) 8 v) :: rest ∧ v.getLsbD 0 = true)) ∧
      SameBlock { State.initial s.build with resetIn := t.resetIn } t)

/-! Frames -/

/-- R76, R29, R42: the commands that write a field register change no other register, no buffer, not PRED, and of the
fault record only what taking a fault changes. -/
def Obligations.RegisterCommandsFrame : Prop :=
  ∀ (d a b : FReg) (s t : State) (i : Instr),
    i ∈ [Instr.fldraw d, .fldl d, .fldu56 d, .fldb d, .fzero d, .fone d, .fneg d a, .fadd d a b, .fsub d a b,
      .fdbl d a, .redc d, .fmul d a b, .fsqr d a, .fpow d a, .fpowu d a, .finv d a] →
    exec i s = .next t →
    (∀ r : FReg, r ≠ d → t.f[r.val] = s.f[r.val]) ∧ t.limbIn = s.limbIn ∧ t.hiIn = s.hiIn ∧ t.bytesIn = s.bytesIn ∧
      t.limbOut = s.limbOut ∧ t.hiOut = s.hiOut ∧ t.bytesOut = s.bytesOut ∧ t.pred = s.pred ∧ t.build = s.build ∧
      t.resetIn = s.resetIn ∧ t.script = s.script ∧ t.answers = s.answers ∧ t.inFlight = none ∧
      ((t.fault = s.fault ∧ t.fcode = s.fcode ∧ t.finfo = s.finfo) ∨
        (t.fault = true ∧ ∀ r : FReg, t.validBit r = s.validBit r))

/-- R76, R34: the commands that write an output buffer change no field register, no other buffer and not PRED. -/
def Obligations.BufferCommandsFrame : Prop :=
  ∀ (a b : FReg) (s t : State) (i : Instr),
    i ∈ [Instr.fstraw a, .fstl a, .fstb a, .fstbits a, .wmul a b] → exec i s = .next t →
    t.f = s.f ∧ t.limbIn = s.limbIn ∧ t.hiIn = s.hiIn ∧ t.bytesIn = s.bytesIn ∧ t.pred = s.pred ∧
      t.build = s.build ∧ t.resetIn = s.resetIn ∧ t.script = s.script ∧ t.answers = s.answers ∧ t.inFlight = none ∧
      (i ∈ [Instr.fstraw a, .fstl a] → t.hiOut = s.hiOut ∧ t.bytesOut = s.bytesOut) ∧
      (i ∈ [Instr.fstb a, .fstbits a] → t.limbOut = s.limbOut ∧ t.hiOut = s.hiOut) ∧
      (i = .wmul a b → t.bytesOut = s.bytesOut) ∧
      ((t.fault = s.fault ∧ t.fcode = s.fcode ∧ t.finfo = s.finfo) ∨ t.fault = true)

/-- R76, R42: the predicate commands change no field register and no buffer. -/
def Obligations.PredicateCommandsFrame : Prop :=
  ∀ (a b : FReg) (s t : State) (i : Instr),
    i ∈ [Instr.feq a b, .fisz a, .fisone a] → exec i s = .next t →
    t.f = s.f ∧ t.limbIn = s.limbIn ∧ t.hiIn = s.hiIn ∧ t.bytesIn = s.bytesIn ∧ t.limbOut = s.limbOut ∧
      t.hiOut = s.hiOut ∧ t.bytesOut = s.bytesOut ∧ t.build = s.build ∧ t.resetIn = s.resetIn ∧
      t.script = s.script ∧ t.answers = s.answers ∧ t.inFlight = none ∧
      ((t.fault = s.fault ∧ t.fcode = s.fcode ∧ t.finfo = s.finfo) ∨ t.fault = true)

/-! Results, and where each command completes -/

/-- R89, R93: FLDRAW of a value below `p` stores it as it is; FSTRAW writes the five limbs of the stored image. -/
def Obligations.RawLoadAndExport : Prop :=
  (∀ (s : State) (d : FReg), s.inL < s.build.pMod → exec (.fldraw d) s = .next (s.wrote d s.inL)) ∧
  (∀ (s : State) (a : FReg) (x : Word), s.f[a.val] = some x →
    ∃ l : Limbs, (∀ j : Fin 5, l[j.val].toNat = x.toNat / 2 ^ (56 * j.val) % 2 ^ 56) ∧
      exec (.fstraw a) s = .next { s with limbOut := l, inFlight := none })

/-- R90, R91, R92: FLDL stores the image of the limb input reduced modulo `p`, FLDU56 that of LIMB_IN0 alone, FLDB that of
a byte input below `p`. -/
def Obligations.CanonicalLoads : Prop :=
  ∀ (s : State) (d : FReg), s.build.Valid →
    exec (.fldl d) s = .next (s.wrote d (mont s.build.pMod (s.inL % s.build.pMod))) ∧
    exec (.fldu56 d) s = .next (s.wrote d (mont s.build.pMod s.limbIn[0].toNat)) ∧
    (s.inY < s.build.pMod → exec (.fldb d) s = .next (s.wrote d (mont s.build.pMod s.inY)))

/-- R94: FSTL writes the five limbs of the logical value. -/
def Obligations.LimbExport : Prop :=
  ∀ (s : State) (a : FReg) (c : Nat), s.build.Valid → s.HoldsLogical a c →
    ∃ l : Limbs, (∀ j : Fin 5, l[j.val].toNat = c / 2 ^ (56 * j.val) % 2 ^ 56) ∧ l[4].toNat < 2 ^ 30 ∧
      exec (.fstl a) s = .next { s with limbOut := l, inFlight := none }

/-- R95: FSTB writes the 32 little-endian bytes of the logical value. -/
def Obligations.ByteExport : Prop :=
  ∀ (s : State) (a : FReg) (c : Nat), s.build.Valid → s.HoldsLogical a c →
    ∃ y : ByteBuf, (∀ k : Fin 32, (byteOf y k).toNat = c / 2 ^ (8 * k.val) % 2 ^ 8) ∧
      y[3].getLsbD 62 = false ∧ y[3].getLsbD 63 = false ∧
      exec (.fstb a) s = .next { s with bytesOut := y, inFlight := none }

/-- R96: FSTBITS writes the 254 bits of the logical value and 0 at positions 254 and 255, which as a number is what FSTB
writes. -/
def Obligations.BitExport : Prop :=
  ∀ (s : State) (a : FReg) (c : Nat), s.build.Valid → s.HoldsLogical a c →
    ∃ y : ByteBuf, (∀ k : Fin 256, (y[k.val / 64]'(by omega)).getLsbD (k.val % 64) = (decide (k.val < 254) && c.testBit k.val)) ∧
      exec (.fstbits a) s = .next { s with bytesOut := y, inFlight := none } ∧
      exec (.fstb a) s = .next { s with bytesOut := y, inFlight := none }

/-- R99, R100: FZERO and FONE, on every block and in every state, and their encodings. -/
def Obligations.Identities : Prop :=
  ∀ (s : State) (d : FReg),
    exec (.fzero d) s = .next (s.wrote d 0) ∧ (encode (.fzero d)).toNat = 0x09 + d.val * 2 ^ 8 ∧
    exec (.fone d) s = .next (s.wrote d (2 ^ 280 % s.build.pMod)) ∧ (encode (.fone d)).toNat = 0x0A + d.val * 2 ^ 8

/-- R101: FNEG gives the additive inverse of the logical value, and zero for zero. -/
def Obligations.Negation : Prop :=
  ∀ (s : State) (d a : FReg) (x : Nat), s.build.Valid → s.HoldsLogical a x →
    exec (.fneg d a) s = .next (s.wrote d (mont s.build.pMod ((s.build.pMod - x) % s.build.pMod)))

/-- R102, R103, R104, R105: stored images are equal exactly when the logical values are; so the predicates decide equality
of logical values, being zero and being one. -/
def Obligations.Predicates : Prop :=
  ∀ (s : State) (a b : FReg) (x y : Nat), s.build.Valid → s.HoldsLogical a x → s.HoldsLogical b y →
    (s.f[a.val] = s.f[b.val] ↔ x = y) ∧
    exec (.feq a b) s = .next { s with pred := decide (x = y), inFlight := none } ∧
    exec (.fisz a) s = .next { s with pred := decide (x = 0), inFlight := none } ∧
    exec (.fisone a) s = .next { s with pred := decide (x = 1), inFlight := none }

/-- R106, R107, R108: addition, subtraction and doubling modulo `p` of logical values; any registers may coincide (R23). -/
def Obligations.AddSubDouble : Prop :=
  ∀ (s : State) (d a b : FReg) (x y : Nat), s.build.Valid → s.HoldsLogical a x → s.HoldsLogical b y →
    exec (.fadd d a b) s = .next (s.wrote d (mont s.build.pMod ((x + y) % s.build.pMod))) ∧
    exec (.fsub d a b) s = .next (s.wrote d (mont s.build.pMod ((x + s.build.pMod - y) % s.build.pMod))) ∧
    exec (.fdbl d a) s = .next (s.wrote d (mont s.build.pMod (2 * x % s.build.pMod)))

/-- R111, R115: WMUL writes the exact double-width product of the stored images; on canonical images its high half is
below `p`. -/
def Obligations.WideningMultiply : Prop :=
  ∀ (s : State) (a b : FReg) (x y : Word), s.f[a.val] = some x → s.f[b.val] = some y →
    ∃ lo hi : Limbs, limbsToNat lo + limbsToNat hi * 2 ^ 280 = x.toNat * y.toNat ∧
      (x.toNat < s.build.pMod → y.toNat < s.build.pMod → limbsToNat hi < s.build.pMod) ∧
      exec (.wmul a b) s = .next { s with limbOut := lo, hiOut := hi, inFlight := none }

/-- R113 (d), R116: REDC of an accepted input writes the canonical residue that is the input divided by 2^280. -/
def Obligations.ReduceCommand : Prop :=
  ∀ (s : State) (d : FReg), s.build.Valid → s.inH < s.build.pMod →
    ∃ r, r < s.build.pMod ∧ r * 2 ^ 280 % s.build.pMod = (s.inL + s.inH * 2 ^ 280) % s.build.pMod ∧
      exec (.redc d) s = .next (s.wrote d r)

/-- R117, R118: multiplication and squaring modulo `p` of logical values. -/
def Obligations.MultiplySquare : Prop :=
  ∀ (s : State) (d a b : FReg) (x y : Nat), s.build.Valid → s.HoldsLogical a x → s.HoldsLogical b y →
    exec (.fmul d a b) s = .next (s.wrote d (mont s.build.pMod (x * y % s.build.pMod))) ∧
    exec (.fsqr d a) s = .next (s.wrote d (mont s.build.pMod (x ^ 2 % s.build.pMod)))

/-- R120, R121, R122: exponentiation modulo `p` of the logical value by the whole 280-bit exponent, accounted or not. -/
def Obligations.Exponentiation : Prop :=
  ∀ (s : State) (d a : FReg) (x : Nat), s.build.Valid → s.HoldsLogical a x →
    exec (.fpow d a) s = .next (s.wrote d (mont s.build.pMod (x ^ s.inL % s.build.pMod))) ∧
    exec (.fpowu d a) s = .next (s.wrote d (mont s.build.pMod (x ^ s.inL % s.build.pMod)))

/-- R123: FINV of a value other than zero completes with the inverse. -/
def Obligations.Inversion : Prop :=
  ∀ (s : State) (d a : FReg) (x : Nat), s.build.Valid → s.HoldsLogical a x → x ≠ 0 →
    ∃ z, z < s.build.pMod ∧ x * z % s.build.pMod = 1 ∧
      exec (.finv d a) s = .next (s.wrote d (mont s.build.pMod z))

/-! Laws of the arithmetic -/

/-- R97: the three round trips. -/
def Obligations.RoundTrips : Prop :=
  ∀ (s : State) (d : FReg), s.build.Valid →
    (s.inY < s.build.pMod → ∃ t, execAll [.fldb d, .fstb d] s = .next t ∧ t.bytesOut = s.bytesIn) ∧
    (∃ t, execAll [.fldl d, .fstl d] s = .next t ∧ limbsToNat t.limbOut = s.inL % s.build.pMod) ∧
    (s.inL < s.build.pMod → ∃ t, execAll [.fldraw d, .fstraw d] s = .next t ∧ limbsToNat t.limbOut = s.inL)

/-- R110: adding a register that holds zero, adding the negative, and distributivity, as runs of commands on any logical
values; only registers that a run still reads are not overwritten by it. -/
def Obligations.FieldLaws : Prop :=
  ∀ (s : State) (a b c : FReg) (x y z : Nat), s.build.Valid → s.HoldsLogical a x → s.HoldsLogical b y →
    s.HoldsLogical c z →
    (∀ o d : FReg, o ≠ a → ∃ t, execAll [.fzero o, .fadd d a o] s = .next t ∧ t.f[d.val] = s.f[a.val]) ∧
    (y = 0 → ∀ d : FReg, ∃ t, exec (.fadd d a b) s = .next t ∧ t.f[d.val] = s.f[a.val]) ∧
    (∀ n d : FReg, n ≠ a → ∃ t, execAll [.fneg n a, .fadd d a n] s = .next t ∧ t.f[d.val] = some 0) ∧
    (∀ d u v : FReg, d ≠ c → u ≠ b → u ≠ c → u ≠ v →
      ∃ t t', execAll [.fadd d a b, .fmul d d c] s = .next t ∧
        execAll [.fmul u a c, .fmul v b c, .fadd d u v] s = .next t' ∧ t.f[d.val] = t'.f[d.val])

/-- R119: the multiplicative identity, 2 times 3 is 6, and FMUL is commutative. -/
def Obligations.MultiplicationLaws : Prop :=
  ∀ (s : State) (a b : FReg) (x y : Nat), s.build.Valid → s.HoldsLogical a x → s.HoldsLogical b y →
    (∀ o d : FReg, o ≠ a → ∃ t, execAll [.fone o, .fmul d a o] s = .next t ∧ t.f[d.val] = s.f[a.val]) ∧
    (x = 2 → y = 3 → ∀ d, exec (.fmul d a b) s = .next (s.wrote d (mont s.build.pMod 6))) ∧
    (∀ d, exec (.fmul d a b) s = .next (s.wrote d (mont s.build.pMod (x * y % s.build.pMod))) ∧
      exec (.fmul d b a) s = exec (.fmul d a b) s)

/-- R125: the laws of `pow` and `invert`. -/
def Obligations.ExponentLaws : Prop :=
  ∀ (s : State) (a d : FReg) (x : Nat), s.build.Valid → s.fault = false → s.HoldsLogical a x →
    (s.inL = 0 → exec (.fpow d a) s = .next (s.wrote d (2 ^ 280 % s.build.pMod))) ∧
    (x = 0 → 0 < s.inL → exec (.fpow d a) s = .next (s.wrote d 0)) ∧
    (s.inL = 1 → exec (.fpow d a) s = .next (s.wrote d (mont s.build.pMod x))) ∧
    (x ≠ 0 → d ≠ a → ∃ t, execAll [.finv d a, .fmul d a d, .fisone d] s = .next t ∧ t.pred = true ∧ t.fault = false) ∧
    (x = 0 → ∃ t, exec (.finv d a) s = .next t ∧ t.fault = true ∧ t.fcode = 0x06) ∧
    (x = 7 → s.inL = 2 → exec (.fpow d a) s = .next (s.wrote d (mont s.build.pMod 49))) ∧
    (x = 7 → d ≠ a → ∃ t, execAll [.finv d a, .fmul d a d, .fisone d] s = .next t ∧ t.pred = true)

/-- R9: the hardwired constants of a build, and no step changes them. -/
def Obligations.HardwiredConstants : Prop :=
  (∀ b : Build, b.Valid →
    montOne b.pMod = 2 ^ 280 % b.pMod ∧ montR2 b.pMod = montOne b.pMod ^ 2 % b.pMod ∧ montPInv b.pMod < 2 ^ 56 ∧
      (b.pMod * montPInv b.pMod + 1) % 2 ^ 56 = 0) ∧
  (∀ s t : State, step s = .next t → t.build = s.build)

/-- R113: the closed form and the bounds of REDC, for the steps of R112. -/
def Obligations.ReduceClosedForm : Prop :=
  ∀ (b : Build) (lo hi : Nat), b.Valid → lo < 2 ^ 280 → hi < b.pMod →
    ∃ K, K < 2 ^ 280 ∧ (lo + hi * 2 ^ 280 + K * b.pMod) % 2 ^ 280 = 0 ∧
      (∀ K', K' < 2 ^ 280 → (lo + hi * 2 ^ 280 + K' * b.pMod) % 2 ^ 280 = 0 → K' = K) ∧
      K = redcDigit b.pMod lo hi 0 + redcDigit b.pMod lo hi 1 * 2 ^ 56 + redcDigit b.pMod lo hi 2 * 2 ^ 112 +
        redcDigit b.pMod lo hi 3 * 2 ^ 168 + redcDigit b.pMod lo hi 4 * 2 ^ 224 ∧
      redcUpper b.pMod lo hi = (lo + hi * 2 ^ 280 + K * b.pMod) / 2 ^ 280 ∧
      redcUpper b.pMod lo hi < 2 * b.pMod ∧ (redcBuffer b.pMod lo hi).2 = 0 ∧
      redc b.pMod lo hi < b.pMod ∧
      redc b.pMod lo hi * 2 ^ 280 % b.pMod = (lo + hi * 2 ^ 280) % b.pMod

/-- R106, R107, R49: the limb-wise sum with carry is the 280-bit sum with its carry-out, which is 0 below `p`; the
limb-wise difference with borrow is the 280-bit difference with its borrow-out. -/
def Obligations.CarryAndBorrowChains : Prop :=
  (∀ x y : Nat, x < 2 ^ 280 → y < 2 ^ 280 →
    limbAdd (limbList x) (limbList y) 0 = (limbList ((x + y) % 2 ^ 280), addCarry x y) ∧
    limbSub (limbList x) (limbList y) 0 = (limbList ((x + 2 ^ 280 - y) % 2 ^ 280), subBorrow x y)) ∧
  (∀ (b : Build) (x y : Nat), b.Valid → x < b.pMod → y < b.pMod →
    addCarry x y = 0 ∧ modAdd b.pMod x y = (x + y) % b.pMod ∧ modSub b.pMod x y = (x + b.pMod - y) % b.pMod)

/-- R14, R32, R55: the value of a byte buffer by its 32 bytes is its value by its four registers, and byte `k` of
BYTES_IN stands at byte address `0x0C0 + k` of the window. -/
def Obligations.ByteBufferValue : Prop :=
  (∀ b : ByteBuf, byteBufToNat b = ((List.finRange 32).map fun k => (byteOf b k).toNat * 2 ^ (8 * k.val)).sum) ∧
  (∀ (s : State) (m : Fin 4) (j : Fin 8) (k : Fin 32), k.val = 8 * m.val + j.val →
    winOffset (.bytesIn m) + j.val = 0x0C0 + k.val ∧ windowByte (s.readReg (.bytesIn m)) j = byteOf s.bytesIn k)

/-! The whole machine -/

/-- R22, R27, R41, R43, R45, R126, R128, R150: every step keeps the invariant: registers canonical, the fault record
consistent (a fault stops the command in flight, its code is 1 to 8; without a fault it is 0), the held block at its
reset values. R150 fixes the state only when the reset input is released: that it is at its reset values while the input is
asserted is the model's choice (log 10), and so is that a faulting command leaves its destination register as it was
(log 6). -/
def Obligations.StepKeepsInv : Prop :=
  ∀ s t : State, s.Inv → step s = .next t → t.Inv

/-- The invariant holds at reset, of every build R8, R10 and R36 allow and of the build of this block (log 1, log 19); the
reset input is released then (log 10). -/
def Obligations.ResetHasInv : Prop :=
  (∀ b : Build, b.Valid → (State.initial b).Inv) ∧ State.reset.Inv

/-- R22, R15: where the invariant holds every valid register is the image of exactly one logical value. -/
def Obligations.ValidRegistersHoldLogicalValues : Prop :=
  ∀ (s : State) (r : FReg) (x : Word), s.Inv → s.f[r.val] = some x →
    ∃ a, IsImage s.build.pMod x.toNat a ∧ ∀ a', IsImage s.build.pMod x.toNat a' → a' = a

/-- R29: a command that completes without a fault sets the VALID bit of its destination; no other event sets one; only a
reset clears them, and it clears all 16; a faulting command sets none. That the bits are cleared already when the reset
input is asserted is the model's choice (log 10). -/
def Obligations.ValidBits : Prop :=
  (∀ (i : Instr) (s t : State) (d : FReg), s.fault = false → outputOf i = .reg d → exec i s = .next t →
    (t.fault = false → t.validBit d = true) ∧ (t.fault = true → ∀ r : FReg, t.validBit r = s.validBit r)) ∧
  (∀ s t : State, step s = .next t →
    (∀ r : FReg, t.validBit r = s.validBit r) ∨
    (SameBlock { State.initial s.build with resetIn := t.resetIn } t ∧ ∀ r : FReg, t.validBit r = false) ∨
    (∃ v i d w, s.inFlight = some v ∧ decode v = .ok i ∧ outputOf i = .reg d ∧ t.f = s.f.set d.val (some w) ∧
      t.fault = s.fault ∧ t.inFlight = none))

/-- R42: only a predicate command, or a reset, changes PRED (an aborted or faulting predicate command leaves a free value,
R127). That PRED is 0 already when the reset input is asserted is the model's choice (log 10). -/
def Obligations.PredChangesOnlyByPredicates : Prop :=
  ∀ s t : State, step s = .next t → t.pred ≠ s.pred →
    (∃ v i, s.inFlight = some v ∧ decode v = .ok i ∧ t.inFlight = none ∧
      ∃ a b, i = .feq a b ∨ i = .fisz a ∨ i = .fisone a) ∨
    (t.pred = false ∧ SameBlock { State.initial s.build with resetIn := t.resetIn } t)

/-- R46, R156, R159: while a command runs no host access changes its operands: after the access the command still runs on
the same registers and input buffers, or it has been aborted or reset. -/
def Obligations.OperandsHeldWhileRunning : Prop :=
  ∀ (s t : State) (v : Word64) (a : Access), s.inFlight = some v → hostDoes a s = .next t →
    (t.inFlight = some v ∧ t.f = s.f ∧ t.limbIn = s.limbIn ∧ t.hiIn = s.hiIn ∧ t.bytesIn = s.bytesIn ∧
      t.build = s.build) ∨ t.inFlight = none

/-- R40, R160: every command completes: however many times the host polls, the core's turn comes and BUSY returns to 0
(the turns are the model's choice, log 3, and so is that a value which is no command is in flight till then, log 16). -/
def Obligations.EveryCommandCompletes : Prop :=
  ∀ (s : State) (v : Word64) (polls : List Event), s.resetIn = false → s.inFlight = some v →
    (∀ e ∈ polls, isHostRead e = true) → s.script = polls →
    ∃ t, Host.Core.run Sys2Proof.core (polls.length + 1) s = .next t ∧ t.busy = false

/-- R157, R160, R165: how long a command takes, and what the host reads meanwhile, changes no result: after any reads the
command ends in the state it would have ended in at once, but for the answers given. The turns are the model's choice
(log 3), and so is that a fault leaves the same destination register and the same free values in both runs (log 6). -/
def Obligations.LatencyDoesNotChangeResult : Prop :=
  ∀ (s : State) (v : Word64) (polls rest : List Event), s.resetIn = false → s.inFlight = some v →
    (∀ e ∈ polls, isHostRead e = true) →
    ∃ t u, Host.Core.run Sys2Proof.core 1 { s with script := .core :: rest } = .next t ∧
      Host.Core.run Sys2Proof.core (polls.length + 1) { s with script := polls ++ .core :: rest } = .next u ∧
      u = { t with answers := u.answers }
end

