-- ==== Sys2Proof/Laws/Datapath.lean ====
section
/-! SUPPORT. What the datapath functions compute: one specification lemma for each function of Machine/Datapath.lean and
Machine/Flags.lean. A proof cites these and does not unfold the functions. -/

set_option Elab.async false
set_option exponentiation.threshold 1200

namespace Sys2Proof.Laws

open Sys2Proof.Machine

/-! ## Limbs -/

theorem limbListValue_limbList (v : Nat) (h : v < 2 ^ 280) : limbListValue (limbList v) = v := by
  simp only [limbList, limbListValue]
  omega

theorem length_limbList (v : Nat) : (limbList v).length = 5 := rfl

theorem limbList_lt (v x : Nat) (h : x ∈ limbList v) : x < 2 ^ 56 := by
  simp only [limbList, List.mem_cons, List.not_mem_nil, or_false] at h
  omega

theorem limbListValue_append (xs ys : List Nat) :
    limbListValue (xs ++ ys) = limbListValue xs + (2 ^ 56) ^ xs.length * limbListValue ys := by
  induction xs with
  | nil => simp [limbListValue]
  | cons x xs ih => simp only [List.cons_append, limbListValue, ih, List.length_cons, pow_succ]; ring

/-- Replacing one limb changes the value by that limb's difference at its place. -/
theorem limbListValue_set (l : List Nat) (n x : Nat) (h : n < l.length) :
    limbListValue (l.set n x) + l.getD n 0 * (2 ^ 56) ^ n = limbListValue l + x * (2 ^ 56) ^ n := by
  induction l generalizing n with
  | nil => simp at h
  | cons y l ih =>
    cases n with
    | zero => simp [limbListValue]; omega
    | succ n =>
      have := ih n (by simpa using h)
      simp only [List.set_cons_succ, limbListValue, List.getD_cons_succ, pow_succ]
      linear_combination 2 ^ 56 * this

theorem limbListValue_lt (l : List Nat) (h : ∀ x ∈ l, x < 2 ^ 56) : limbListValue l < (2 ^ 56) ^ l.length := by
  induction l with
  | nil => simp [limbListValue]
  | cons y l ih =>
    have h1 := ih fun x hx => h x (List.mem_cons_of_mem _ hx)
    have h2 := h y List.mem_cons_self
    simp only [limbListValue, List.length_cons, pow_succ _ l.length]
    omega

/-! ## Addition, subtraction, negation -/

theorem modAdd_eq (p x y : Nat) (hp : p < 2 ^ 279) (hx : x < p) (hy : y < p) : modAdd p x y = (x + y) % p := by
  have hs : (x + y) % 2 ^ 280 = x + y := Nat.mod_eq_of_lt (by omega)
  have hc : addCarry x y = 0 := Nat.div_eq_of_lt (by omega)
  simp only [modAdd, hs, hc, true_and]
  split
  · exact (Nat.mod_eq_of_lt ‹_›).symm
  · rw [Nat.mod_eq_sub_mod (by omega : p ≤ x + y), Nat.mod_eq_of_lt (by omega : x + y - p < p)]
    omega

theorem modSub_eq (p x y : Nat) (hp : p < 2 ^ 279) (hx : x < p) (hy : y < p) : modSub p x y = (x + p - y) % p := by
  unfold modSub
  by_cases h : x < y
  · have hb : subBorrow x y = 1 := if_pos h
    have h1 : (x + 2 ^ 280 - y) % 2 ^ 280 = x + 2 ^ 280 - y := Nat.mod_eq_of_lt (by omega)
    simp only [hb, h1, one_ne_zero, if_false]
    rw [Nat.mod_eq_of_lt (by omega : x + p - y < p)]
    omega
  · have hb : subBorrow x y = 0 := if_neg h
    simp only [hb, if_true]
    rw [show x + p - y = (x - y) + p by omega, Nat.add_mod_right, Nat.mod_eq_of_lt (by omega : x - y < p)]
    omega

theorem modNeg_eq (p x : Nat) (hx : x < p) : modNeg p x = (p - x) % p := by
  simp only [modNeg]
  split
  · simp_all
  · exact (Nat.mod_eq_of_lt (by omega)).symm

theorem wideMul_eq (x y : Nat) : (wideMul x y).1 + (wideMul x y).2 * 2 ^ 280 = x * y := by
  simp only [wideMul]
  omega

theorem wideMul_lo_lt (x y : Nat) : (wideMul x y).1 < 2 ^ 280 := Nat.mod_lt _ (by positivity)

theorem wideMul_hi_lt (p x y : Nat) (hx : x < 2 ^ 280) (hy : y < p) : (wideMul x y).2 < p := by
  simp only [wideMul]
  rw [Nat.div_lt_iff_lt_mul (by positivity)]
  nlinarith

/-! ## The constant P_INV -/

theorem inverseStep_spec (p x k m : Nat) (hm : m ≤ 2 * k) (hm56 : m ≤ 56) (h : (2 ^ k : ℤ) ∣ p * x - 1) :
    (2 ^ m : ℤ) ∣ p * inverseStep p x - 1 := by
  obtain ⟨r, hr⟩ : ∃ r, p * x = p * x % 2 ^ 56 + 2 ^ 56 * r := ⟨_, (Nat.mod_add_div _ _).symm⟩
  obtain ⟨q, hq⟩ : ∃ q, x * (2 ^ 56 + 2 - p * x % 2 ^ 56) = inverseStep p x + 2 ^ 56 * q :=
    ⟨_, (Nat.mod_add_div _ _).symm⟩
  have hlt : p * x % 2 ^ 56 ≤ 2 ^ 56 + 2 := by omega
  have hsq : (2 ^ m : ℤ) ∣ (p * x - 1) ^ 2 := by
    have h2 := pow_dvd_pow_of_dvd h 2
    rw [← pow_mul] at h2
    exact (pow_dvd_pow 2 (by omega)).trans h2
  have h56 : (2 ^ m : ℤ) ∣ 2 ^ 56 := pow_dvd_pow 2 hm56
  zify [hlt] at hr hq
  have key : (p : ℤ) * inverseStep p x - 1 = 2 ^ 56 * (p * x * (1 + r) - p * q) - (p * x - 1) ^ 2 := by
    generalize (p : ℤ) * x % 2 ^ 56 = w at hr hq
    linear_combination p * (-hq) + (p * x : ℤ) * hr
  rw [key]
  exact dvd_sub (h56.mul_right _) hsq

/-- `inverseMod56 p` is the inverse of an odd `p` modulo 2^56 (R9). -/
theorem inverseMod56_spec (p : Nat) (hodd : p % 2 = 1) : p * inverseMod56 p % 2 ^ 56 = 1 := by
  have h3 : (2 ^ 3 : ℤ) ∣ p * p - 1 := by
    have : p % 8 = 1 ∨ p % 8 = 3 ∨ p % 8 = 5 ∨ p % 8 = 7 := by omega
    have h8 : p * p % 8 = 1 := by
      rcases this with h | h | h | h <;> simp [Nat.mul_mod, h]
    omega
  have h := inverseStep_spec p _ 48 56 (by omega) (by omega) <|
    inverseStep_spec p _ 24 48 (by omega) (by omega) <|
    inverseStep_spec p _ 12 24 (by omega) (by omega) <|
    inverseStep_spec p _ 6 12 (by omega) (by omega) <|
    inverseStep_spec p _ 3 6 (by omega) (by omega) h3
  change (2 ^ 56 : ℤ) ∣ p * (inverseMod56 p : ℤ) - 1 at h
  omega

theorem montPInv_lt (p : Nat) : montPInv p < 2 ^ 56 := Nat.mod_lt _ (by positivity)

/-- `1 + p * P_INV` is a multiple of 2^56 for odd `p` (R9). -/
theorem dvd_one_add_mul_montPInv (p : Nat) (hodd : p % 2 = 1) : 2 ^ 56 ∣ 1 + p * montPInv p := by
  have h := inverseMod56_spec p hodd
  have hlt : inverseMod56 p < 2 ^ 56 := Nat.mod_lt _ (by positivity)
  have hne : inverseMod56 p ≠ 0 := by rintro h0; simp [h0] at h
  have he : montPInv p = 2 ^ 56 - inverseMod56 p := Nat.mod_eq_of_lt (by omega)
  have hmul : p * montPInv p + p * inverseMod56 p = p * 2 ^ 56 := by
    rw [he, ← Nat.mul_add, Nat.sub_add_cancel hlt.le]
  omega

/-! ## Montgomery reduction -/

/-- A limb replaced by the low part of a sum, its high part carried one place up. -/
theorem carry_up {B Bn b d lo hi v v' : Nat} (hset : v' + b * Bn = v + lo * Bn) (hdiv : lo + B * hi = b + d) :
    v' + hi * (Bn * B) = v + d * Bn := by
  linear_combination hset + Bn * hdiv

/-- One inner step of REDC keeps the value, up to `k * P[j]` at its place. -/
theorem redcInner_spec (pl : List Nat) (k i j : Nat) (bc : List Nat × Nat) (h : i + j < bc.1.length) :
    (redcInner pl k i bc j).1.length = bc.1.length ∧
    limbListValue (redcInner pl k i bc j).1 + (redcInner pl k i bc j).2 * (2 ^ 56) ^ (i + j + 1) =
      limbListValue bc.1 + (k * pl.getD j 0 + bc.2) * (2 ^ 56) ^ (i + j) ∧
    (∀ n, n ≠ i + j → (redcInner pl k i bc j).1.getD n 0 = bc.1.getD n 0) ∧
    (redcInner pl k i bc j).1.getD (i + j) 0 = (bc.1.getD (i + j) 0 + k * pl.getD j 0 + bc.2) % 2 ^ 56 := by
  refine ⟨by simp [redcInner], ?_, fun n hn => ?_, ?_⟩
  · rw [pow_succ _ (i + j)]
    exact carry_up (limbListValue_set bc.1 (i + j) _ h) ((Nat.mod_add_div _ _).trans (Nat.add_assoc _ _ _))
  · simp [redcInner, List.getD_eq_getElem?_getD, List.getElem?_set_ne (Ne.symm hn)]
  · simp [redcInner, List.getD_eq_getElem?_getD, h]

/-- Five rows of one inner pass, each carried one place up, add up. -/
theorem five_rows {B Bi k p0 p1 p2 p3 p4 v v0 v1 v2 v3 v4 c0 c1 c2 c3 c4 : Nat}
    (h0 : v0 + c0 * (Bi * B) = v + (k * p0 + 0) * Bi) (h1 : v1 + c1 * (Bi * B ^ 2) = v0 + (k * p1 + c0) * (Bi * B))
    (h2 : v2 + c2 * (Bi * B ^ 3) = v1 + (k * p2 + c1) * (Bi * B ^ 2))
    (h3 : v3 + c3 * (Bi * B ^ 4) = v2 + (k * p3 + c2) * (Bi * B ^ 3))
    (h4 : v4 + c4 * (Bi * B ^ 5) = v3 + (k * p4 + c3) * (Bi * B ^ 4)) :
    v4 + c4 * (Bi * B ^ 5) = v + k * (p0 + B * (p1 + B * (p2 + B * (p3 + B * (p4 + B * 0))))) * Bi := by
  linear_combination h0 + h1 + h2 + h3 + h4

/-- The five inner steps of REDC add `k * P` at place `i` (R112). -/
theorem redcInner_fold (p0 p1 p2 p3 p4 k i : Nat) (buf : List Nat) (hlen : buf.length = 10) (hi : i < 5) :
    let r := [0, 1, 2, 3, 4].foldl (redcInner [p0, p1, p2, p3, p4] k i) (buf, 0)
    r.1.length = 10 ∧
    limbListValue r.1 + r.2 * (2 ^ 56) ^ (i + 5) =
      limbListValue buf + k * limbListValue [p0, p1, p2, p3, p4] * (2 ^ 56) ^ i ∧
    (∀ n, n < i → r.1.getD n 0 = buf.getD n 0) ∧
    r.1.getD i 0 = (buf.getD i 0 + k * p0) % 2 ^ 56 := by
  obtain ⟨l0, v0, u0, e0⟩ := redcInner_spec [p0, p1, p2, p3, p4] k i 0 (buf, 0) (by simp [hlen]; omega)
  obtain ⟨l1, v1, u1, -⟩ := redcInner_spec [p0, p1, p2, p3, p4] k i 1 _ (by rw [l0, hlen]; omega)
  obtain ⟨l2, v2, u2, -⟩ := redcInner_spec [p0, p1, p2, p3, p4] k i 2 _ (by rw [l1, l0, hlen]; omega)
  obtain ⟨l3, v3, u3, -⟩ := redcInner_spec [p0, p1, p2, p3, p4] k i 3 _ (by rw [l2, l1, l0, hlen]; omega)
  obtain ⟨l4, v4, u4, -⟩ := redcInner_spec [p0, p1, p2, p3, p4] k i 4 _ (by rw [l3, l2, l1, l0, hlen]; omega)
  refine ⟨by simp only [List.foldl]; rw [l4, l3, l2, l1, l0, hlen], ?_, fun n hn => ?_, ?_⟩
  · simp only [List.foldl]
    simp only [List.getD_cons_zero, List.getD_cons_succ, Nat.add_zero, pow_add _ i, pow_one, Nat.add_assoc,
      Nat.reduceAdd] at v0 v1 v2 v3 v4 ⊢
    exact five_rows v0 v1 v2 v3 v4
  · simp only [List.foldl]
    rw [u4 n (by omega), u3 n (by omega), u2 n (by omega), u1 n (by omega), u0 n (by omega)]
  · simp only [List.foldl]
    rw [u4 i (by omega), u3 i (by omega), u2 i (by omega), u1 i (by omega)]
    simpa using e0

/-- The digit `k` REDC computes from limb `i` of the buffer clears that limb (R112). -/
theorem redc_digit_clears (p b : Nat) (hodd : p % 2 = 1) :
    (b + b * montPInv p % 2 ^ 56 * (p % 2 ^ 56)) % 2 ^ 56 = 0 := by
  obtain ⟨q, hq⟩ := dvd_one_add_mul_montPInv p hodd
  have h : (b + b * montPInv p * p) % 2 ^ 56 = 0 := by
    rw [show b + b * montPInv p * p = b * (1 + p * montPInv p) by ring, hq]
    exact Nat.mod_eq_zero_of_dvd (dvd_mul_of_dvd_right (dvd_mul_right _ _) _)
  rw [Nat.add_mod, ← Nat.mul_mod] 
  rw [← Nat.add_mod, h]

/-- The digit `k` of the outer step `i` of REDC on the buffer `buf` (R112). -/
def digitAt (p i : Nat) (buf : List Nat) : Nat := buf.getD i 0 * montPInv p % 2 ^ 56

theorem digitAt_lt (p i : Nat) (buf : List Nat) : digitAt p i buf < 2 ^ 56 := Nat.mod_lt _ (by positivity)

/-- One outer step of REDC keeps the value of buffer and second carry, up to `k * p` at place `i`; it clears limb `i` and
leaves the limbs below alone (R112). -/
theorem redcOuter_spec (p i : Nat) (bc : List Nat × Nat) (hodd : p % 2 = 1) (hp : p < 2 ^ 280)
    (hlen : bc.1.length = 10) (hi : i < 5) :
    ∃ k, k = digitAt p i bc.1 ∧ k < 2 ^ 56 ∧
    (redcOuter p (montPInv p) bc i).1.length = 10 ∧
    limbListValue (redcOuter p (montPInv p) bc i).1 + (redcOuter p (montPInv p) bc i).2 * (2 ^ 56) ^ (i + 6) =
      limbListValue bc.1 + bc.2 * (2 ^ 56) ^ (i + 5) + k * p * (2 ^ 56) ^ i ∧
    (∀ n, n < i → (redcOuter p (montPInv p) bc i).1.getD n 0 = bc.1.getD n 0) ∧
    (redcOuter p (montPInv p) bc i).1.getD i 0 = 0 := by
  have hpv := limbListValue_limbList p hp
  have hfold := redcInner_fold (p % 2 ^ 56) (p / 2 ^ 56 % 2 ^ 56) (p / 2 ^ 112 % 2 ^ 56) (p / 2 ^ 168 % 2 ^ 56)
    (p / 2 ^ 224 % 2 ^ 56) (digitAt p i bc.1) i bc.1 hlen hi
  change limbListValue [_, _, _, _, _] = p at hpv
  simp only [hpv] at hfold
  obtain ⟨hl, hv, hu, hz⟩ := hfold
  refine ⟨_, rfl, digitAt_lt _ _ _, by simp only [redcOuter, List.length_set]; exact hl, ?_, fun n hn => ?_, ?_⟩
  · rw [show i + 6 = (i + 5) + 1 from rfl, pow_succ _ (i + 5)]
    have hset := limbListValue_set _ (i + 5) ((([0, 1, 2, 3, 4].foldl (redcInner (limbList p) (digitAt p i bc.1) i)
      (bc.1, 0)).1.getD (i + 5) 0 + ([0, 1, 2, 3, 4].foldl (redcInner (limbList p) (digitAt p i bc.1) i) (bc.1, 0)).2 +
      bc.2) % 2 ^ 56) (hl.symm ▸ (by omega : i + 5 < 10))
    have h := carry_up hset ((Nat.mod_add_div _ _).trans (Nat.add_assoc _ _ _))
    refine h.trans ?_
    change _ = _ at hv
    rw [Nat.add_mul, ← Nat.add_assoc]
    refine (congrArg (· + _) hv).trans ?_
    ring
  · simp only [redcOuter]
    rw [List.getD_eq_getElem?_getD, List.getElem?_set_ne (by omega), ← List.getD_eq_getElem?_getD]
    exact hu n hn
  · simp only [redcOuter]
    rw [List.getD_eq_getElem?_getD, List.getElem?_set_ne (by omega), ← List.getD_eq_getElem?_getD]
    exact hz.trans (redc_digit_clears p _ hodd)

/-- A ten-limb list whose low five limbs are 0 holds `2^280` times the value of its upper five. -/
theorem limbListValue_of_low_zero (l : List Nat) (hlen : l.length = 10) (h : ∀ n < 5, l.getD n 0 = 0) :
    limbListValue l = 2 ^ 280 * limbListValue (l.drop 5) := by
  match l, hlen with
  | [a0, a1, a2, a3, a4, b0, b1, b2, b3, b4], _ =>
    have h0 : a0 = 0 := h 0 (by omega)
    have h1 : a1 = 0 := h 1 (by omega)
    have h2 : a2 = 0 := h 2 (by omega)
    have h3 : a3 = 0 := h 3 (by omega)
    have h4 : a4 = 0 := h 4 (by omega)
    subst h0 h1 h2 h3 h4
    simp only [List.drop_succ_cons, List.drop_zero, limbListValue]
    ring

/-- Five outer passes, each with its second carry, add up. -/
theorem five_passes {B v v0 v1 v2 v3 v4 c0 c1 c2 c3 c4 k0 k1 k2 k3 k4 p : Nat}
    (h0 : v0 + c0 * B ^ 6 = v + 0 * B ^ 5 + k0 * p * B ^ 0) (h1 : v1 + c1 * B ^ 7 = v0 + c0 * B ^ 6 + k1 * p * B ^ 1)
    (h2 : v2 + c2 * B ^ 8 = v1 + c1 * B ^ 7 + k2 * p * B ^ 2) (h3 : v3 + c3 * B ^ 9 = v2 + c2 * B ^ 8 + k3 * p * B ^ 3)
    (h4 : v4 + c4 * B ^ 10 = v3 + c3 * B ^ 9 + k4 * p * B ^ 4) :
    v4 + c4 * B ^ 10 = v + (k0 + B * (k1 + B * (k2 + B * (k3 + B * (k4 + B * 0))))) * p := by
  linear_combination h0 + h1 + h2 + h3 + h4

/-- The number whose limbs are the digits `k` of the five iterations of REDC (R113 (a)). -/
def redcFactor (p lo hi : Nat) : Nat :=
  redcDigit p lo hi 0 + redcDigit p lo hi 1 * 2 ^ 56 + redcDigit p lo hi 2 * 2 ^ 112 +
    redcDigit p lo hi 3 * 2 ^ 168 + redcDigit p lo hi 4 * 2 ^ 224

/-- The upper half of the buffer after the five steps is `(T + K*p) / 2^280`, `K` being made of the digits (R113 (b)). -/
theorem redcUpper_spec (p lo hi : Nat) (hodd : p % 2 = 1) (hp : p < 2 ^ 280) (hlo : lo < 2 ^ 280) (hhi : hi < 2 ^ 280) :
    redcFactor p lo hi < 2 ^ 280 ∧ redcUpper p lo hi * 2 ^ 280 = lo + hi * 2 ^ 280 + redcFactor p lo hi * p := by
  have hv : limbListValue (limbList lo ++ limbList hi) = lo + hi * 2 ^ 280 := by
    rw [limbListValue_append, limbListValue_limbList lo hlo, limbListValue_limbList hi hhi, length_limbList, ← pow_mul,
      Nat.mul_comm hi]
  obtain ⟨k0, e0, d0, l0, v0, -, z0⟩ := redcOuter_spec p 0 (limbList lo ++ limbList hi, 0) hodd hp rfl (by omega)
  obtain ⟨k1, e1, d1, l1, v1, u1, z1⟩ := redcOuter_spec p 1 _ hodd hp l0 (by omega)
  obtain ⟨k2, e2, d2, l2, v2, u2, z2⟩ := redcOuter_spec p 2 _ hodd hp l1 (by omega)
  obtain ⟨k3, e3, d3, l3, v3, u3, z3⟩ := redcOuter_spec p 3 _ hodd hp l2 (by omega)
  obtain ⟨k4, e4, d4, l4, v4, u4, z4⟩ := redcOuter_spec p 4 _ hodd hp l3 (by omega)
  have hsum := five_passes v0 v1 v2 v3 v4
  have hlow := limbListValue_of_low_zero _ l4 fun n hn => by
    have : n = 0 ∨ n = 1 ∨ n = 2 ∨ n = 3 ∨ n = 4 := by omega
    rcases this with rfl | rfl | rfl | rfl | rfl
    · rw [u4 0 (by omega), u3 0 (by omega), u2 0 (by omega), u1 0 (by omega), z0]
    · rw [u4 1 (by omega), u3 1 (by omega), u2 1 (by omega), z1]
    · rw [u4 2 (by omega), u3 2 (by omega), z2]
    · rw [u4 3 (by omega), z3]
    · exact z4
  have hK : redcFactor p lo hi = k0 + 2 ^ 56 * (k1 + 2 ^ 56 * (k2 + 2 ^ 56 * (k3 + 2 ^ 56 * (k4 + 2 ^ 56 * 0)))) := by
    have f0 : redcDigit p lo hi 0 = k0 := e0.symm
    have f1 : redcDigit p lo hi 1 = k1 := e1.symm
    have f2 : redcDigit p lo hi 2 = k2 := e2.symm
    have f3 : redcDigit p lo hi 3 = k3 := e3.symm
    have f4 : redcDigit p lo hi 4 = k4 := e4.symm
    rw [redcFactor, f0, f1, f2, f3, f4]
    ring
  rw [hK]
  refine ⟨by omega, ?_⟩
  rw [hlow, hv, show ((2 ^ 56) ^ 10 : Nat) = 2 ^ 280 * 2 ^ 280 by rw [← pow_mul, ← pow_add]] at hsum
  rw [← hsum]
  change (_ + _ * 2 ^ 280) * 2 ^ 280 = 2 ^ 280 * _ + _ * (2 ^ 280 * 2 ^ 280)
  rw [Nat.add_mul, Nat.mul_comm (2 ^ 280), Nat.mul_assoc]
  rfl

/-- REDC answers the canonical residue of `T * 2^-280` (R113 (d)), for `hi < p`. -/
theorem redc_spec (p lo hi : Nat) (hodd : p % 2 = 1) (hp : p < 2 ^ 280) (hlo : lo < 2 ^ 280) (hhi : hi < p) :
    redc p lo hi < p ∧ redc p lo hi * 2 ^ 280 ≡ lo + hi * 2 ^ 280 [MOD p] := by
  obtain ⟨hK, hu⟩ := redcUpper_spec p lo hi hodd hp hlo (by omega)
  have hKp : redcFactor p lo hi * p ≤ (2 ^ 280 - 1) * p := Nat.mul_le_mul_right _ (by omega)
  have hmod : redcUpper p lo hi * 2 ^ 280 ≡ lo + hi * 2 ^ 280 [MOD p] := by
    rw [hu]
    simp [Nat.ModEq]
  unfold redc
  split
  · refine ⟨by omega, ?_⟩
    have hle : p ≤ redcUpper p lo hi := ‹_›
    refine Nat.ModEq.trans ?_ hmod
    obtain ⟨r, hr⟩ := Nat.exists_eq_add_of_le hle
    rw [hr]
    simp [Nat.ModEq, Nat.add_mul]
  · exact ⟨by omega, hmod⟩

end Sys2Proof.Laws
end

