-- ==== Sys2Proof/Laws/State.lean ====
section
/-! SUPPORT. One lemma for each field of the state and each update of it: what the update leaves in the field. All hold by
unfolding the update. -/

set_option Elab.async false

namespace Sys2Proof.Machine

@[simp] theorem State.putF_build (s : State) (d : FReg) (v : Word) :
    (s.putF d v).build = s.build := rfl
@[simp] theorem State.putF_f (s : State) (d : FReg) (v : Word) :
    (s.putF d v).f = s.f.set d.val (some v) := rfl
@[simp] theorem State.putF_limbIn (s : State) (d : FReg) (v : Word) :
    (s.putF d v).limbIn = s.limbIn := rfl
@[simp] theorem State.putF_hiIn (s : State) (d : FReg) (v : Word) :
    (s.putF d v).hiIn = s.hiIn := rfl
@[simp] theorem State.putF_bytesIn (s : State) (d : FReg) (v : Word) :
    (s.putF d v).bytesIn = s.bytesIn := rfl
@[simp] theorem State.putF_limbOut (s : State) (d : FReg) (v : Word) :
    (s.putF d v).limbOut = s.limbOut := rfl
@[simp] theorem State.putF_hiOut (s : State) (d : FReg) (v : Word) :
    (s.putF d v).hiOut = s.hiOut := rfl
@[simp] theorem State.putF_bytesOut (s : State) (d : FReg) (v : Word) :
    (s.putF d v).bytesOut = s.bytesOut := rfl
@[simp] theorem State.putF_pred (s : State) (d : FReg) (v : Word) :
    (s.putF d v).pred = s.pred := rfl
@[simp] theorem State.putF_fault (s : State) (d : FReg) (v : Word) :
    (s.putF d v).fault = s.fault := rfl
@[simp] theorem State.putF_fcode (s : State) (d : FReg) (v : Word) :
    (s.putF d v).fcode = s.fcode := rfl
@[simp] theorem State.putF_finfo (s : State) (d : FReg) (v : Word) :
    (s.putF d v).finfo = s.finfo := rfl
@[simp] theorem State.putF_inFlight (s : State) (d : FReg) (v : Word) :
    (s.putF d v).inFlight = s.inFlight := rfl
@[simp] theorem State.putF_resetIn (s : State) (d : FReg) (v : Word) :
    (s.putF d v).resetIn = s.resetIn := rfl
@[simp] theorem State.putF_script (s : State) (d : FReg) (v : Word) :
    (s.putF d v).script = s.script := rfl
@[simp] theorem State.putF_answers (s : State) (d : FReg) (v : Word) :
    (s.putF d v).answers = s.answers := rfl
@[simp] theorem State.putF_draws (s : State) (d : FReg) (v : Word) :
    (s.putF d v).draws = s.draws := rfl

@[simp] theorem State.putLimbOut_build (s : State) (v : Nat) :
    (s.putLimbOut v).build = s.build := rfl
@[simp] theorem State.putLimbOut_f (s : State) (v : Nat) :
    (s.putLimbOut v).f = s.f := rfl
@[simp] theorem State.putLimbOut_limbIn (s : State) (v : Nat) :
    (s.putLimbOut v).limbIn = s.limbIn := rfl
@[simp] theorem State.putLimbOut_hiIn (s : State) (v : Nat) :
    (s.putLimbOut v).hiIn = s.hiIn := rfl
@[simp] theorem State.putLimbOut_bytesIn (s : State) (v : Nat) :
    (s.putLimbOut v).bytesIn = s.bytesIn := rfl
@[simp] theorem State.putLimbOut_limbOut (s : State) (v : Nat) :
    (s.putLimbOut v).limbOut = natToLimbs v := rfl
@[simp] theorem State.putLimbOut_hiOut (s : State) (v : Nat) :
    (s.putLimbOut v).hiOut = s.hiOut := rfl
@[simp] theorem State.putLimbOut_bytesOut (s : State) (v : Nat) :
    (s.putLimbOut v).bytesOut = s.bytesOut := rfl
@[simp] theorem State.putLimbOut_pred (s : State) (v : Nat) :
    (s.putLimbOut v).pred = s.pred := rfl
@[simp] theorem State.putLimbOut_fault (s : State) (v : Nat) :
    (s.putLimbOut v).fault = s.fault := rfl
@[simp] theorem State.putLimbOut_fcode (s : State) (v : Nat) :
    (s.putLimbOut v).fcode = s.fcode := rfl
@[simp] theorem State.putLimbOut_finfo (s : State) (v : Nat) :
    (s.putLimbOut v).finfo = s.finfo := rfl
@[simp] theorem State.putLimbOut_inFlight (s : State) (v : Nat) :
    (s.putLimbOut v).inFlight = s.inFlight := rfl
@[simp] theorem State.putLimbOut_resetIn (s : State) (v : Nat) :
    (s.putLimbOut v).resetIn = s.resetIn := rfl
@[simp] theorem State.putLimbOut_script (s : State) (v : Nat) :
    (s.putLimbOut v).script = s.script := rfl
@[simp] theorem State.putLimbOut_answers (s : State) (v : Nat) :
    (s.putLimbOut v).answers = s.answers := rfl
@[simp] theorem State.putLimbOut_draws (s : State) (v : Nat) :
    (s.putLimbOut v).draws = s.draws := rfl

@[simp] theorem State.putHiOut_build (s : State) (v : Nat) :
    (s.putHiOut v).build = s.build := rfl
@[simp] theorem State.putHiOut_f (s : State) (v : Nat) :
    (s.putHiOut v).f = s.f := rfl
@[simp] theorem State.putHiOut_limbIn (s : State) (v : Nat) :
    (s.putHiOut v).limbIn = s.limbIn := rfl
@[simp] theorem State.putHiOut_hiIn (s : State) (v : Nat) :
    (s.putHiOut v).hiIn = s.hiIn := rfl
@[simp] theorem State.putHiOut_bytesIn (s : State) (v : Nat) :
    (s.putHiOut v).bytesIn = s.bytesIn := rfl
@[simp] theorem State.putHiOut_limbOut (s : State) (v : Nat) :
    (s.putHiOut v).limbOut = s.limbOut := rfl
@[simp] theorem State.putHiOut_hiOut (s : State) (v : Nat) :
    (s.putHiOut v).hiOut = natToLimbs v := rfl
@[simp] theorem State.putHiOut_bytesOut (s : State) (v : Nat) :
    (s.putHiOut v).bytesOut = s.bytesOut := rfl
@[simp] theorem State.putHiOut_pred (s : State) (v : Nat) :
    (s.putHiOut v).pred = s.pred := rfl
@[simp] theorem State.putHiOut_fault (s : State) (v : Nat) :
    (s.putHiOut v).fault = s.fault := rfl
@[simp] theorem State.putHiOut_fcode (s : State) (v : Nat) :
    (s.putHiOut v).fcode = s.fcode := rfl
@[simp] theorem State.putHiOut_finfo (s : State) (v : Nat) :
    (s.putHiOut v).finfo = s.finfo := rfl
@[simp] theorem State.putHiOut_inFlight (s : State) (v : Nat) :
    (s.putHiOut v).inFlight = s.inFlight := rfl
@[simp] theorem State.putHiOut_resetIn (s : State) (v : Nat) :
    (s.putHiOut v).resetIn = s.resetIn := rfl
@[simp] theorem State.putHiOut_script (s : State) (v : Nat) :
    (s.putHiOut v).script = s.script := rfl
@[simp] theorem State.putHiOut_answers (s : State) (v : Nat) :
    (s.putHiOut v).answers = s.answers := rfl
@[simp] theorem State.putHiOut_draws (s : State) (v : Nat) :
    (s.putHiOut v).draws = s.draws := rfl

@[simp] theorem State.putBytesOut_build (s : State) (b : ByteBuf) :
    (s.putBytesOut b).build = s.build := rfl
@[simp] theorem State.putBytesOut_f (s : State) (b : ByteBuf) :
    (s.putBytesOut b).f = s.f := rfl
@[simp] theorem State.putBytesOut_limbIn (s : State) (b : ByteBuf) :
    (s.putBytesOut b).limbIn = s.limbIn := rfl
@[simp] theorem State.putBytesOut_hiIn (s : State) (b : ByteBuf) :
    (s.putBytesOut b).hiIn = s.hiIn := rfl
@[simp] theorem State.putBytesOut_bytesIn (s : State) (b : ByteBuf) :
    (s.putBytesOut b).bytesIn = s.bytesIn := rfl
@[simp] theorem State.putBytesOut_limbOut (s : State) (b : ByteBuf) :
    (s.putBytesOut b).limbOut = s.limbOut := rfl
@[simp] theorem State.putBytesOut_hiOut (s : State) (b : ByteBuf) :
    (s.putBytesOut b).hiOut = s.hiOut := rfl
@[simp] theorem State.putBytesOut_bytesOut (s : State) (b : ByteBuf) :
    (s.putBytesOut b).bytesOut = b := rfl
@[simp] theorem State.putBytesOut_pred (s : State) (b : ByteBuf) :
    (s.putBytesOut b).pred = s.pred := rfl
@[simp] theorem State.putBytesOut_fault (s : State) (b : ByteBuf) :
    (s.putBytesOut b).fault = s.fault := rfl
@[simp] theorem State.putBytesOut_fcode (s : State) (b : ByteBuf) :
    (s.putBytesOut b).fcode = s.fcode := rfl
@[simp] theorem State.putBytesOut_finfo (s : State) (b : ByteBuf) :
    (s.putBytesOut b).finfo = s.finfo := rfl
@[simp] theorem State.putBytesOut_inFlight (s : State) (b : ByteBuf) :
    (s.putBytesOut b).inFlight = s.inFlight := rfl
@[simp] theorem State.putBytesOut_resetIn (s : State) (b : ByteBuf) :
    (s.putBytesOut b).resetIn = s.resetIn := rfl
@[simp] theorem State.putBytesOut_script (s : State) (b : ByteBuf) :
    (s.putBytesOut b).script = s.script := rfl
@[simp] theorem State.putBytesOut_answers (s : State) (b : ByteBuf) :
    (s.putBytesOut b).answers = s.answers := rfl
@[simp] theorem State.putBytesOut_draws (s : State) (b : ByteBuf) :
    (s.putBytesOut b).draws = s.draws := rfl

@[simp] theorem State.putPred_build (s : State) (b : Bool) :
    (s.putPred b).build = s.build := rfl
@[simp] theorem State.putPred_f (s : State) (b : Bool) :
    (s.putPred b).f = s.f := rfl
@[simp] theorem State.putPred_limbIn (s : State) (b : Bool) :
    (s.putPred b).limbIn = s.limbIn := rfl
@[simp] theorem State.putPred_hiIn (s : State) (b : Bool) :
    (s.putPred b).hiIn = s.hiIn := rfl
@[simp] theorem State.putPred_bytesIn (s : State) (b : Bool) :
    (s.putPred b).bytesIn = s.bytesIn := rfl
@[simp] theorem State.putPred_limbOut (s : State) (b : Bool) :
    (s.putPred b).limbOut = s.limbOut := rfl
@[simp] theorem State.putPred_hiOut (s : State) (b : Bool) :
    (s.putPred b).hiOut = s.hiOut := rfl
@[simp] theorem State.putPred_bytesOut (s : State) (b : Bool) :
    (s.putPred b).bytesOut = s.bytesOut := rfl
@[simp] theorem State.putPred_pred (s : State) (b : Bool) :
    (s.putPred b).pred = b := rfl
@[simp] theorem State.putPred_fault (s : State) (b : Bool) :
    (s.putPred b).fault = s.fault := rfl
@[simp] theorem State.putPred_fcode (s : State) (b : Bool) :
    (s.putPred b).fcode = s.fcode := rfl
@[simp] theorem State.putPred_finfo (s : State) (b : Bool) :
    (s.putPred b).finfo = s.finfo := rfl
@[simp] theorem State.putPred_inFlight (s : State) (b : Bool) :
    (s.putPred b).inFlight = s.inFlight := rfl
@[simp] theorem State.putPred_resetIn (s : State) (b : Bool) :
    (s.putPred b).resetIn = s.resetIn := rfl
@[simp] theorem State.putPred_script (s : State) (b : Bool) :
    (s.putPred b).script = s.script := rfl
@[simp] theorem State.putPred_answers (s : State) (b : Bool) :
    (s.putPred b).answers = s.answers := rfl
@[simp] theorem State.putPred_draws (s : State) (b : Bool) :
    (s.putPred b).draws = s.draws := rfl

@[simp] theorem State.done_build (s : State) :
    s.done.build = s.build := rfl
@[simp] theorem State.done_f (s : State) :
    s.done.f = s.f := rfl
@[simp] theorem State.done_limbIn (s : State) :
    s.done.limbIn = s.limbIn := rfl
@[simp] theorem State.done_hiIn (s : State) :
    s.done.hiIn = s.hiIn := rfl
@[simp] theorem State.done_bytesIn (s : State) :
    s.done.bytesIn = s.bytesIn := rfl
@[simp] theorem State.done_limbOut (s : State) :
    s.done.limbOut = s.limbOut := rfl
@[simp] theorem State.done_hiOut (s : State) :
    s.done.hiOut = s.hiOut := rfl
@[simp] theorem State.done_bytesOut (s : State) :
    s.done.bytesOut = s.bytesOut := rfl
@[simp] theorem State.done_pred (s : State) :
    s.done.pred = s.pred := rfl
@[simp] theorem State.done_fault (s : State) :
    s.done.fault = s.fault := rfl
@[simp] theorem State.done_fcode (s : State) :
    s.done.fcode = s.fcode := rfl
@[simp] theorem State.done_finfo (s : State) :
    s.done.finfo = s.finfo := rfl
@[simp] theorem State.done_inFlight (s : State) :
    s.done.inFlight = none := rfl
@[simp] theorem State.done_resetIn (s : State) :
    s.done.resetIn = s.resetIn := rfl
@[simp] theorem State.done_script (s : State) :
    s.done.script = s.script := rfl
@[simp] theorem State.done_answers (s : State) :
    s.done.answers = s.answers := rfl
@[simp] theorem State.done_draws (s : State) :
    s.done.draws = s.draws := rfl

@[simp] theorem State.raise_build (s : State) (c : FaultCode) (i : Word64) :
    (s.raise c i).build = s.build := rfl
@[simp] theorem State.raise_f (s : State) (c : FaultCode) (i : Word64) :
    (s.raise c i).f = s.f := rfl
@[simp] theorem State.raise_limbIn (s : State) (c : FaultCode) (i : Word64) :
    (s.raise c i).limbIn = s.limbIn := rfl
@[simp] theorem State.raise_hiIn (s : State) (c : FaultCode) (i : Word64) :
    (s.raise c i).hiIn = s.hiIn := rfl
@[simp] theorem State.raise_bytesIn (s : State) (c : FaultCode) (i : Word64) :
    (s.raise c i).bytesIn = s.bytesIn := rfl
@[simp] theorem State.raise_limbOut (s : State) (c : FaultCode) (i : Word64) :
    (s.raise c i).limbOut = s.limbOut := rfl
@[simp] theorem State.raise_hiOut (s : State) (c : FaultCode) (i : Word64) :
    (s.raise c i).hiOut = s.hiOut := rfl
@[simp] theorem State.raise_bytesOut (s : State) (c : FaultCode) (i : Word64) :
    (s.raise c i).bytesOut = s.bytesOut := rfl
@[simp] theorem State.raise_pred (s : State) (c : FaultCode) (i : Word64) :
    (s.raise c i).pred = s.pred := rfl
@[simp] theorem State.raise_fault (s : State) (c : FaultCode) (i : Word64) :
    (s.raise c i).fault = true := rfl
@[simp] theorem State.raise_fcode (s : State) (c : FaultCode) (i : Word64) :
    (s.raise c i).fcode = if s.fault then s.fcode else c.byte := rfl
@[simp] theorem State.raise_finfo (s : State) (c : FaultCode) (i : Word64) :
    (s.raise c i).finfo = if s.fault then s.finfo else i := rfl
@[simp] theorem State.raise_inFlight (s : State) (c : FaultCode) (i : Word64) :
    (s.raise c i).inFlight = none := rfl
@[simp] theorem State.raise_resetIn (s : State) (c : FaultCode) (i : Word64) :
    (s.raise c i).resetIn = s.resetIn := rfl
@[simp] theorem State.raise_script (s : State) (c : FaultCode) (i : Word64) :
    (s.raise c i).script = s.script := rfl
@[simp] theorem State.raise_answers (s : State) (c : FaultCode) (i : Word64) :
    (s.raise c i).answers = s.answers := rfl
@[simp] theorem State.raise_draws (s : State) (c : FaultCode) (i : Word64) :
    (s.raise c i).draws = s.draws := rfl

@[simp] theorem State.answer_build (s : State) (a : Answer) :
    (s.answer a).build = s.build := rfl
@[simp] theorem State.answer_f (s : State) (a : Answer) :
    (s.answer a).f = s.f := rfl
@[simp] theorem State.answer_limbIn (s : State) (a : Answer) :
    (s.answer a).limbIn = s.limbIn := rfl
@[simp] theorem State.answer_hiIn (s : State) (a : Answer) :
    (s.answer a).hiIn = s.hiIn := rfl
@[simp] theorem State.answer_bytesIn (s : State) (a : Answer) :
    (s.answer a).bytesIn = s.bytesIn := rfl
@[simp] theorem State.answer_limbOut (s : State) (a : Answer) :
    (s.answer a).limbOut = s.limbOut := rfl
@[simp] theorem State.answer_hiOut (s : State) (a : Answer) :
    (s.answer a).hiOut = s.hiOut := rfl
@[simp] theorem State.answer_bytesOut (s : State) (a : Answer) :
    (s.answer a).bytesOut = s.bytesOut := rfl
@[simp] theorem State.answer_pred (s : State) (a : Answer) :
    (s.answer a).pred = s.pred := rfl
@[simp] theorem State.answer_fault (s : State) (a : Answer) :
    (s.answer a).fault = s.fault := rfl
@[simp] theorem State.answer_fcode (s : State) (a : Answer) :
    (s.answer a).fcode = s.fcode := rfl
@[simp] theorem State.answer_finfo (s : State) (a : Answer) :
    (s.answer a).finfo = s.finfo := rfl
@[simp] theorem State.answer_inFlight (s : State) (a : Answer) :
    (s.answer a).inFlight = s.inFlight := rfl
@[simp] theorem State.answer_resetIn (s : State) (a : Answer) :
    (s.answer a).resetIn = s.resetIn := rfl
@[simp] theorem State.answer_script (s : State) (a : Answer) :
    (s.answer a).script = s.script := rfl
@[simp] theorem State.answer_answers (s : State) (a : Answer) :
    (s.answer a).answers = s.answers ++ [a] := rfl
@[simp] theorem State.answer_draws (s : State) (a : Answer) :
    (s.answer a).draws = s.draws := rfl

@[simp] theorem State.clear_build (s : State) :
    s.clear.build = s.build := rfl
@[simp] theorem State.clear_f (s : State) :
    s.clear.f = (State.initial s.build).f := rfl
@[simp] theorem State.clear_limbIn (s : State) :
    s.clear.limbIn = (State.initial s.build).limbIn := rfl
@[simp] theorem State.clear_hiIn (s : State) :
    s.clear.hiIn = (State.initial s.build).hiIn := rfl
@[simp] theorem State.clear_bytesIn (s : State) :
    s.clear.bytesIn = (State.initial s.build).bytesIn := rfl
@[simp] theorem State.clear_limbOut (s : State) :
    s.clear.limbOut = (State.initial s.build).limbOut := rfl
@[simp] theorem State.clear_hiOut (s : State) :
    s.clear.hiOut = (State.initial s.build).hiOut := rfl
@[simp] theorem State.clear_bytesOut (s : State) :
    s.clear.bytesOut = (State.initial s.build).bytesOut := rfl
@[simp] theorem State.clear_pred (s : State) :
    s.clear.pred = (State.initial s.build).pred := rfl
@[simp] theorem State.clear_fault (s : State) :
    s.clear.fault = (State.initial s.build).fault := rfl
@[simp] theorem State.clear_fcode (s : State) :
    s.clear.fcode = (State.initial s.build).fcode := rfl
@[simp] theorem State.clear_finfo (s : State) :
    s.clear.finfo = (State.initial s.build).finfo := rfl
@[simp] theorem State.clear_inFlight (s : State) :
    s.clear.inFlight = (State.initial s.build).inFlight := rfl
@[simp] theorem State.clear_resetIn (s : State) :
    s.clear.resetIn = s.resetIn := rfl
@[simp] theorem State.clear_script (s : State) :
    s.clear.script = s.script := rfl
@[simp] theorem State.clear_answers (s : State) :
    s.clear.answers = s.answers := rfl
@[simp] theorem State.clear_draws (s : State) :
    s.clear.draws = s.draws := rfl

@[simp] theorem State.spoil_build (s : State) (o : Output) : (s.spoil o).build = s.build := by
  cases o <;> rfl
@[simp] theorem State.spoil_f (s : State) (o : Output) : (s.spoil o).f = s.f := by
  cases o <;> rfl
@[simp] theorem State.spoil_limbIn (s : State) (o : Output) : (s.spoil o).limbIn = s.limbIn := by
  cases o <;> rfl
@[simp] theorem State.spoil_hiIn (s : State) (o : Output) : (s.spoil o).hiIn = s.hiIn := by
  cases o <;> rfl
@[simp] theorem State.spoil_bytesIn (s : State) (o : Output) : (s.spoil o).bytesIn = s.bytesIn := by
  cases o <;> rfl
@[simp] theorem State.spoil_fault (s : State) (o : Output) : (s.spoil o).fault = s.fault := by
  cases o <;> rfl
@[simp] theorem State.spoil_fcode (s : State) (o : Output) : (s.spoil o).fcode = s.fcode := by
  cases o <;> rfl
@[simp] theorem State.spoil_finfo (s : State) (o : Output) : (s.spoil o).finfo = s.finfo := by
  cases o <;> rfl
@[simp] theorem State.spoil_inFlight (s : State) (o : Output) : (s.spoil o).inFlight = s.inFlight := by
  cases o <;> rfl
@[simp] theorem State.spoil_resetIn (s : State) (o : Output) : (s.spoil o).resetIn = s.resetIn := by
  cases o <;> rfl
@[simp] theorem State.spoil_script (s : State) (o : Output) : (s.spoil o).script = s.script := by
  cases o <;> rfl
@[simp] theorem State.spoil_answers (s : State) (o : Output) : (s.spoil o).answers = s.answers := by
  cases o <;> rfl

@[simp] theorem State.spoil_limbOut (s : State) (o : Output) : (s.spoil o).limbOut =
    if o = .limbs ∨ o = .wide then freeLimbs s.draws else s.limbOut := by
  cases o <;> simp [State.spoil]
@[simp] theorem State.spoil_hiOut (s : State) (o : Output) : (s.spoil o).hiOut =
    if o = .wide then freeLimbs (s.draws + 5) else s.hiOut := by
  cases o <;> simp [State.spoil]
@[simp] theorem State.spoil_bytesOut (s : State) (o : Output) : (s.spoil o).bytesOut =
    if o = .bytes then freeBytes s.draws else s.bytesOut := by
  cases o <;> simp [State.spoil]
@[simp] theorem State.spoil_pred (s : State) (o : Output) : (s.spoil o).pred =
    if o = .pred then freeBit s.draws else s.pred := by
  cases o <;> simp [State.spoil]

@[simp] theorem State.fail_build (s : State) (i : Instr) (c : FaultCode) :
    (s.fail i c).build = s.build := by
  simp [State.fail]
@[simp] theorem State.fail_f (s : State) (i : Instr) (c : FaultCode) :
    (s.fail i c).f = s.f := by
  simp [State.fail]
@[simp] theorem State.fail_limbIn (s : State) (i : Instr) (c : FaultCode) :
    (s.fail i c).limbIn = s.limbIn := by
  simp [State.fail]
@[simp] theorem State.fail_hiIn (s : State) (i : Instr) (c : FaultCode) :
    (s.fail i c).hiIn = s.hiIn := by
  simp [State.fail]
@[simp] theorem State.fail_bytesIn (s : State) (i : Instr) (c : FaultCode) :
    (s.fail i c).bytesIn = s.bytesIn := by
  simp [State.fail]
@[simp] theorem State.fail_fault (s : State) (i : Instr) (c : FaultCode) :
    (s.fail i c).fault = true := by
  simp [State.fail]
@[simp] theorem State.fail_fcode (s : State) (i : Instr) (c : FaultCode) :
    (s.fail i c).fcode = if s.fault then s.fcode else c.byte := by
  simp [State.fail]
@[simp] theorem State.fail_finfo (s : State) (i : Instr) (c : FaultCode) :
    (s.fail i c).finfo = if s.fault then s.finfo else commandInfo (encode i) := by
  simp [State.fail]
@[simp] theorem State.fail_inFlight (s : State) (i : Instr) (c : FaultCode) :
    (s.fail i c).inFlight = none := by
  simp [State.fail]
@[simp] theorem State.fail_resetIn (s : State) (i : Instr) (c : FaultCode) :
    (s.fail i c).resetIn = s.resetIn := by
  simp [State.fail]
@[simp] theorem State.fail_script (s : State) (i : Instr) (c : FaultCode) :
    (s.fail i c).script = s.script := by
  simp [State.fail]
@[simp] theorem State.fail_answers (s : State) (i : Instr) (c : FaultCode) :
    (s.fail i c).answers = s.answers := by
  simp [State.fail]

/-- A source register that is valid hands its content to the rest of the command. -/
@[simp] theorem State.useF_some (s : State) (i : Instr) (r : FReg) (k : Word → State) (x : Word)
    (h : s.f[r.val] = some x) : s.useF i r k = k x := by
  simp [State.useF, h]

/-- A source register that is not valid ends the command with E_UNINIT (R130). -/
@[simp] theorem State.useF_none (s : State) (i : Instr) (r : FReg) (k : Word → State)
    (h : s.f[r.val] = none) : s.useF i r k = s.fail i .uninit := by
  simp [State.useF, h]

/-- All that using a source register can do. -/
theorem State.useF_cases (s : State) (i : Instr) (r : FReg) (k : Word → State) :
    (∃ x, s.f[r.val] = some x ∧ s.useF i r k = k x) ∨ (s.f[r.val] = none ∧ s.useF i r k = s.fail i .uninit) := by
  cases h : s.f[r.val] with
  | none => exact .inr ⟨rfl, s.useF_none i r k h⟩
  | some x => exact .inl ⟨x, rfl, s.useF_some i r k x h⟩

@[simp] theorem State.badWrite_build (s : State) : s.badWrite.build = s.build := rfl
@[simp] theorem State.badWrite_f (s : State) : s.badWrite.f = s.f := rfl
@[simp] theorem State.badWrite_limbIn (s : State) : s.badWrite.limbIn = s.limbIn := rfl
@[simp] theorem State.badWrite_hiIn (s : State) : s.badWrite.hiIn = s.hiIn := rfl
@[simp] theorem State.badWrite_bytesIn (s : State) : s.badWrite.bytesIn = s.bytesIn := rfl
@[simp] theorem State.badWrite_limbOut (s : State) : s.badWrite.limbOut = s.limbOut := rfl
@[simp] theorem State.badWrite_hiOut (s : State) : s.badWrite.hiOut = s.hiOut := rfl
@[simp] theorem State.badWrite_bytesOut (s : State) : s.badWrite.bytesOut = s.bytesOut := rfl
@[simp] theorem State.badWrite_pred (s : State) : s.badWrite.pred = s.pred := rfl
@[simp] theorem State.badWrite_fault (s : State) : s.badWrite.fault = s.fault := rfl
@[simp] theorem State.badWrite_fcode (s : State) : s.badWrite.fcode = s.fcode := rfl
@[simp] theorem State.badWrite_finfo (s : State) : s.badWrite.finfo = s.finfo := rfl
@[simp] theorem State.badWrite_inFlight (s : State) : s.badWrite.inFlight = s.inFlight := rfl
@[simp] theorem State.badWrite_resetIn (s : State) : s.badWrite.resetIn = s.resetIn := rfl
@[simp] theorem State.badWrite_script (s : State) : s.badWrite.script = s.script := rfl
@[simp] theorem State.badWrite_answers (s : State) : s.badWrite.answers = s.answers ++ [.busError] := rfl
@[simp] theorem State.badWrite_draws (s : State) : s.badWrite.draws = s.draws + 1 := rfl

end Sys2Proof.Machine
end

