-- ==== Sys2Proof/Laws/Exec.lean ====
section
/-! SUPPORT. What a command can do, said once: it completes, having written its one destination, or it takes a fault. -/

set_option Elab.async false

namespace Sys2Proof.Laws

open Sys2Proof.Machine

/-- The command `i` completed from `s` in `t`: its destination alone was written (R76). -/
def Completed (i : Instr) (s t : State) : Prop :=
  match outputOf i with
  | .reg d => ∃ v, t = (s.putF d v).done
  | .limbs => ∃ n, t = (s.putLimbOut n).done
  | .wide => ∃ m n, t = ((s.putLimbOut m).putHiOut n).done
  | .bytes => ∃ b, t = (s.putBytesOut b).done
  | .pred => ∃ b, t = (s.putPred b).done

/-- The command `i` ended in `t` with a fault of its own. -/
def Failed (i : Instr) (s t : State) : Prop := ∃ c, c ≠ FaultCode.busy ∧ t = s.fail i c

/-- Every command answers a next state: it completed or failed (R86, R126). -/
theorem exec_cases (i : Instr) (s : State) : ∃ t, exec i s = .next t ∧ (Completed i s t ∨ Failed i s t) := by
  have hsrc : ∀ (r : FReg) (k : Word → State), (∀ x, Completed i s (k x) ∨ Failed i s (k x)) →
      Completed i s (s.useF i r k) ∨ Failed i s (s.useF i r k) := by
    intro r k hk
    rcases s.useF_cases i r k with ⟨x, -, h⟩ | ⟨-, h⟩
    · rw [h]; exact hk x
    · rw [h]; exact .inr ⟨_, by decide, rfl⟩
  cases i with
  | fldraw d =>
    refine ⟨_, rfl, ?_⟩
    split
    · exact .inl ⟨_, rfl⟩
    · exact .inr ⟨_, by decide, rfl⟩
  | fldl d => exact ⟨_, rfl, .inl ⟨_, rfl⟩⟩
  | fldu56 d => exact ⟨_, rfl, .inl ⟨_, rfl⟩⟩
  | fldb d =>
    refine ⟨_, rfl, ?_⟩
    split
    · exact .inl ⟨_, rfl⟩
    · exact .inr ⟨_, by decide, rfl⟩
  | fstraw a => exact ⟨_, rfl, hsrc _ _ fun x => .inl ⟨_, rfl⟩⟩
  | fstl a => exact ⟨_, rfl, hsrc _ _ fun x => .inl ⟨_, rfl⟩⟩
  | fstb a => exact ⟨_, rfl, hsrc _ _ fun x => .inl ⟨_, rfl⟩⟩
  | fstbits a => exact ⟨_, rfl, hsrc _ _ fun x => .inl ⟨_, rfl⟩⟩
  | fzero d => exact ⟨_, rfl, .inl ⟨_, rfl⟩⟩
  | fone d => exact ⟨_, rfl, .inl ⟨_, rfl⟩⟩
  | fneg d a => exact ⟨_, rfl, hsrc _ _ fun x => .inl ⟨_, rfl⟩⟩
  | feq a b => exact ⟨_, rfl, hsrc _ _ fun x => hsrc _ _ fun y => .inl ⟨_, rfl⟩⟩
  | fisz a => exact ⟨_, rfl, hsrc _ _ fun x => .inl ⟨_, rfl⟩⟩
  | fisone a => exact ⟨_, rfl, hsrc _ _ fun x => .inl ⟨_, rfl⟩⟩
  | fadd d a b => exact ⟨_, rfl, hsrc _ _ fun x => hsrc _ _ fun y => .inl ⟨_, rfl⟩⟩
  | fsub d a b => exact ⟨_, rfl, hsrc _ _ fun x => hsrc _ _ fun y => .inl ⟨_, rfl⟩⟩
  | fdbl d a => exact ⟨_, rfl, hsrc _ _ fun x => .inl ⟨_, rfl⟩⟩
  | wmul a b => exact ⟨_, rfl, hsrc _ _ fun x => hsrc _ _ fun y => .inl ⟨_, _, rfl⟩⟩
  | redc d =>
    refine ⟨_, rfl, ?_⟩
    split
    · exact .inl ⟨_, rfl⟩
    · exact .inr ⟨_, by decide, rfl⟩
  | fmul d a b => exact ⟨_, rfl, hsrc _ _ fun x => hsrc _ _ fun y => .inl ⟨_, rfl⟩⟩
  | fsqr d a => exact ⟨_, rfl, hsrc _ _ fun x => .inl ⟨_, rfl⟩⟩
  | fpow d a => exact ⟨_, rfl, hsrc _ _ fun x => .inl ⟨_, rfl⟩⟩
  | fpowu d a => exact ⟨_, rfl, hsrc _ _ fun x => .inl ⟨_, rfl⟩⟩
  | finv d a =>
    refine ⟨_, rfl, hsrc _ _ fun x => ?_⟩
    split
    · exact .inr ⟨_, by decide, rfl⟩
    · split
      · exact .inr ⟨_, by decide, rfl⟩
      · exact .inl ⟨_, rfl⟩

/-- The inversion form of `exec_cases`. -/
theorem exec_inv {i : Instr} {s t : State} (h : exec i s = .next t) : Completed i s t ∨ Failed i s t := by
  obtain ⟨u, hu, hc⟩ := exec_cases i s
  rw [h, Host.Outcome.next.injEq] at hu
  exact hu ▸ hc

/-- What a completed command leaves alone: all but the command in flight and its destination (R76). -/
theorem Completed.frame {i : Instr} {s t : State} (h : Completed i s t) :
    t.build = s.build ∧ t.limbIn = s.limbIn ∧ t.hiIn = s.hiIn ∧ t.bytesIn = s.bytesIn ∧
      (outputOf i ≠ .limbs → outputOf i ≠ .wide → t.limbOut = s.limbOut) ∧
      (outputOf i ≠ .wide → t.hiOut = s.hiOut) ∧ (outputOf i ≠ .bytes → t.bytesOut = s.bytesOut) ∧
      (outputOf i ≠ .pred → t.pred = s.pred) ∧ t.fault = s.fault ∧ t.fcode = s.fcode ∧ t.finfo = s.finfo ∧
      t.inFlight = none ∧ t.resetIn = s.resetIn ∧ t.script = s.script ∧ t.answers = s.answers ∧ t.draws = s.draws := by
  unfold Completed at h
  cases ho : outputOf i <;> rw [ho] at h <;> simp only at h
  · obtain ⟨v, rfl⟩ := h; simp
  · obtain ⟨v, rfl⟩ := h; simp
  · obtain ⟨m, n, rfl⟩ := h; simp
  · obtain ⟨v, rfl⟩ := h; simp
  · obtain ⟨v, rfl⟩ := h; simp

/-- What a completed command does to the field registers: its destination, if it has one, is valid (R29). -/
theorem Completed.registers {i : Instr} {s t : State} (h : Completed i s t) :
    (∃ d v, outputOf i = .reg d ∧ t.f = s.f.set d.val (some v)) ∨ ((∀ d, outputOf i ≠ .reg d) ∧ t.f = s.f) := by
  unfold Completed at h
  cases ho : outputOf i <;> rw [ho] at h <;> simp only at h
  · obtain ⟨v, rfl⟩ := h; exact .inl ⟨_, v, rfl, rfl⟩
  · obtain ⟨v, rfl⟩ := h; exact .inr ⟨nofun, rfl⟩
  · obtain ⟨m, n, rfl⟩ := h; exact .inr ⟨nofun, rfl⟩
  · obtain ⟨v, rfl⟩ := h; exact .inr ⟨nofun, rfl⟩
  · obtain ⟨v, rfl⟩ := h; exact .inr ⟨nofun, rfl⟩

/-- A fault of the code `c` with FINFO `w`, the output `o` being left free, changes nothing else (R126, R127). -/
theorem keepsAllBut_spoil (s : State) (c : FaultCode) (w : Word64) (o : Output) :
    KeepsAllBut o s ((s.raise c w).spoil o) := by
  refine ⟨fun r => by simp [State.validBit], fun r _ => by simp, by simp, by simp, by simp, ?_, ?_, ?_, ?_, by simp,
    by simp⟩
  · intro h1 h2; simp [h1, h2]
  · intro h1; simp [h1]
  · intro h1; simp [h1]
  · intro h1; simp [h1]

/-- What a fault of the command `i` leaves (R126, R127). -/
theorem fail_frame (s : State) (i : Instr) (c : FaultCode) :
    KeepsAllBut (outputOf i) s (s.fail i c) ∧ Faulted s (s.fail i c) c.byte (commandInfo (encode i)) := by
  refine ⟨keepsAllBut_spoil s c _ _, by simp, by simp, ?_⟩
  cases h : s.fault <;> simp [h]

end Sys2Proof.Laws
end

