-- ==== Sys2Proof/Laws/Flags.lean ====
section
/-! SUPPORT. The carry and borrow chains of the limb-wise sum and difference (R106, R107): what they compute, as numbers. -/

set_option Elab.async false

namespace Sys2Proof.Laws

open Sys2Proof.Machine

/-- The limb-wise sum: limbs and carry-out together hold the sum of the two numbers and the carry-in (R106). -/
theorem limbAdd_spec (xs ys : List Nat) (c : Nat) (h : xs.length = ys.length) :
    (limbAdd xs ys c).1.length = xs.length ∧ (∀ z ∈ (limbAdd xs ys c).1, z < 2 ^ 56) ∧
      limbListValue (limbAdd xs ys c).1 + (limbAdd xs ys c).2 * (2 ^ 56) ^ xs.length =
        limbListValue xs + limbListValue ys + c := by
  induction xs generalizing ys c with
  | nil =>
    match ys, h with
    | [], _ => simp [limbAdd, limbListValue]
  | cons x xs ih =>
    match ys, h with
    | y :: ys, h =>
      obtain ⟨hl, hlt, hv⟩ := ih ys ((x + y + c) / 2 ^ 56) (by simpa using h)
      refine ⟨by simp only [limbAdd, List.length_cons, hl], fun z hz => ?_, ?_⟩
      · rcases List.mem_cons.mp hz with rfl | hz
        · exact Nat.mod_lt _ (by positivity)
        · exact hlt z hz
      · have hdiv := Nat.mod_add_div (x + y + c) (2 ^ 56)
        simp only [limbAdd, limbListValue, List.length_cons, pow_succ]
        linear_combination hdiv + 2 ^ 56 * hv

/-- The limb-wise difference: limbs and subtrahend hold the minuend and the borrow-out (R107). -/
theorem limbSub_spec (xs ys : List Nat) (w : Nat) (h : xs.length = ys.length) (hw : w ≤ 1)
    (hx : ∀ x ∈ xs, x < 2 ^ 56) (hy : ∀ y ∈ ys, y < 2 ^ 56) :
    (limbSub xs ys w).1.length = xs.length ∧ (∀ z ∈ (limbSub xs ys w).1, z < 2 ^ 56) ∧ (limbSub xs ys w).2 ≤ 1 ∧
      limbListValue (limbSub xs ys w).1 + limbListValue ys + w =
        limbListValue xs + (limbSub xs ys w).2 * (2 ^ 56) ^ xs.length := by
  induction xs generalizing ys w with
  | nil =>
    match ys, h with
    | [], _ => simpa [limbSub, limbListValue] using hw
  | cons x xs ih =>
    match ys, h with
    | y :: ys, h =>
      have hx0 := hx x (by simp)
      have hy0 := hy y (by simp)
      obtain ⟨hl, hlt, hb, hv⟩ := ih ys (if x < y + w then 1 else 0) (by simpa using h) (by split <;> omega)
        (fun z hz => hx z (by simp [hz])) (fun z hz => hy z (by simp [hz]))
      refine ⟨by simp only [limbSub, List.length_cons, hl], fun z hz => ?_, hb, ?_⟩
      · rcases List.mem_cons.mp hz with rfl | hz
        · exact Nat.mod_lt _ (by positivity)
        · exact hlt z hz
      · have hlimb : (x + 2 ^ 56 - (y + w)) % 2 ^ 56 + (y + w) = x + (if x < y + w then 1 else 0) * 2 ^ 56 := by
          split <;> omega
        simp only [limbSub, limbListValue, List.length_cons, pow_succ]
        linear_combination hlimb + 2 ^ 56 * hv

/-- A number has one list of limbs of a given length. -/
theorem limbListValue_inj (l m : List Nat) (hlen : l.length = m.length) (hl : ∀ x ∈ l, x < 2 ^ 56)
    (hm : ∀ x ∈ m, x < 2 ^ 56) (h : limbListValue l = limbListValue m) : l = m := by
  induction l generalizing m with
  | nil => exact (List.length_eq_zero_iff.mp hlen.symm).symm
  | cons x l ih =>
    match m, hlen with
    | y :: m, hlen =>
      have hx := hl x (by simp)
      have hy := hm y (by simp)
      simp only [limbListValue] at h
      have hxy : x = y := by omega
      rw [hxy, ih m (by simpa using hlen) (fun z hz => hl z (by simp [hz])) (fun z hz => hm z (by simp [hz])) (by omega)]

end Sys2Proof.Laws
end

