-- ==== Sys2Proof/Laws/Montgomery.lean ====
section
/-! SUPPORT. The datapath functions on images are the field operations on logical values (R87, R88, R106, R107, R114,
R120): one lemma for each function. -/

set_option Elab.async false
set_option exponentiation.threshold 1200

namespace Sys2Proof.Laws

open Sys2Proof.Machine

/-- What R8 says of `P_MOD`, as the proofs use it. -/
structure GoodModulus (p : Nat) : Prop where
  prime : Nat.Prime p
  odd : p % 2 = 1
  lt : p < 2 ^ 254
  le : 2 ^ 253 ≤ p

theorem goodModulus_of_valid {b : Build} (h : b.Valid) : GoodModulus b.pMod :=
  ⟨h.1, h.1.eq_two_or_odd.resolve_left (by have := h.2.1; omega), h.2.2.1, h.2.1⟩

variable {p : Nat}

theorem GoodModulus.coprime (hp : GoodModulus p) : Nat.gcd p (2 ^ 280) = 1 :=
  (Nat.Coprime.pow_right 280 (Nat.coprime_two_right.mpr (Nat.odd_iff.mpr hp.odd)))

/-- The radix can be cancelled modulo `p`. -/
theorem cancel_radix (hp : GoodModulus p) {a b : Nat} (h : a * 2 ^ 280 ≡ b * 2 ^ 280 [MOD p]) : a ≡ b [MOD p] :=
  Nat.ModEq.cancel_right_of_coprime hp.coprime h

theorem mont_lt (hp : GoodModulus p) (a : Nat) : mont p a < p := Nat.mod_lt _ hp.prime.pos

theorem mont_modEq (a : Nat) : mont p a ≡ a * 2 ^ 280 [MOD p] := Nat.mod_modEq _ _

theorem mont_mod (a : Nat) : mont p (a % p) = mont p a :=
  (Nat.mod_modEq a p).mul_right (2 ^ 280)

/-- A canonical residue congruent to `a * 2^280` is the image of `a`. -/
theorem eq_mont_of_modEq {x a : Nat} (hx : x < p) (h : x ≡ a * 2 ^ 280 [MOD p]) : x = mont p a :=
  (Nat.mod_eq_of_lt hx).symm.trans h

theorem mont_zero : mont p 0 = 0 := by simp [mont]

theorem montOne_eq : montOne p = mont p 1 := by simp [mont, montOne]

theorem redc_eq_mont (hp : GoodModulus p) {lo hi a : Nat} (hlo : lo < 2 ^ 280) (hhi : hi < p)
    (h : lo + hi * 2 ^ 280 ≡ a * 2 ^ 280 * 2 ^ 280 [MOD p]) : redc p lo hi = mont p a := by
  obtain ⟨hlt, hmod⟩ := redc_spec p lo hi hp.odd (by have := hp.lt; omega) hlo hhi
  exact eq_mont_of_modEq hlt (cancel_radix hp (hmod.trans h))

theorem montMul_modEq (hp : GoodModulus p) {x y : Nat} (hx : x < 2 ^ 280) (hy : y < p) :
    montMul p x y < p ∧ montMul p x y * 2 ^ 280 ≡ x * y [MOD p] := by
  have h := redc_spec p _ _ hp.odd (by have := hp.lt; omega) (wideMul_lo_lt x y) (wideMul_hi_lt p x y hx hy)
  rwa [wideMul_eq] at h

/-- `MontMul(mont(a), mont(b)) = mont(a*b mod p)` (R114). -/
theorem montMul_mont (hp : GoodModulus p) (a b : Nat) : montMul p (mont p a) (mont p b) = mont p (a * b) := by
  obtain ⟨hlt, hmod⟩ := montMul_modEq hp (x := mont p a) (y := mont p b)
    (by have := mont_lt hp a; have := hp.lt; omega) (mont_lt hp b)
  refine eq_mont_of_modEq hlt (cancel_radix hp (hmod.trans ?_))
  calc mont p a * mont p b ≡ (a * 2 ^ 280) * (b * 2 ^ 280) [MOD p] := (mont_modEq a).mul (mont_modEq b)
    _ = a * b * 2 ^ 280 * 2 ^ 280 := by ring

/-- `ToMont(v) = mont(v mod p)` (R87). -/
theorem toMont_eq (hp : GoodModulus p) {v : Nat} (hv : v < 2 ^ 280) : toMont p v = mont p v := by
  obtain ⟨hlt, hmod⟩ := montMul_modEq hp (y := montR2 p) hv (Nat.mod_lt _ hp.prime.pos)
  refine eq_mont_of_modEq hlt (cancel_radix hp (hmod.trans ?_))
  have hr2 : montR2 p ≡ 2 ^ 280 * 2 ^ 280 [MOD p] :=
    (Nat.mod_modEq _ _).trans (sq (montOne p) ▸ (Nat.mod_modEq _ _).mul (Nat.mod_modEq _ _))
  rw [Nat.mul_assoc]
  exact hr2.mul_left v

/-- `FromMont(mont(a)) = a` (R88). -/
theorem fromMont_mont (hp : GoodModulus p) {a : Nat} (ha : a < p) : fromMont p (mont p a) = a := by
  obtain ⟨hlt, hmod⟩ := redc_spec p (mont p a) 0 hp.odd (by have := hp.lt; omega)
    (by have := mont_lt hp a; have := hp.lt; omega) hp.prime.pos
  have h : fromMont p (mont p a) ≡ a [MOD p] :=
    cancel_radix hp (hmod.trans (by simpa using mont_modEq a))
  exact Nat.ModEq.eq_of_lt_of_lt h hlt ha

theorem fromMont_lt (hp : GoodModulus p) {x : Nat} (hx : x < p) : fromMont p x < p :=
  (redc_spec p x 0 hp.odd (by have := hp.lt; omega) (by have := hp.lt; omega) hp.prime.pos).1

/-- `ModAdd` on images is addition of logical values (R106). -/
theorem modAdd_mont (hp : GoodModulus p) (a b : Nat) : modAdd p (mont p a) (mont p b) = mont p (a + b) := by
  rw [modAdd_eq p _ _ (by have := hp.lt; omega) (mont_lt hp a) (mont_lt hp b)]
  refine Eq.trans ?_ (congrArg (· % p) (Nat.add_mul a b (2 ^ 280)).symm)
  exact (mont_modEq a).add (mont_modEq b)

/-- `ModSub` on images is subtraction of logical values (R107). -/
theorem modSub_mont (hp : GoodModulus p) {a b : Nat} (hb : b < p) :
    modSub p (mont p a) (mont p b) = mont p (a + p - b) := by
  rw [modSub_eq p _ _ (by have := hp.lt; omega) (mont_lt hp a) (mont_lt hp b)]
  refine eq_mont_of_modEq (Nat.mod_lt _ hp.prime.pos) ((Nat.mod_modEq _ _).trans ?_)
  have hle : mont p b ≤ mont p a + p := by have := mont_lt hp b; omega
  refine Nat.ModEq.add_right_cancel (mont_modEq b) ?_
  rw [Nat.sub_add_cancel hle, ← Nat.add_mul, Nat.sub_add_cancel (by omega), Nat.add_mul]
  refine (mont_modEq a).add ?_
  simp [Nat.ModEq]

/-- The negative of an image is the image of the negative (R101). -/
theorem modNeg_mont (hp : GoodModulus p) {a : Nat} (ha : a < p) : modNeg p (mont p a) = mont p (p - a) := by
  rw [modNeg_eq p _ (mont_lt hp a)]
  refine eq_mont_of_modEq (Nat.mod_lt _ hp.prime.pos) ((Nat.mod_modEq _ _).trans ?_)
  refine Nat.ModEq.add_right_cancel (mont_modEq a) ?_
  rw [Nat.sub_add_cancel (mont_lt hp a).le, ← Nat.add_mul, Nat.sub_add_cancel ha.le]
  simp [Nat.ModEq]

theorem mod_two_pow_of_testBit (e n : Nat) :
    e % 2 ^ (n + 1) = e % 2 ^ n + if e.testBit n then 2 ^ n else 0 := by
  rw [Nat.mod_pow_succ, Nat.testBit_eq_decide_div_mod_eq]
  rcases Nat.mod_two_eq_zero_or_one (e / 2 ^ n) with h | h <;> simp [h]

theorem square_multiply (c a n r : Nat) (b : Bool) :
    (if b then c * c * a else c * c) ^ 2 ^ n * a ^ r = c ^ 2 ^ (n + 1) * a ^ (r + if b then 2 ^ n else 0) := by
  cases b
  · simp only [Bool.false_eq_true, if_false, Nat.add_zero]
    rw [← sq, ← pow_mul, ← pow_succ']
  · simp only [if_true]
    rw [← sq, mul_pow, ← pow_mul, ← pow_succ', pow_add a r, Nat.mul_assoc, Nat.mul_comm (a ^ 2 ^ n)]

/-- The loop of `Pow` on images: the accumulator is squared `n` times and multiplied by the base to the low `n` bits of
the exponent (R120). -/
theorem powLoop_mont (hp : GoodModulus p) (a e n c : Nat) :
    powLoop p (mont p a) e n (mont p c) = mont p (c ^ 2 ^ n * a ^ (e % 2 ^ n)) := by
  induction n generalizing c with
  | zero => rw [powLoop, pow_zero, pow_one, Nat.mod_one, pow_zero, Nat.mul_one]
  | succ n ih =>
    rw [powLoop, montMul_mont hp, montMul_mont hp, ← apply_ite (mont p), ih, square_multiply,
      ← mod_two_pow_of_testBit]

/-- `Pow(mont(a), e) = mont(a^e mod p)` for a 280-bit exponent (R120). -/
theorem montPow_mont (hp : GoodModulus p) (a : Nat) {e : Nat} (he : e < 2 ^ 280) :
    montPow p (mont p a) e = mont p (a ^ e) := by
  rw [montPow, montOne_eq, powLoop_mont hp, one_pow, one_mul, Nat.mod_eq_of_lt he]

/-- The Montgomery map is injective on `[0, p)` (R22, R105). -/
theorem mont_inj (hp : GoodModulus p) {a b : Nat} (ha : a < p) (hb : b < p) (h : mont p a = mont p b) : a = b :=
  Nat.ModEq.eq_of_lt_of_lt (cancel_radix hp h) ha hb

/-- Every value below `p` is the image of some logical value. -/
theorem exists_image (hp : GoodModulus p) {x : Nat} (hx : x < p) : ∃ a < p, x = mont p a := by
  obtain ⟨hlt, hmod⟩ := redc_spec p x 0 hp.odd (by have := hp.lt; omega) (by have := hp.lt; omega) hp.prime.pos
  exact ⟨_, hlt, eq_mont_of_modEq hx (by simpa using hmod.symm)⟩

/-- Fermat: the exponentiation of FINV gives the inverse (R123). -/
theorem pow_sub_two_mul (hp : GoodModulus p) {a : Nat} (ha : a < p) (hne : a ≠ 0) : a * a ^ (p - 2) % p = 1 := by
  have hfact : Fact p.Prime := ⟨hp.prime⟩
  have hne' : (a : ZMod p) ≠ 0 := by
    rw [Ne, ZMod.natCast_eq_zero_iff]
    exact fun hd => hne (Nat.eq_zero_of_dvd_of_lt hd ha)
  have h := ZMod.pow_card_sub_one_eq_one hne'
  have h2 : p - 1 = p - 2 + 1 := by have := hp.prime.two_le; omega
  rw [h2, pow_succ'] at h
  have := (ZMod.natCast_eq_natCast_iff (a * a ^ (p - 2)) 1 p).mp (by push_cast; exact h)
  rwa [Nat.ModEq, Nat.mod_eq_of_lt hp.prime.one_lt] at this

/-- The verification of FINV never fails (R123, R135). -/
theorem finv_check (hp : GoodModulus p) {a : Nat} (ha : a < p) (hne : a ≠ 0) :
    montMul p (mont p a) (montPow p (mont p a) (p - 2)) = montOne p := by
  rw [montPow_mont hp a (by have := hp.lt; omega), montMul_mont hp, montOne_eq, ← mont_mod,
    pow_sub_two_mul hp ha hne]

end Sys2Proof.Laws
end

