-- ==== Sys2Proof/Laws/Operands.lean ====
section
/-! SUPPORT. The operand forms: buffers as numbers and back (R13, R14, R32, R33). -/

set_option Elab.async false
set_option exponentiation.threshold 600

namespace Sys2Proof.Laws

open Sys2Proof.Machine

theorem limbsToNat_lt (l : Limbs) : limbsToNat l < 2 ^ 280 := by
  have h0 := l[0].isLt
  have h1 := l[1].isLt
  have h2 := l[2].isLt
  have h3 := l[3].isLt
  have h4 := l[4].isLt
  unfold limbsToNat
  omega

theorem byteBufToNat_lt (b : ByteBuf) : byteBufToNat b < 2 ^ 256 := by
  have h0 := b[0].isLt
  have h1 := b[1].isLt
  have h2 := b[2].isLt
  have h3 := b[3].isLt
  unfold byteBufToNat
  omega

theorem limbsToNat_natToLimbs (v : Nat) (h : v < 2 ^ 280) : limbsToNat (natToLimbs v) = v := by
  simp only [limbsToNat, natToLimbs, Vector.getElem_mk, List.getElem_toArray, List.getElem_cons_zero,
    List.getElem_cons_succ, BitVec.toNat_ofNat]
  omega

theorem byteBufToNat_natToByteBuf (v : Nat) (h : v < 2 ^ 256) : byteBufToNat (natToByteBuf v) = v := by
  simp only [byteBufToNat, natToByteBuf, Vector.getElem_mk, List.getElem_toArray, List.getElem_cons_zero,
    List.getElem_cons_succ, BitVec.toNat_ofNat]
  omega

theorem limb_eq_ofNat (x : Limb) (n : Nat) (h : n % 2 ^ 56 = x.toNat) : BitVec.ofNat 56 n = x := by
  rw [← BitVec.toNat_inj, BitVec.toNat_ofNat, h]

theorem word64_eq_ofNat (x : Word64) (n : Nat) (h : n % 2 ^ 64 = x.toNat) : BitVec.ofNat 64 n = x := by
  rw [← BitVec.toNat_inj, BitVec.toNat_ofNat, h]

theorem natToLimbs_limbsToNat (l : Limbs) : natToLimbs (limbsToNat l) = l := by
  have h0 := l[0].isLt
  have h1 := l[1].isLt
  have h2 := l[2].isLt
  have h3 := l[3].isLt
  have h4 := l[4].isLt
  refine Vector.ext fun j hj => ?_
  have : j = 0 ∨ j = 1 ∨ j = 2 ∨ j = 3 ∨ j = 4 := by omega
  rcases this with rfl | rfl | rfl | rfl | rfl <;>
    exact limb_eq_ofNat _ _ (by unfold limbsToNat; omega)

theorem natToByteBuf_byteBufToNat (b : ByteBuf) : natToByteBuf (byteBufToNat b) = b := by
  have h0 := b[0].isLt
  have h1 := b[1].isLt
  have h2 := b[2].isLt
  have h3 := b[3].isLt
  refine Vector.ext fun j hj => ?_
  have : j = 0 ∨ j = 1 ∨ j = 2 ∨ j = 3 := by omega
  rcases this with rfl | rfl | rfl | rfl <;>
    exact word64_eq_ofNat _ _ (by unfold byteBufToNat; omega)

/-- Limb `j` of `natToLimbs(v)` is `v[56j+55:56j]` (R13). -/
theorem natToLimbs_toNat (v : Nat) (j : Fin 5) : (natToLimbs v)[j.val].toNat = v / 2 ^ (56 * j.val) % 2 ^ 56 := by
  obtain ⟨j, hj⟩ := j
  have : j = 0 ∨ j = 1 ∨ j = 2 ∨ j = 3 ∨ j = 4 := by omega
  rcases this with rfl | rfl | rfl | rfl | rfl <;> simp [natToLimbs]

/-- Register `m` of `OUT_Y <- v` is `v[64m+63:64m]` (R33). -/
theorem natToByteBuf_getElem (v m : Nat) (hm : m < 4) : (natToByteBuf v)[m] = BitVec.ofNat 64 (v / 2 ^ (64 * m)) := by
  have : m = 0 ∨ m = 1 ∨ m = 2 ∨ m = 3 := by omega
  rcases this with rfl | rfl | rfl | rfl <;> simp [natToByteBuf]

/-- Byte `k` of a byte buffer, as a number (R32). -/
theorem byteOf_toNat (b : ByteBuf) (k : Fin 32) :
    (byteOf b k).toNat = (b[k.val / 8]'(by omega)).toNat / 2 ^ (8 * (k.val % 8)) % 2 ^ 8 := by
  simp [byteOf, BitVec.extractLsb'_toNat, Nat.shiftRight_eq_div_pow]

/-- A register of a byte buffer is made of its eight bytes (R32). -/
theorem byteBuf_register (b : ByteBuf) (m : Nat) (hm : m < 4) :
    b[m].toNat = (byteOf b ⟨8 * m, by omega⟩).toNat + (byteOf b ⟨8 * m + 1, by omega⟩).toNat * 2 ^ 8 +
      (byteOf b ⟨8 * m + 2, by omega⟩).toNat * 2 ^ 16 + (byteOf b ⟨8 * m + 3, by omega⟩).toNat * 2 ^ 24 +
      (byteOf b ⟨8 * m + 4, by omega⟩).toNat * 2 ^ 32 + (byteOf b ⟨8 * m + 5, by omega⟩).toNat * 2 ^ 40 +
      (byteOf b ⟨8 * m + 6, by omega⟩).toNat * 2 ^ 48 + (byteOf b ⟨8 * m + 7, by omega⟩).toNat * 2 ^ 56 := by
  have e : ∀ j (hj : j < 8), (byteOf b ⟨8 * m + j, by omega⟩).toNat = b[m].toNat / 2 ^ (8 * j) % 2 ^ 8 := by
    intro j hj
    rw [byteOf_toNat]
    have h1 : (8 * m + j) / 8 = m := by omega
    have h2 : (8 * m + j) % 8 = j := by omega
    simp only [h1, h2]
  have e0 := e 0 (by omega)
  simp only [Nat.add_zero] at e0
  rw [e0, e 1 (by omega), e 2 (by omega), e 3 (by omega), e 4 (by omega), e 5 (by omega), e 6 (by omega),
    e 7 (by omega)]
  have hlt := b[m].isLt
  omega

/-- The number packed from a list of bits has these bits. -/
theorem testBit_packed (l : List Bool) (i : Nat) :
    (l.foldr (fun (e : Bool) n => e.toNat + 2 * n) 0).testBit i = l.getD i false := by
  induction l generalizing i with
  | nil => simp
  | cons b l ih =>
    rw [List.foldr_cons]
    cases i with
    | zero => cases b <;> simp [Nat.testBit_zero]
    | succ i =>
      have hhalf : (b.toNat + 2 * l.foldr (fun (e : Bool) n => e.toNat + 2 * n) 0) / 2 =
          l.foldr (fun (e : Bool) n => e.toNat + 2 * n) 0 := by
        cases b <;> simp; omega
      rw [Nat.testBit_succ, hhalf, ih]
      simp

/-- Bit `j` of register `m` of the bit layout is entry `64m + j`, and 0 where there is no entry (R96). -/
theorem getLsbD_packBits (c m j : Nat) (hj : j < 64) :
    (packBits (exportBits c) m).getLsbD j = (decide (64 * m + j < 254) && c.testBit (64 * m + j)) := by
  rw [packBits, BitVec.getLsbD_ofNat, testBit_packed]
  simp only [exportBits, List.getD_eq_getElem?_getD, List.getElem?_take, List.getElem?_drop, List.getElem?_map, hj,
    if_true, decide_true, Bool.true_and]
  by_cases h : 64 * m + j < 254 <;> simp [h]

theorem toNat_toWord (n : Nat) (h : n < 2 ^ 280) : (toWord n).toNat = n := by
  rw [toWord, BitVec.toNat_ofNat, Nat.mod_eq_of_lt h]

theorem toWord_toNat (x : Word) : toWord x.toNat = x := by
  simp [toWord]

end Sys2Proof.Laws
end

