-- ==== Sys2Proof/Laws/PerInstr.lean ====
section
/-! SUPPORT. The family `EncodesLegally`: the encoding of every command is a legal CMD value, in the sense of the match and
mask table (R73, R75). -/

set_option Elab.async false

namespace Sys2Proof.Laws.EncodesLegally

/-- The CMD value of the command fits a row of the match and mask table (R75). -/
def Statement (i : Instr) : Prop := legalCmdValue (cmdValue (encode i)) = true

theorem fldraw (d : FReg) : Statement (.fldraw d) := by
  revert d; unfold Statement; decide +kernel

theorem fldl (d : FReg) : Statement (.fldl d) := by
  revert d; unfold Statement; decide +kernel

theorem fldu56 (d : FReg) : Statement (.fldu56 d) := by
  revert d; unfold Statement; decide +kernel

theorem fldb (d : FReg) : Statement (.fldb d) := by
  revert d; unfold Statement; decide +kernel

theorem fstraw (a : FReg) : Statement (.fstraw a) := by
  revert a; unfold Statement; decide +kernel

theorem fstl (a : FReg) : Statement (.fstl a) := by
  revert a; unfold Statement; decide +kernel

theorem fstb (a : FReg) : Statement (.fstb a) := by
  revert a; unfold Statement; decide +kernel

theorem fstbits (a : FReg) : Statement (.fstbits a) := by
  revert a; unfold Statement; decide +kernel

theorem fzero (d : FReg) : Statement (.fzero d) := by
  revert d; unfold Statement; decide +kernel

theorem fone (d : FReg) : Statement (.fone d) := by
  revert d; unfold Statement; decide +kernel

theorem fneg (d a : FReg) : Statement (.fneg d a) := by
  revert d a; unfold Statement; decide +kernel

theorem feq (a b : FReg) : Statement (.feq a b) := by
  revert a b; unfold Statement; decide +kernel

theorem fisz (a : FReg) : Statement (.fisz a) := by
  revert a; unfold Statement; decide +kernel

theorem fisone (a : FReg) : Statement (.fisone a) := by
  revert a; unfold Statement; decide +kernel

theorem fadd (d a b : FReg) : Statement (.fadd d a b) := by
  revert d a b; unfold Statement; decide +kernel

theorem fsub (d a b : FReg) : Statement (.fsub d a b) := by
  revert d a b; unfold Statement; decide +kernel

theorem fdbl (d a : FReg) : Statement (.fdbl d a) := by
  revert d a; unfold Statement; decide +kernel

theorem wmul (a b : FReg) : Statement (.wmul a b) := by
  revert a b; unfold Statement; decide +kernel

theorem redc (d : FReg) : Statement (.redc d) := by
  revert d; unfold Statement; decide +kernel

theorem fmul (d a b : FReg) : Statement (.fmul d a b) := by
  revert d a b; unfold Statement; decide +kernel

theorem fsqr (d a : FReg) : Statement (.fsqr d a) := by
  revert d a; unfold Statement; decide +kernel

theorem fpow (d a : FReg) : Statement (.fpow d a) := by
  revert d a; unfold Statement; decide +kernel

theorem fpowu (d a : FReg) : Statement (.fpowu d a) := by
  revert d a; unfold Statement; decide +kernel

theorem finv (d a : FReg) : Statement (.finv d a) := by
  revert d a; unfold Statement; decide +kernel

end Sys2Proof.Laws.EncodesLegally
end

