-- ==== Sys2Proof/Laws/Primes.lean ====
section
/-! SUPPORT. The two candidate moduli are prime (D2 says they were checked to be), by certificates in the manner of Pratt:
so the builds `Build.fq` and `Build.fr` are valid, and so is the build of the block. -/

set_option Elab.async false

namespace Sys2Proof.Laws

/-- `a ^ e mod m` by binary exponentiation, `fuel` bounding the bits of `e`. -/
def powMod (m a : Nat) : Nat → Nat → Nat
  | 0, _ => 1 % m
  | fuel + 1, e =>
    if e = 0 then 1 % m
    else if e % 2 = 0 then powMod m (a * a % m) fuel (e / 2)
    else a * powMod m (a * a % m) fuel (e / 2) % m

theorem powMod_eq (m fuel : Nat) : ∀ a e : Nat, e < 2 ^ fuel → powMod m a fuel e = a ^ e % m := by
  induction fuel with
  | zero => intro a e he; simp [powMod, Nat.lt_one_iff.mp (by simpa using he)]
  | succ n ih =>
    intro a e he
    have hhalf : e / 2 < 2 ^ n := by omega
    have key : (a * a % m) ^ (e / 2) % m = (a ^ 2) ^ (e / 2) % m := by
      rw [← Nat.pow_mod, sq]
    unfold powMod
    split
    · simp_all
    · split
      · rw [ih _ _ hhalf, key, ← pow_mul, Nat.mul_div_cancel' (Nat.dvd_of_mod_eq_zero ‹_›)]
      · rw [ih _ _ hhalf, key, Nat.mul_mod, Nat.mod_mod, ← Nat.mul_mod, ← pow_mul, ← pow_succ']
        congr 2
        omega

/-- A certificate that `p` is prime: `qs` are the primes that divide `p - 1`, and `a` generates the units. -/
def certifies (p a : Nat) (qs : List Nat) : Bool :=
  1 < p && p < 2 ^ 256 && (qs.prod ^ 32) % (p - 1) == 0 && powMod p a 256 (p - 1) == 1 &&
    qs.all fun q => powMod p a 256 ((p - 1) / q) != 1

theorem prime_of_certifies (p a : Nat) (qs : List Nat) (hqs : ∀ q ∈ qs, Nat.Prime q) (h : certifies p a qs = true) :
    Nat.Prime p := by
  simp only [certifies, Bool.and_eq_true, decide_eq_true_eq, beq_iff_eq, List.all_eq_true, bne_iff_ne] at h
  obtain ⟨⟨⟨⟨hp, hlt⟩, hfac⟩, hone⟩, hq⟩ := h
  have cast_pow : ∀ e : Nat, e < 2 ^ 256 → ((a : ZMod p) ^ e = 1 ↔ powMod p a 256 e = 1) := by
    intro e he
    rw [powMod_eq p 256 a e he, ← Nat.cast_one, ← Nat.cast_pow, ZMod.natCast_eq_natCast_iff, Nat.ModEq,
      Nat.mod_eq_of_lt hp]
  refine lucas_primality p a ((cast_pow _ (by omega)).mpr hone) fun q hprime hdvd => ?_
  have hmem : q ∈ qs := by
    have hdp : q ∣ qs.prod := hprime.dvd_of_dvd_pow (hdvd.trans (Nat.dvd_of_mod_eq_zero hfac))
    obtain ⟨r, hr, hqr⟩ := (Prime.dvd_prod_iff hprime.prime).mp hdp
    exact (Nat.prime_dvd_prime_iff_eq hprime (hqs r hr)).mp hqr ▸ hr
  exact fun hcontra => hq q hmem ((cast_pow _ (lt_of_le_of_lt (Nat.div_le_self _ _) (by omega))).mp hcontra)

theorem prime_237073 : Nat.Prime 237073 := by
  refine prime_of_certifies _ 15 [2, 3, 11, 449] ?_ (by decide +kernel)
  simp only [List.forall_mem_cons, List.not_mem_nil, false_imp_iff, implies_true, and_true]
  exact ⟨by norm_num, by norm_num, by norm_num, by norm_num⟩

theorem prime_405928799 : Nat.Prime 405928799 := by
  refine prime_of_certifies _ 22 [2, 11, 3691, 4999] ?_ (by decide +kernel)
  simp only [List.forall_mem_cons, List.not_mem_nil, false_imp_iff, implies_true, and_true]
  exact ⟨by norm_num, by norm_num, by norm_num, by norm_num⟩

theorem prime_12048837557 : Nat.Prime 12048837557 := by
  refine prime_of_certifies _ 2 [2, 7, 661, 93001] ?_ (by decide +kernel)
  simp only [List.forall_mem_cons, List.not_mem_nil, false_imp_iff, implies_true, and_true]
  exact ⟨by norm_num, by norm_num, by norm_num, by norm_num⟩

theorem prime_5156902474397 : Nat.Prime 5156902474397 := by
  refine prime_of_certifies _ 2 [2, 107, 12048837557] ?_ (by decide +kernel)
  simp only [List.forall_mem_cons, List.not_mem_nil, false_imp_iff, implies_true, and_true]
  exact ⟨by norm_num, by norm_num, prime_12048837557⟩

theorem prime_1670836401704629 : Nat.Prime 1670836401704629 := by
  refine prime_of_certifies _ 2 [2, 3, 5156902474397] ?_ (by decide +kernel)
  simp only [List.forall_mem_cons, List.not_mem_nil, false_imp_iff, implies_true, and_true]
  exact ⟨by norm_num, by norm_num, prime_5156902474397⟩

theorem prime_1593227 : Nat.Prime 1593227 := by
  refine prime_of_certifies _ 2 [2, 19, 41927] ?_ (by decide +kernel)
  simp only [List.forall_mem_cons, List.not_mem_nil, false_imp_iff, implies_true, and_true]
  exact ⟨by norm_num, by norm_num, by norm_num⟩

theorem prime_639533339 : Nat.Prime 639533339 := by
  refine prime_of_certifies _ 2 [2, 229, 853, 1637] ?_ (by decide +kernel)
  simp only [List.forall_mem_cons, List.not_mem_nil, false_imp_iff, implies_true, and_true]
  exact ⟨by norm_num, by norm_num, by norm_num, by norm_num⟩

theorem prime_65865678001877903 : Nat.Prime 65865678001877903 := by
  refine prime_of_certifies _ 5 [2, 83, 379, 1637, 639533339] ?_ (by decide +kernel)
  simp only [List.forall_mem_cons, List.not_mem_nil, false_imp_iff, implies_true, and_true]
  exact ⟨by norm_num, by norm_num, by norm_num, by norm_num, prime_639533339⟩

theorem prime_13818364434197438864469338081 : Nat.Prime 13818364434197438864469338081 := by
  refine prime_of_certifies _ 3 [2, 5, 823, 1593227, 65865678001877903] ?_ (by decide +kernel)
  simp only [List.forall_mem_cons, List.not_mem_nil, false_imp_iff, implies_true, and_true]
  exact ⟨by norm_num, by norm_num, by norm_num, prime_1593227, prime_65865678001877903⟩

theorem prime_fr : Nat.Prime Build.fr.pMod := by
  refine prime_of_certifies _ 5 [2, 3, 13, 29, 983, 11003,
      237073, 405928799, 1670836401704629, 13818364434197438864469338081] ?_ (by decide +kernel)
  simp only [List.forall_mem_cons, List.not_mem_nil, false_imp_iff, implies_true, and_true]
  exact ⟨by norm_num, by norm_num, by norm_num, by norm_num, by norm_num, by norm_num, prime_237073, prime_405928799, prime_1670836401704629, prime_13818364434197438864469338081⟩

theorem prime_327599 : Nat.Prime 327599 := by
  refine prime_of_certifies _ 19 [2, 19, 37, 233] ?_ (by decide +kernel)
  simp only [List.forall_mem_cons, List.not_mem_nil, false_imp_iff, implies_true, and_true]
  exact ⟨by norm_num, by norm_num, by norm_num, by norm_num⟩

theorem prime_11465965001 : Nat.Prime 11465965001 := by
  refine prime_of_certifies _ 3 [2, 5, 7, 327599] ?_ (by decide +kernel)
  simp only [List.forall_mem_cons, List.not_mem_nil, false_imp_iff, implies_true, and_true]
  exact ⟨by norm_num, by norm_num, by norm_num, prime_327599⟩

theorem prime_1853641 : Nat.Prime 1853641 := by
  refine prime_of_certifies _ 17 [2, 3, 5, 19, 271] ?_ (by decide +kernel)
  simp only [List.forall_mem_cons, List.not_mem_nil, false_imp_iff, implies_true, and_true]
  exact ⟨by norm_num, by norm_num, by norm_num, by norm_num, by norm_num⟩

theorem prime_4562087 : Nat.Prime 4562087 := by
  refine prime_of_certifies _ 5 [2, 17, 109, 1231] ?_ (by decide +kernel)
  simp only [List.forall_mem_cons, List.not_mem_nil, false_imp_iff, implies_true, and_true]
  exact ⟨by norm_num, by norm_num, by norm_num, by norm_num⟩

theorem prime_173171039 : Nat.Prime 173171039 := by
  refine prime_of_certifies _ 13 [2, 73, 89, 13327] ?_ (by decide +kernel)
  simp only [List.forall_mem_cons, List.not_mem_nil, false_imp_iff, implies_true, and_true]
  exact ⟨by norm_num, by norm_num, by norm_num, by norm_num⟩

theorem prime_1263766531 : Nat.Prime 1263766531 := by
  refine prime_of_certifies _ 10 [2, 3, 5, 13, 911, 3557] ?_ (by decide +kernel)
  simp only [List.forall_mem_cons, List.not_mem_nil, false_imp_iff, implies_true, and_true]
  exact ⟨by norm_num, by norm_num, by norm_num, by norm_num, by norm_num, by norm_num⟩

theorem prime_35385462869 : Nat.Prime 35385462869 := by
  refine prime_of_certifies _ 2 [2, 7, 1263766531] ?_ (by decide +kernel)
  simp only [List.forall_mem_cons, List.not_mem_nil, false_imp_iff, implies_true, and_true]
  exact ⟨by norm_num, by norm_num, prime_1263766531⟩

theorem prime_2480874801745591 : Nat.Prime 2480874801745591 := by
  refine prime_of_certifies _ 6 [2, 3, 5, 19, 41, 35385462869] ?_ (by decide +kernel)
  simp only [List.forall_mem_cons, List.not_mem_nil, false_imp_iff, implies_true, and_true]
  exact ⟨by norm_num, by norm_num, by norm_num, by norm_num, by norm_num, prime_35385462869⟩

theorem prime_13427688667394608761327070753331941386769 : Nat.Prime 13427688667394608761327070753331941386769 := by
  refine prime_of_certifies _ 17 [2, 3, 7, 11, 1853641, 4562087, 173171039, 2480874801745591] ?_ (by decide +kernel)
  simp only [List.forall_mem_cons, List.not_mem_nil, false_imp_iff, implies_true, and_true]
  exact ⟨by norm_num, by norm_num, by norm_num, by norm_num, prime_1853641, prime_4562087, prime_173171039, prime_2480874801745591⟩

theorem prime_fq : Nat.Prime Build.fq.pMod := by
  refine prime_of_certifies _ 3 [2, 3, 13, 29, 67, 229,
      311, 983, 11003, 405928799, 11465965001, 13427688667394608761327070753331941386769] ?_ (by decide +kernel)
  simp only [List.forall_mem_cons, List.not_mem_nil, false_imp_iff, implies_true, and_true]
  exact ⟨by norm_num, by norm_num, by norm_num, by norm_num, by norm_num, by norm_num, by norm_num, by norm_num, by norm_num, prime_405928799, prime_11465965001, prime_13427688667394608761327070753331941386769⟩

theorem fq_valid : Build.fq.Valid := ⟨prime_fq, by decide +kernel, by decide +kernel, by decide +kernel, by decide +kernel, by decide +kernel⟩

theorem fr_valid : Build.fr.Valid := ⟨prime_fr, by decide +kernel, by decide +kernel, by decide +kernel, by decide +kernel, by decide +kernel⟩

/-- All that is known of the build of this block (R8). -/
theorem build_valid : Config.build.Valid := by
  unfold Config.build
  split
  · assumption
  · exact fq_valid

end Sys2Proof.Laws
end

