-- ==== Sys2Proof/Laws/Window.lean ====
section
/-! SUPPORT. What a host access can do, said once for each operation of the window. -/

set_option Elab.async false

namespace Sys2Proof.Machine

@[simp] theorem State.hostRead_eq (s : State) (r : WinReg) : s.hostRead r = s.answer (.data (s.readReg r)) := rfl

/-- An abort raises E_BUSY and may leave free values in the output of the command in flight. -/
theorem State.abort_cases (s : State) (v : Word64) (off : Nat) :
    s.abort v off = s.raise .busy (busyInfo (v.setWidth 32) off) ∨
      ∃ o, s.runningOutput = some o ∧ s.abort v off = (s.raise .busy (busyInfo (v.setWidth 32) off)).spoil o := by
  cases h : s.runningOutput with
  | none => exact .inl (by simp [State.abort, h])
  | some o => exact .inr ⟨o, rfl, by simp [State.abort, h]⟩

@[simp] theorem State.abort_build (s : State) (v : Word64) (off : Nat) : (s.abort v off).build = s.build := by
  rcases s.abort_cases v off with h | ⟨o, -, h⟩ <;> simp [h]
@[simp] theorem State.abort_f (s : State) (v : Word64) (off : Nat) : (s.abort v off).f = s.f := by
  rcases s.abort_cases v off with h | ⟨o, -, h⟩ <;> simp [h]
@[simp] theorem State.abort_limbIn (s : State) (v : Word64) (off : Nat) : (s.abort v off).limbIn = s.limbIn := by
  rcases s.abort_cases v off with h | ⟨o, -, h⟩ <;> simp [h]
@[simp] theorem State.abort_hiIn (s : State) (v : Word64) (off : Nat) : (s.abort v off).hiIn = s.hiIn := by
  rcases s.abort_cases v off with h | ⟨o, -, h⟩ <;> simp [h]
@[simp] theorem State.abort_bytesIn (s : State) (v : Word64) (off : Nat) : (s.abort v off).bytesIn = s.bytesIn := by
  rcases s.abort_cases v off with h | ⟨o, -, h⟩ <;> simp [h]
@[simp] theorem State.abort_fault (s : State) (v : Word64) (off : Nat) : (s.abort v off).fault = true := by
  rcases s.abort_cases v off with h | ⟨o, -, h⟩ <;> simp [h]
@[simp] theorem State.abort_fcode (s : State) (v : Word64) (off : Nat) :
    (s.abort v off).fcode = if s.fault then s.fcode else FaultCode.busy.byte := by
  rcases s.abort_cases v off with h | ⟨o, -, h⟩ <;> simp [h]
@[simp] theorem State.abort_finfo (s : State) (v : Word64) (off : Nat) :
    (s.abort v off).finfo = if s.fault then s.finfo else busyInfo (v.setWidth 32) off := by
  rcases s.abort_cases v off with h | ⟨o, -, h⟩ <;> simp [h]
@[simp] theorem State.abort_inFlight (s : State) (v : Word64) (off : Nat) : (s.abort v off).inFlight = none := by
  rcases s.abort_cases v off with h | ⟨o, -, h⟩ <;> simp [h]
@[simp] theorem State.abort_resetIn (s : State) (v : Word64) (off : Nat) : (s.abort v off).resetIn = s.resetIn := by
  rcases s.abort_cases v off with h | ⟨o, -, h⟩ <;> simp [h]
@[simp] theorem State.abort_script (s : State) (v : Word64) (off : Nat) : (s.abort v off).script = s.script := by
  rcases s.abort_cases v off with h | ⟨o, -, h⟩ <;> simp [h]
@[simp] theorem State.abort_answers (s : State) (v : Word64) (off : Nat) : (s.abort v off).answers = s.answers := by
  rcases s.abort_cases v off with h | ⟨o, -, h⟩ <;> simp [h]

/-- All that a write to an input-buffer register can do. -/
theorem State.writeInput_cases (s : State) (off : Nat) (store : State → State) :
    (∃ run, s.inFlight = some run ∧ s.writeInput off store = s.abort run off) ∨
      (s.inFlight = none ∧ s.writeInput off store = store s) := by
  cases h : s.inFlight with
  | none => exact .inr ⟨rfl, by simp [State.writeInput, h]⟩
  | some run => exact .inl ⟨run, rfl, by simp [State.writeInput, h]⟩

/-- All that a CMD write can do (R46). -/
theorem State.writeCmd_cases (s : State) (v : Word64) :
    (s.fault = true ∧ s.writeCmd v = s) ∨
      (∃ run, s.fault = false ∧ s.inFlight = some run ∧ s.writeCmd v = s.abort run (winOffset .cmd)) ∨
      (s.fault = false ∧ s.inFlight = none ∧ s.writeCmd v = { s with inFlight := some v }) := by
  cases hf : s.fault with
  | true => exact .inl ⟨rfl, by simp [State.writeCmd, hf]⟩
  | false =>
    cases h : s.inFlight with
    | none => exact .inr (.inr ⟨rfl, rfl, by simp [State.writeCmd, hf, h]⟩)
    | some run => exact .inr (.inl ⟨run, rfl, rfl, by simp [State.writeCmd, hf, h]⟩)

theorem winOffset_lt (r : WinReg) : winOffset r < 2 ^ 12 := by
  cases r <;> simp only [winOffset] <;> omega

/-- All that a host write to a register can do. -/
theorem State.writeReg_cases (s : State) (r : WinReg) (v : Word64) :
    s.writeReg r v = s ∨ s.writeReg r v = s.clear ∨
      (∃ run off, s.inFlight = some run ∧ off < 2 ^ 12 ∧ s.writeReg r v = s.abort run off) ∨
      (s.fault = false ∧ s.inFlight = none ∧ s.writeReg r v = { s with inFlight := some v }) ∨
      (s.inFlight = none ∧ ∃ l h b, s.writeReg r v = { s with limbIn := l, hiIn := h, bytesIn := b }) := by
  have hin : ∀ (q : WinReg) (store : State → State) (l h : Limbs) (b : ByteBuf),
      store s = { s with limbIn := l, hiIn := h, bytesIn := b } →
      s.writeReg q v = s.writeInput (winOffset q) store →
      s.writeReg q v = s ∨ s.writeReg q v = s.clear ∨
        (∃ run off, s.inFlight = some run ∧ off < 2 ^ 12 ∧ s.writeReg q v = s.abort run off) ∨
        (s.fault = false ∧ s.inFlight = none ∧ s.writeReg q v = { s with inFlight := some v }) ∨
        (s.inFlight = none ∧ ∃ l h b, s.writeReg q v = { s with limbIn := l, hiIn := h, bytesIn := b }) := by
    intro q store l h b hstore hw
    rcases s.writeInput_cases (winOffset q) store with ⟨run, hr, e⟩ | ⟨hi, e⟩
    · exact .inr (.inr (.inl ⟨run, _, hr, winOffset_lt q, hw.trans e⟩))
    · exact .inr (.inr (.inr (.inr ⟨hi, l, h, b, (hw.trans e).trans hstore⟩)))
  cases r with
  | id => exact .inl rfl
  | ctrl =>
    by_cases hb : v.getLsbD 0 = true
    · exact .inr (.inl (if_pos hb))
    · exact .inl (if_neg hb)
  | status => exact .inl rfl
  | cmd =>
    rcases s.writeCmd_cases v with ⟨-, h⟩ | ⟨run, -, hr, h⟩ | ⟨hf, hi, h⟩
    · exact .inl h
    · exact .inr (.inr (.inl ⟨run, _, hr, winOffset_lt .cmd, h⟩))
    · exact .inr (.inr (.inr (.inl ⟨hf, hi, h⟩)))
  | finfo => exact .inl rfl
  | limbIn j => exact hin (.limbIn j) (fun t => { t with limbIn := t.limbIn.set j.val (v.setWidth 56) }) _ _ _ rfl rfl
  | hiIn j => exact hin (.hiIn j) (fun t => { t with hiIn := t.hiIn.set j.val (v.setWidth 56) }) _ _ _ rfl rfl
  | bytesIn m => exact hin (.bytesIn m) (fun t => { t with bytesIn := t.bytesIn.set m.val v }) _ _ _ rfl rfl
  | limbOut j => exact .inl rfl
  | hiOut j => exact .inl rfl
  | bytesOut m => exact .inl rfl

/-- An address in the window is at its offset (R54). -/
theorem windowOffset_base_add (b : Build) (off : Nat) (h : off < windowSize) :
    windowOffset b (b.windowBase + off) = some off := by
  rw [windowOffset, if_pos (by omega), Nat.add_sub_cancel_left]

/-- An access that reaches a register is 8 bytes wide and at its offset (R37, R58). -/
theorem reached_some {off width : Nat} {r : WinReg} (h : reached off width = some r) :
    width = 8 ∧ off = winOffset r := by
  unfold reached at h
  split at h
  · have hr := List.find?_some (l := winRegs) (p := fun r => winOffset r == off) h
    exact ⟨‹_ ∧ _›.1, (beq_iff_eq.mp hr).symm⟩
  · cases h

/-- All that a host access can do to a block that is out of reset. -/
theorem State.access_cases (s : State) (a : Access) :
    s.access a = s ∨ s.access a = s.answer .busError ∨ s.access a = s.badWrite ∨
      (∃ r, s.access a = s.hostRead r) ∨ ∃ r v, s.access a = s.hostWrite r v := by
  cases a with
  | read addr width =>
    simp only [State.access]
    split
    · exact .inl rfl
    · split
      · exact .inr (.inl rfl)
      · exact .inr (.inr (.inr (.inl ⟨_, rfl⟩)))
  | write addr width v =>
    simp only [State.access]
    split
    · exact .inl rfl
    · split
      · exact .inr (.inr (.inl rfl))
      · exact .inr (.inr (.inr (.inr ⟨_, _, rfl⟩)))

end Sys2Proof.Machine
end

