-- ==== Sys2Proof/Laws/Step.lean ====
section
/-! SUPPORT. What a step can do, said once: the inversion of `runCore`, `turn` and `step`. -/

set_option Elab.async false

namespace Sys2Proof.Laws

open Sys2Proof.Machine

/-- All that the core's turn can do, where it gives a next state. -/
theorem runCore_cases {s t : State} (h : runCore s = .next t) :
    (s.inFlight = none ∧ t = s) ∨
      (∃ v i, s.inFlight = some v ∧ decode v = .ok i ∧ exec i s = .next t) ∨
      (∃ v e, s.inFlight = some v ∧ decode v = .error e ∧
        t = s.raise .illegal (commandInfo (v.setWidth 32))) := by
  unfold runCore at h
  split at h
  · rename_i hi
    exact .inl ⟨hi, (Host.Outcome.next.inj h).symm⟩
  · rename_i v hi
    split at h
    · exact .inr (.inl ⟨v, _, hi, ‹_›, h⟩)
    · exact .inr (.inr ⟨v, _, hi, ‹_›, (Host.Outcome.next.inj h).symm⟩)

/-- An access outside the window does nothing (R54). -/
theorem access_outside (s : State) (a : Access) (h : windowOffset s.build a.addr = none) : s.access a = s := by
  cases a <;> simp only [Access.addr] at h <;> simp [State.access, h]

/-- All that a turn can do, where it gives a next state. -/
theorem turn_cases {e : Event} {s t : State} (h : turn e s = .next t) :
    (e = .core ∧ runCore s = .next t) ∨ (∃ a, e = .access a ∧ t = s.access a ∧ (s.resetIn = false ∨ t = s)) ∨
      (e = .assertReset ∧ t = s.setResetIn true) ∨ (e = .releaseReset ∧ t = s.setResetIn false) := by
  cases e with
  | core => exact .inl ⟨rfl, h⟩
  | access a =>
    refine .inr (.inl ⟨a, rfl, ?_⟩)
    cases hr : s.resetIn
    · exact ⟨by simpa [turn, hostAccess, hr, eq_comm] using h, .inl rfl⟩
    · cases hw : windowOffset s.build a.addr with
      | none =>
        have ht : t = s.access a := by simpa [turn, hostAccess, hr, hw, eq_comm] using h
        exact ⟨ht, .inr (ht.trans (access_outside s a hw))⟩
      | some off => simp [turn, hostAccess, hr, hw] at h
  | assertReset => exact .inr (.inr (.inl ⟨rfl, (Host.Outcome.next.inj h).symm⟩))
  | releaseReset => exact .inr (.inr (.inr ⟨rfl, (Host.Outcome.next.inj h).symm⟩))

/-- All that a step can do, where it gives a next state. -/
theorem step_cases {s t : State} (h : step s = .next t) :
    (s.script = [] ∧ runCore s = .next t) ∨
      ∃ e rest, s.script = e :: rest ∧ turn e { s with script := rest } = .next t := by
  unfold step nextTurn at h
  split at h
  · exact .inl ⟨‹_›, h⟩
  · exact .inr ⟨_, _, ‹_›, h⟩

end Sys2Proof.Laws
end

