-- ==== Sys2Proof/Laws/Safety.lean ====
section
/-! SUPPORT. The small lemmas of the terms of Safety.lean: registers that hold logical values, and runs of commands. -/

set_option Elab.async false
set_option exponentiation.threshold 600

namespace Sys2Proof.Machine

open Sys2Proof.Laws

@[simp] theorem State.wrote_build (s : State) (d : FReg) (v : Nat) : (s.wrote d v).build = s.build := rfl
@[simp] theorem State.wrote_f (s : State) (d : FReg) (v : Nat) :
    (s.wrote d v).f = s.f.set d.val (some (toWord v)) := rfl
@[simp] theorem State.wrote_limbIn (s : State) (d : FReg) (v : Nat) : (s.wrote d v).limbIn = s.limbIn := rfl
@[simp] theorem State.wrote_hiIn (s : State) (d : FReg) (v : Nat) : (s.wrote d v).hiIn = s.hiIn := rfl
@[simp] theorem State.wrote_bytesIn (s : State) (d : FReg) (v : Nat) : (s.wrote d v).bytesIn = s.bytesIn := rfl
@[simp] theorem State.wrote_fault (s : State) (d : FReg) (v : Nat) : (s.wrote d v).fault = s.fault := rfl
@[simp] theorem State.wrote_inFlight (s : State) (d : FReg) (v : Nat) : (s.wrote d v).inFlight = none := rfl
@[simp] theorem State.wrote_inL (s : State) (d : FReg) (v : Nat) : (s.wrote d v).inL = s.inL := rfl

/-- The content of a register that holds a logical value. -/
theorem State.HoldsLogical.content {s : State} {r : FReg} {a : Nat} (h : s.HoldsLogical r a) :
    s.f[r.val] = some (toWord (mont s.build.pMod a)) ∧ a < s.build.pMod := by
  obtain ⟨x, hx, ha, he⟩ := h
  exact ⟨by rw [hx, ← he, toWord_toNat], ha⟩

/-- The content of a register that holds an image is that image. -/
theorem toNat_toWord_mont {p : Nat} (hp : GoodModulus p) (a : Nat) : (toWord (mont p a)).toNat = mont p a :=
  toNat_toWord _ (by have := mont_lt hp a; have := hp.lt; omega)

/-- Once the image of a canonical value is written, the register holds that value. -/
theorem State.holdsLogical_wrote {s : State} (hp : GoodModulus s.build.pMod) (d : FReg) {a : Nat}
    (ha : a < s.build.pMod) : (s.wrote d (mont s.build.pMod a)).HoldsLogical d a :=
  ⟨toWord (mont s.build.pMod a), by simp, ha, toNat_toWord_mont hp a⟩

/-- A register that is not written holds what it held. -/
theorem State.HoldsLogical.wrote_of_ne {s : State} {r d : FReg} {a v : Nat} (h : s.HoldsLogical r a) (hne : r ≠ d) :
    (s.wrote d v).HoldsLogical r a := by
  obtain ⟨x, hx, hi⟩ := h
  refine ⟨x, ?_, hi⟩
  rw [State.wrote_f, Vector.getElem_set_ne _ _ fun he => hne (Fin.ext he.symm)]
  exact hx

/-- A run of commands begins with the first. -/
theorem execAll_cons {i : Instr} {is : List Instr} {s t : State} (h : exec i s = .next t) :
    execAll (i :: is) s = execAll is t := by
  simp [execAll, h]

theorem SameBlock.refl (s : State) : SameBlock s s := rfl

theorem sameBlock_answer (s : State) (a : Answer) : SameBlock s (s.answer a) := rfl

/-- A write with a bus error leaves the block alone (R58, R137). -/
theorem sameBlock_badWrite (s : State) : SameBlock s s.badWrite := rfl

/-- The core's turn on a command that decodes is that command. -/
theorem coreDoes_eq {s : State} {v : Word64} {i : Instr} (h : s.inFlight = some v) (hd : decode v = .ok i) :
    coreDoes s = exec i s := by
  change runCore s = _
  unfold runCore
  simp only [h, hd]

end Sys2Proof.Machine
end

