-- ==== Sys2Proof/Tests/Slice0.lean ====
section
/-! SUPPORT. The tests: what the decoder refuses, words written out from R70 to R74, vectors of spec/95_test_vectors.md
(T and S numbers in the comments; the Fr column), and witnesses that the statements' hypotheses can be met. -/

set_option exponentiation.threshold 600
set_option Elab.async false

namespace Sys2Proof.Tests

open Sys2Proof.Machine

/-! ## WellFormed: one ill-formed CMD value for each check of R85, refused by the table and by the decoder -/

/-- The CMD value `n` is refused by the table of R75, and by the decoder with the given reason. -/
def refuses (reason : Reject) (n : Nat) : Bool :=
  !legalCmdValue (BitVec.ofNat 64 n) &&
    match decode (BitVec.ofNat 64 n) with
    | .ok _ => false
    | .error r => r == reason

/-- T9: bit 32 of the CMD write is set. -/
theorem test_refuses_high_half :
    legalCmdValue 0x100000009 = false ∧ decode 0x100000009 = .error .highHalf := by decide +kernel

/-- T7: bit 7 is set. -/
theorem test_refuses_bit_7 : legalCmdValue 0x89 = false ∧ decode 0x89 = .error .reservedBits := by decide +kernel

/-- T8, T19: a bit of [31:20] is set. -/
theorem test_refuses_reserved_field :
    legalCmdValue 0x100009 = false ∧ decode 0x100009 = .error .reservedBits ∧
      legalCmdValue 0xFF0F0D = false ∧ decode 0xFF0F0D = .error .reservedBits := by decide +kernel

/-- R77: every OPC value that is assigned to no command. -/
theorem test_refuses_unassigned_opcodes :
    ([0x00, 0x0F, 0x13, 0x14, 0x15, 0x16, 0x17, 0x1C, 0x1D, 0x1E, 0x1F] ++ (List.range 30).map (· + 0x22)).all
      (refuses .unassignedOpc) = true := by decide +kernel

/-- T6: U is set with an OPC other than 0x20. -/
theorem test_refuses_misplaced_U : legalCmdValue 0x49 = false ∧ decode 0x49 = .error .misplacedU := by decide +kernel

/-- T10, T11: FD of class A, FB of class A; and FA of class D, FD of class AB, FB of class DA. -/
theorem test_refuses_unused_fields :
    [0x10E, 0x1100D, 0x1009, 0x10C, 0x1000B].all (refuses .unusedField) = true := by decide +kernel

/-! ## Decoding: words written out bit by bit, fields RSV, FB, FA, FD, RSV7, U, OPC (R70, R74) -/

theorem test_decode_loads :
    decode 0b000000000000_0000_0000_1101_0_0_000001 = .ok (.fldraw 13) ∧
    decode 0b000000000000_0000_0000_1010_0_0_000010 = .ok (.fldl 10) ∧
    decode 0b000000000000_0000_0000_0111_0_0_000011 = .ok (.fldu56 7) ∧
    decode 0b000000000000_0000_0000_1111_0_0_000100 = .ok (.fldb 15) := by decide +kernel

theorem test_decode_exports :
    decode 0b000000000000_0000_1101_0000_0_0_000101 = .ok (.fstraw 13) ∧
    decode 0b000000000000_0000_1010_0000_0_0_000110 = .ok (.fstl 10) ∧
    decode 0b000000000000_0000_0111_0000_0_0_000111 = .ok (.fstb 7) ∧
    decode 0b000000000000_0000_0011_0000_0_0_001000 = .ok (.fstbits 3) := by decide +kernel

theorem test_decode_identities_and_predicates :
    decode 0b000000000000_0000_0000_1001_0_0_001001 = .ok (.fzero 9) ∧
    decode 0b000000000000_0000_0000_0110_0_0_001010 = .ok (.fone 6) ∧
    decode 0b000000000000_0000_0101_1100_0_0_001011 = .ok (.fneg 12 5) ∧
    decode 0b000000000000_1011_0100_0000_0_0_001100 = .ok (.feq 4 11) ∧
    decode 0b000000000000_0000_1110_0000_0_0_001101 = .ok (.fisz 14) ∧
    decode 0b000000000000_0000_0001_0000_0_0_001110 = .ok (.fisone 1) := by decide +kernel

theorem test_decode_add_sub :
    decode 0b000000000000_0011_1010_1101_0_0_010000 = .ok (.fadd 13 10 3) ∧
    decode 0b000000000000_0011_1010_1101_0_0_010001 = .ok (.fsub 13 10 3) ∧
    decode 0b000000000000_0000_0110_1001_0_0_010010 = .ok (.fdbl 9 6) := by decide +kernel

theorem test_decode_multiply :
    decode 0b000000000000_1100_0101_0000_0_0_011000 = .ok (.wmul 5 12) ∧
    decode 0b000000000000_0000_0000_0011_0_0_011001 = .ok (.redc 3) ∧
    decode 0b000000000000_0111_1011_1110_0_0_011010 = .ok (.fmul 14 11 7) ∧
    decode 0b000000000000_0000_1000_0100_0_0_011011 = .ok (.fsqr 4 8) := by decide +kernel

theorem test_decode_exponent :
    decode 0b000000000000_0000_1010_0101_0_0_100000 = .ok (.fpow 5 10) ∧
    decode 0b000000000000_0000_1010_0101_0_1_100000 = .ok (.fpowu 5 10) ∧
    decode 0b000000000000_0000_1001_0110_0_0_100001 = .ok (.finv 6 9) := by decide +kernel

/-! ## One step of each command on the Fr block (spec/95, sections 4 to 8) -/

/-- T22: the image of one (Fr). -/
def one : Nat := 0x7359fa88c59c9e89f6e5c105a695dd60d0e939ee8c1e556e4a771fc5ab5b8ba

/-- T23: the image of two (Fr). -/
def two : Nat := 0xe6b3f5118b393d13edcb820b4d2bbac1a1d273dd183caadc94ee3f8b56b7174

/-- T24: the image of three (Fr). -/
def three : Nat := 0x15a0def9a50d5db9de4b14310f3c1982272bbadcba45b004adf655f510212a2e

/-- T25: the image of five (Fr). -/
def five : Nat := 0x240c1e4abdc0f18b1d27cc51c40ed52e4148e21a8bc97ab2774539edc58c9ba2

/-- T26: the image of six (Fr). -/
def six : Nat := 0x2b41bdf34a1abb73bc9628621e7833044e5775b9748b60095becabea2042545c

/-- T27: the image of seven (Fr). -/
def seven : Nat := 0x2130f28f542e532a3b43ebbf760387d3332210fe393d4cefcb228528af80d15

/-- T30: the image of p - 1 (Fr). -/
def minusOne : Nat := 0x292eaeca54d7d64118e1e9a62717fa871b2554a990f78b3a5f3a8397954a4747

/-- An idle Fr block after reset. -/
def idle : State := State.initial Build.fr

/-- The same with the given images in F0 and F1. -/
def pair (x y : Nat) : State := { idle with f := (idle.f.set 0 (some (toWord x))).set 1 (some (toWord y)) }

/-- The same with the given numbers in LIMB_IN and HI_IN. -/
def limbs (lo hi : Nat) : State := { idle with limbIn := natToLimbs lo, hiIn := natToLimbs hi }

/-- The same with an image in F0 and an exponent in LIMB_IN. -/
def power (x e : Nat) : State := { pair x 0 with limbIn := natToLimbs e }

/-- What a field of the state is after the command. -/
def after {α : Type} (i : Instr) (s : State) (field : State → α) : Option α :=
  match exec i s with
  | .next t => some (field t)
  | .fault _ => none
  | .refused _ => none

/-- FAULT, FCODE, FINFO. -/
def faultRecord (s : State) : Bool × BitVec 8 × Word64 := (s.fault, s.fcode, s.finfo)

/-- T38. -/
theorem test_fldraw : after (.fldraw 0) (limbs one 0) (·.f[0]) = some (some (toWord one)) := by decide +kernel

/-- T40. -/
theorem test_fldraw_out_of_range :
    after (.fldraw 0) (limbs Build.fr.pMod 0) faultRecord = some (true, 0x04, 0x1) := by decide +kernel

/-- T32: the largest limb input. -/
theorem test_fldl_reduces :
    after (.fldl 1) (limbs (2 ^ 280 - 1) 0) (·.f[1]) =
      some (some 0x31005fe157fd0a353cf44eef921dd0befe7f4d542f6c51a1af3ba9b24990dfa) := by decide +kernel

/-- T31: the modulus itself. -/
theorem test_fldl_modulus : after (.fldl 1) (limbs Build.fr.pMod 0) (·.f[1]) = some (some 0) := by decide +kernel

/-- T33: only LIMB_IN0 is read. -/
theorem test_fldu56_one_limb :
    after (.fldu56 0) { idle with limbIn := #v[7, 0xffffffffffffff, 1, 2, 3] } (·.f[0]) =
      some (some (toWord seven)) := by decide +kernel

/-- T29. -/
theorem test_fldu56_largest :
    after (.fldu56 0) (limbs (2 ^ 56 - 1) 0) (·.f[0]) =
      some (some 0x181473b073739475ca28992beb29fcdc990b17c60591eef1ee190e5a9acf96d2) := by decide +kernel

/-- T34, T30: the largest byte input. -/
theorem test_fldb_largest :
    after (.fldb 0) { idle with bytesIn := #v[0x43e1f593f0000000, 0x2833e84879b97091, 0xb85045b68181585d,
      0x30644e72e131a029] } (·.f[0]) = some (some (toWord minusOne)) := by decide +kernel

/-- T35. -/
theorem test_fldb_not_canonical :
    after (.fldb 0) { idle with bytesIn := #v[0x43e1f593f0000001, 0x2833e84879b97091, 0xb85045b68181585d,
      0x30644e72e131a029] } faultRecord = some (true, 0x03, 0x4) := by decide +kernel

/-- T44b. -/
theorem test_fstraw :
    after (.fstraw 0) (pair minusOne 0) (·.limbOut) =
      some #v[0x3a8397954a4747, 0x54a990f78b3a5f, 0xa62717fa871b25, 0x54d7d64118e1e9, 0x292eaeca] := by decide +kernel

/-- T44b. -/
theorem test_fstl :
    after (.fstl 0) (pair minusOne 0) (·.limbOut) =
      some #v[0xe1f593f0000000, 0xe84879b9709143, 0xb68181585d2833, 0xe131a029b85045, 0x30644e72] := by decide +kernel

/-- T44b. -/
theorem test_fstb :
    after (.fstb 0) (pair minusOne 0) (·.bytesOut) =
      some #v[0x43e1f593f0000000, 0x2833e84879b97091, 0xb85045b68181585d, 0x30644e72e131a029] := by decide +kernel

/-- T44b: as a number, what FSTB writes. -/
theorem test_fstbits :
    after (.fstbits 0) (pair minusOne 0) (·.bytesOut) =
      some #v[0x43e1f593f0000000, 0x2833e84879b97091, 0xb85045b68181585d, 0x30644e72e131a029] := by decide +kernel

/-- T43b: entries 0 and 2. -/
theorem test_fstbits_five : after (.fstbits 0) (pair five 0) (·.bytesOut) = some #v[5, 0, 0, 0] := by decide +kernel

/-- T45. -/
theorem test_fzero : after (.fzero 1) (pair seven seven) (·.f[1]) = some (some 0) := by decide +kernel

/-- T46. -/
theorem test_fone : after (.fone 15) idle (·.f[15]) = some (some (toWord one)) := by decide +kernel

/-- T47. -/
theorem test_fneg_zero : after (.fneg 2 0) (pair 0 0) (·.f[2]) = some (some 0) := by decide +kernel

/-- T48, the destination being the source. -/
theorem test_fneg : after (.fneg 0 0) (pair one 0) (·.f[0]) = some (some (toWord minusOne)) := by decide +kernel

/-- T51, T52. -/
theorem test_feq : after (.feq 0 1) (pair five five) (·.pred) = some true ∧
    after (.feq 0 1) (pair five six) (·.pred) = some false := by decide +kernel

/-- T18: with neither source valid, E_UNINIT. -/
theorem test_feq_invalid : after (.feq 4 5) (pair five six) faultRecord = some (true, 0x02, 0x5400c) := by decide +kernel

/-- T54. -/
theorem test_fisz : after (.fisz 0) (pair 0 0) (·.pred) = some true ∧
    after (.fisz 0) (pair one 0) (·.pred) = some false := by decide +kernel

/-- T55. -/
theorem test_fisone : after (.fisone 0) (pair one 0) (·.pred) = some true ∧
    after (.fisone 0) (pair 1 0) (·.pred) = some false := by decide +kernel

/-- T57: the sum is `p`. -/
theorem test_fadd_wraps : after (.fadd 2 0 1) (pair minusOne one) (·.f[2]) = some (some 0) := by decide +kernel

/-- T56, the destination being a source. -/
theorem test_fadd : after (.fadd 1 0 1) (pair two three) (·.f[1]) = some (some (toWord five)) := by decide +kernel

/-- T60. -/
theorem test_fsub : after (.fsub 2 0 1) (pair five three) (·.f[2]) = some (some (toWord two)) := by decide +kernel

/-- T62: the borrow. -/
theorem test_fsub_borrows : after (.fsub 2 0 1) (pair 0 one) (·.f[2]) = some (some (toWord minusOne)) := by
  decide +kernel

/-- T65. -/
theorem test_fdbl : after (.fdbl 2 0) (pair three 0) (·.f[2]) = some (some (toWord six)) := by decide +kernel

/-- T69r. -/
theorem test_wmul : after (.wmul 0 1) (pair one one) (fun s => (s.limbOut, s.hiOut)) =
    some (#v[0xa82911844fe724, 0x86cf229babf175, 0x4bbdedb4ed0460, 0xe02d1adb59f5ca, 0xac8fc6d43dd5f9],
      #v[0xb1bac1def436ef, 0xb2aa582eb74ff1, 0x5ea4586bcc4b05, 0x33f9f6b709d388, 0x0]) := by decide +kernel

/-- T76: the largest accepted input. -/
theorem test_redc_largest :
    after (.redc 0) (limbs (2 ^ 280 - 1) (Build.fr.pMod - 1)) (·.f[0]) =
      some (some 0x217a22b1bad8fcafd5fa196a4d8cca80ba73d5e28d0d8525dc7e96aec1957db3) := by decide +kernel

/-- T77. -/
theorem test_redc_out_of_range :
    after (.redc 0) (limbs 0 Build.fr.pMod) faultRecord = some (true, 0x05, 0x19) := by decide +kernel

/-- The trace of section 7.3: the digits of REDC(1, 0). -/
theorem test_redc_digits :
    (List.range 5).map (redcDigit Build.fr.pMod 1 0) =
      [0xe1f593efffffff, 0x864b4c6911b3c2, 0x28990623916586, 0xd8341b2e39a98, 0x4ee6b273f82f1d] := by decide +kernel

/-- T79. -/
theorem test_fmul : after (.fmul 2 0 1) (pair two three) (·.f[2]) = some (some (toWord six)) := by decide +kernel

/-- T80, the destination being both sources. -/
theorem test_fmul_square : after (.fmul 0 0 0) (pair minusOne 0) (·.f[0]) = some (some (toWord one)) := by
  decide +kernel

/-- T83: the image of 49 (T28). -/
theorem test_fsqr :
    after (.fsqr 1 0) (pair seven 0) (·.f[1]) =
      some (some 0xe856a1eb4d4446279edb723c3a18b6c665ee76f390ad1a8e8df1a41ccc85b93) := by decide +kernel

/-- The value of 280 exponentiation steps on the Fr block, for the three tests below: the kernel would take minutes. -/
theorem montPow_fr (x : Word) (a e : Nat) (hx : x.toNat = mont Build.fr.pMod a) (he : e < 2 ^ 280) :
    montPow Build.fr.pMod x.toNat e = mont Build.fr.pMod (Laws.powMod Build.fr.pMod a 280 e) := by
  rw [hx, Laws.montPow_mont (Laws.goodModulus_of_valid Laws.fr_valid) a he, Laws.powMod_eq _ _ _ _ he, Laws.mont_mod]

/-- T95: the largest exponent. -/
theorem test_fpow_largest_exponent :
    after (.fpow 2 0) (power two (2 ^ 280 - 1)) (·.f[2]) =
      some (some (toWord (mont Build.fr.pMod
        0x24b09ba18f532b011db3e2c36e1ee3b88618511303dce1dff79373414aeead56))) := by
  have h := montPow_fr (toWord two) 2 (power two (2 ^ 280 - 1)).inL (by decide +kernel) (by decide +kernel)
  refine Eq.trans (b := some (some (toWord (montPow Build.fr.pMod (toWord two).toNat
    (power two (2 ^ 280 - 1)).inL)))) rfl ?_
  rw [h]
  decide +kernel

/-- T87. -/
theorem test_fpowu :
    after (.fpowu 3 0) (power three 4) (·.f[3]) = some (some (toWord (mont Build.fr.pMod 81))) := by
  have h := montPow_fr (toWord three) 3 (power three 4).inL (by decide +kernel) (by decide +kernel)
  refine Eq.trans (b := some (some (toWord (montPow Build.fr.pMod (toWord three).toNat (power three 4).inL)))) rfl ?_
  rw [h]
  decide +kernel

/-- T101: the value FINV computes and, as T102 shows of zero, checks. -/
theorem test_finv :
    finvCandidate Build.fr.pMod (toWord three).toNat =
      mont Build.fr.pMod 0x2042def740cbc01bd03583cf0100e59370229adafbd0f5b62d414e62a0000001 := by
  rw [finvCandidate, montPow_fr (toWord three) 3 (Build.fr.pMod - 2) (by decide +kernel) (by decide +kernel)]
  decide +kernel

/-- T102. -/
theorem test_finv_zero : after (.finv 1 0) (pair 0 0) faultRecord = some (true, 0x06, 0x121) := by decide +kernel

/-- The constants of section 2. -/
theorem test_constants :
    montOne Build.fr.pMod = one ∧ montPInv Build.fr.pMod = 0xe1f593efffffff ∧
      montR2 Build.fr.pMod = 0xa45a5a6a1d99a8bf33da0ff538b3ae1fcf688742bb8aa70ff9b2c977f4ec6b4 ∧
      montPInv Build.fq.pMod = 0xd20782e4866389 := by decide +kernel

/-! ## The window, faults and resets (spec/95, section 9) -/

/-- T109: F0 valid, `FPOW F1, F0` in flight. -/
def running : State := { pair seven 0 with f := idle.f.set 0 (some (toWord seven)), inFlight := some 0x120 }

/-- What a field of the state is after a host access. -/
def afterAccess {α : Type} (a : Access) (s : State) (field : State → α) : Option α :=
  match hostDoes a s with
  | .next t => some (field t)
  | .fault _ => none
  | .refused _ => none

/-- STATUS and FINFO as read. -/
def statusInfo (s : State) : Word64 × Word64 := (s.readReg .status, s.readReg .finfo)

/-- T103. -/
theorem test_reset_reads :
    statusInfo idle = (0, 0) ∧ idle.readReg .id = 0x00010120FE103805 ∧
      (State.initial Build.fq).readReg .id = 0x00010020FE103805 := by decide +kernel

/-- T108: the word 0. -/
theorem test_illegal_word :
    (match coreDoes { idle with inFlight := some 0 } with
      | .next t => some (statusInfo t)
      | .fault _ => none
      | .refused _ => none) = some (0x00000102, 0x0) := by decide +kernel

/-- T109: a write to LIMB_IN0. -/
theorem test_busy_input_write :
    afterAccess (.write 0x040 8 0x9) running statusInfo = some (0x00010802, 0x0000004000000120) ∧
      afterAccess (.write 0x040 8 0x9) running (·.limbIn) = some running.limbIn := by decide +kernel

/-- T110: a CMD write. -/
theorem test_busy_cmd_write :
    afterAccess (.write 0x018 8 0x21B) running statusInfo = some (0x00010802, 0x0000001800000120) := by decide +kernel

/-- T111: the soft reset. -/
theorem test_busy_soft_reset :
    afterAccess (.write 0x008 8 0x1) running statusInfo = some (0, 0) := by decide +kernel

/-- T113: a write to a read-only register. -/
theorem test_busy_read_only_write :
    afterAccess (.write 0x100 8 0x5) running (·.inFlight) = some (some 0x120) := by decide +kernel

/-- T105: a CMD write in the fault state. -/
theorem test_faulted_cmd_write :
    afterAccess (.write 0x018 8 0x9) { idle with fault := true, fcode := 2, finfo := 0xD } statusInfo =
      some (0x00000202, 0xD) := by decide +kernel

/-- T114, R58: which offsets an aligned 8-byte access reaches; every other access of the window is a bus error. -/
theorem test_reserved_offsets :
    (List.range 0x200).all (fun off => (reached off 8).isNone == decide (off % 8 ≠ 0 ∨ (0x028 ≤ off ∧ off ≤ 0x03F) ∨
      (0x068 ≤ off ∧ off ≤ 0x07F) ∨ (0x0A8 ≤ off ∧ off ≤ 0x0BF) ∨ (0x0E0 ≤ off ∧ off ≤ 0x0FF) ∨
      (0x128 ≤ off ∧ off ≤ 0x13F) ∨ (0x168 ≤ off ∧ off ≤ 0x17F) ∨ (0x1A0 ≤ off ∧ off ≤ 0x1FF))) = true ∧
      (reached 0x040 4).isNone = true := by decide +kernel

/-- R60, R137: a write that gets a bus error leaves the command in flight, and is a write for what is read next. -/
theorem test_busy_bad_write :
    afterAccess (.write 0x028 8 1) running (fun s => (s.inFlight, s.fault, s.draws)) = some (some 0x120, false, 1) ∧
      afterAccess (.read 0x028 8) running (·.draws) = some 0 := by decide +kernel

/-- R31: a limb register keeps 56 bits. -/
theorem test_limb_write_masked :
    afterAccess (.write 0x060 8 0xFFFFFFFFFFFFFFFF) idle (·.readReg (.limbIn 4)) = some 0x00FFFFFFFFFFFFFF := by
  decide +kernel

/-! ## Witnesses: for each statement with hypotheses, a state and operands that meet them together, clause by clause -/

/-- An idle Fr block with 7 in F0, 3 in F1 and the given numbers in LIMB_IN, HI_IN and BYTES_IN. -/
def sample (lo hi y : Nat) : State :=
  { pair seven three with limbIn := natToLimbs lo, hiIn := natToLimbs hi, bytesIn := natToByteBuf y }

/-- The Fr block in the fault state after E_UNINIT of `FISZ F0`. -/
def faulted : State := { idle with fault := true, fcode := 2, finfo := 0xD }

/-- A register whose content is the image of `a` holds the logical value `a`. -/
theorem holds {s : State} {r : FReg} {a : Nat} (x : Nat) (hx : s.f[r.val] = some (toWord x))
    (hi : IsImage s.build.pMod (toWord x).toNat a) : s.HoldsLogical r a := ⟨toWord x, hx, hi⟩

theorem sample_holds (lo hi y : Nat) :
    (sample lo hi y).HoldsLogical 0 7 ∧ (sample lo hi y).HoldsLogical 1 3 :=
  ⟨holds seven rfl (show 7 < Build.fr.pMod ∧ (toWord seven).toNat = mont Build.fr.pMod 7 by decide +kernel),
    holds three rfl (show 3 < Build.fr.pMod ∧ (toWord three).toNat = mont Build.fr.pMod 3 by decide +kernel)⟩

/-- What one finite check of the 16 registers says of a state. -/
theorem canonical_of {s : State}
    (h : ∀ i : FReg, (match s.f[i.val] with | some x => decide (x.toNat < s.build.pMod) | none => true) = true) :
    s.Canonical := by
  intro i x hx
  have := h i
  rw [hx] at this
  exact of_decide_eq_true this

theorem pair_canonical : (pair seven three).Canonical := canonical_of (by decide +kernel)

theorem zero_canonical : (pair 0 three).Canonical := canonical_of (by decide +kernel)

theorem pair_inv : (pair seven three).Inv :=
  ⟨Laws.fr_valid, pair_canonical, show _ ∧ _ from ⟨rfl, rfl⟩, nofun⟩

/-- WordEncodesRowExactlyIfMaskMatches: the first and the last row, and a word of one of them. -/
theorem test_witness_rows :
    (∃ r ∈ opcodeTable, (0x101 : CmdWord) &&& r.cls.mask = r.bitsFixed ∧ r.mnemonic = "FLDRAW") ∧
      ∃ r ∈ opcodeTable, (0xF021 : CmdWord) &&& r.cls.mask = r.bitsFixed ∧ r.mnemonic = "FINV" := by decide +kernel

/-- CommandRunsOrIsIllegal, FaultPriority: a command, and a value that is none. -/
theorem test_witness_in_flight :
    (running.inFlight = some 0x120 ∧ running.fault = false ∧ legalCmdValue 0x120 = true) ∧
      ({ idle with inFlight := some 0 } : State).fault = false ∧ legalCmdValue 0 = false := by decide +kernel

/-- StepRunsTheDecodedCommand, with nothing more to happen and with the core's turn next. -/
theorem test_witness_step_runs :
    running.inFlight = some 0x120 ∧ decode 0x120 = .ok (.fpow 1 0) ∧ running.script = [] ∧
      ({ running with script := [.core, .assertReset] } : State).script = .core :: [.assertReset] := by decide +kernel

/-- PlacedWordIsRunNext. -/
theorem test_witness_placed_word : decodeTableWord 32 0x120 = some (.fpow 1 0) := by decide +kernel

/-- CmdWrite, SoftReset, IgnoredWrites, ReadsHaveNoSideEffect, BusErrors: idle, running and faulted blocks out of
reset. -/
theorem test_witness_out_of_reset :
    (idle.resetIn = false ∧ idle.fault = false ∧ idle.inFlight = none) ∧
      (running.resetIn = false ∧ running.fault = false ∧ running.inFlight = some 0x120) ∧
      faulted.resetIn = false ∧ faulted.fault = true ∧ faulted.inFlight = none := by decide +kernel

/-- BusyWriteAborts: a write for each case. -/
theorem test_witness_busy_writes :
    ([WinReg.id, .status, .finfo, .limbOut 4, .hiOut 0, .bytesOut 3].all fun r =>
      afterAccess (.write (running.addrOf r) 8 1) running (·.inFlight) == some (some 0x120)) = true ∧
    afterAccess (.write (running.addrOf .ctrl) 8 2) running (·.inFlight) = some (some 0x120) ∧
    afterAccess (.write (running.addrOf .ctrl) 8 3) running (·.inFlight) = some none ∧
    ([WinReg.cmd, .limbIn 4, .hiIn 0, .bytesIn 3].all fun r =>
      afterAccess (.write (running.addrOf r) 8 1) running faultRecord ==
        some (true, 8, BitVec.ofNat 64 (0x120 + winOffset r * 2 ^ 32))) = true := by decide +kernel

/-- InputWriteReadsBack: the first and the last entry of each buffer, idle and faulted. -/
theorem test_witness_input_writes :
    ([WinReg.limbIn 0, .limbIn 4, .hiIn 0, .hiIn 4].all fun r => [idle, faulted].all fun s =>
      afterAccess (.write (s.addrOf r) 8 0xFF00000000000007) s (·.readReg r) == some 7) = true ∧
    ([WinReg.bytesIn 0, .bytesIn 3].all fun r => [idle, faulted].all fun s =>
      afterAccess (.write (s.addrOf r) 8 0xFF00000000000007) s (·.readReg r) == some 0xFF00000000000007) = true := by
  decide +kernel

/-- IgnoredWrites: the reserved bits of CTRL. -/
theorem test_witness_ctrl_bit_0_clear : (0xFFFFFFFFFFFFFFFE : Word64).getLsbD 0 = false := by decide +kernel

/-- BusErrors: both ends of every reserved range, a narrow and a misaligned access. -/
theorem test_witness_bus_errors :
    ([0x028, 0x038, 0x068, 0x078, 0x0A8, 0x0B8, 0x0E0, 0x0F8, 0x128, 0x138, 0x168, 0x178, 0x1A0, 0x1F8].all fun off =>
      afterAccess (.read off 8) idle (·.answers) == some [.busError]) = true ∧
    ([(0x040, 4), (0x041, 8), (0x1FF, 1), (0x03F, 8)].all fun a =>
      afterAccess (.write a.1 a.2 1) idle (·.answers) == some [.busError]) = true := by decide +kernel

/-- WindowMap: the last register of the window, and an offset without one. -/
theorem test_witness_window_map : winRegAt 0x198 = some (.bytesOut 3) ∧ winRegAt 0x1A0 = none := by decide +kernel

/-- StatusFields: the destination of FPOW F1, F0 in flight, and a register that is none; a predicate command in flight. -/
theorem test_witness_status :
    running.runningOutput = some (.reg 1) ∧ running.validBit 0 = true ∧ running.validBit 1 = false ∧
      ({ running with inFlight := some 0xD } : State).runningOutput = some .pred := by decide +kernel

/-- IdValues: both kinds of build. -/
theorem test_witness_id : (State.initial Build.fq).build.Valid ∧ (State.initial Build.fq).build.pMod = Build.fqModulus ∧
    idle.build.Valid ∧ idle.build.pMod = Build.frModulus := ⟨Laws.fq_valid, rfl, Laws.fr_valid, rfl⟩

/-- R10: no block has Fq with MODSEL 1 or Fr with MODSEL 0. -/
theorem test_modsel_names_the_modulus :
    ¬ ({ Build.fq with modsel := 1 } : Build).ModselNames ∧ ¬ ({ Build.fr with modsel := 0 } : Build).ModselNames := by
  decide +kernel

/-- ReadsOfWhatIsNotBeingWritten: a command in flight that writes no buffer, one for each buffer, and none. -/
theorem test_witness_buffer_reads :
    running.runningOutput = some (.reg 1) ∧ ({ running with inFlight := some 0x5 } : State).runningOutput = some .limbs ∧
      ({ running with inFlight := some 0x18 } : State).runningOutput = some .wide ∧
      ({ running with inFlight := some 0x7 } : State).runningOutput = some .bytes ∧ idle.inFlight = none := by
  decide +kernel

/-- ResetStateValues: a state like the initial one, and one whose reset is released. -/
theorem test_witness_reset_state :
    SameBlock (State.initial Build.fr) { idle with answers := [.ack], draws := 3 } ∧
      ∃ t, step { running with script := [.releaseReset] } = .next t := ⟨rfl, _, rfl⟩

/-- HardReset: the first and the last offset of the window of a held block, and the first address behind it. -/
theorem test_witness_hard_reset :
    hostDoes (.read 0x000 8) { idle with resetIn := true } = .fault .heldInReset ∧
      hostDoes (.write 0x1FF 1 0) { idle with resetIn := true } = .fault .heldInReset ∧
      hostDoes (.read 0x200 8) { idle with resetIn := true } = .next { idle with resetIn := true } := ⟨rfl, rfl, rfl⟩

/-- InvalidSourceFaults, FaultPriority: a command of one and one of two sources, the second invalid. -/
theorem test_witness_invalid_source :
    (∃ r ∈ sourcesOf (.fisz 2), (pair seven three).validBit r = false) ∧
      (∃ r ∈ sourcesOf (.fmul 0 1 15), (pair seven three).validBit r = false) ∧ (pair seven three).validBit 1 = true := by
  decide +kernel

/-- ValueChecksFault: each check at the least value it refuses. -/
theorem test_witness_value_checks :
    idle.fault = false ∧ (sample 0 0 Build.fr.pMod).build.pMod ≤ (sample 0 0 Build.fr.pMod).inY ∧
      (sample Build.fr.pMod 0 0).build.pMod ≤ (sample Build.fr.pMod 0 0).inL ∧
      (sample 0 Build.fr.pMod 0).build.pMod ≤ (sample 0 Build.fr.pMod 0).inH ∧ (pair 0 three).f[0] = some 0 := by
  decide +kernel

/-- FaultPriority: all sources valid, with each value check and with none. -/
theorem test_witness_fault_priority :
    (∀ r ∈ sourcesOf (.fpow 1 0), running.validBit r = true) ∧ (∃ t, coreDoes running = .next t) ∧
      (∀ r ∈ sourcesOf (.redc 3), running.validBit r = true) ∧ (∀ r ∈ sourcesOf (.finv 3 0), running.validBit r = true) ∧
      ∃ t, coreDoes { pair 0 three with inFlight := some 0x121 } = .next t ∧ t.fcode = 0x06 := by
  refine ⟨by decide +kernel, ⟨_, rfl⟩, by decide +kernel, by decide +kernel, _, rfl, by decide +kernel⟩

/-- InverseCheckNeverFails: FINV of zero. -/
theorem test_witness_inverse :
    (pair 0 three).build.Valid ∧ (pair 0 three).Canonical ∧ (pair 0 three).fault = false ∧
      ∃ t, exec (.finv 2 0) (pair 0 three) = .next t ∧ t.fault = true :=
  ⟨Laws.fr_valid, zero_canonical, rfl, _, rfl, by decide +kernel⟩

/-- FaultingCommandLeavesTheRest: a fault of the command's own, and an abort. -/
theorem test_witness_faulting_command :
    (∃ t, exec (.wmul 0 2) (pair seven three) = .next t ∧ t.fault = true) ∧
      running.inFlight = some (cmdValue (encode (.fpow 1 0))) ∧
      ∃ t, hostDoes (.write (running.addrOf .cmd) 8 0) running = .next t ∧ t.fault = true :=
  ⟨⟨_, rfl, by decide +kernel⟩, by decide +kernel, _, rfl, by decide +kernel⟩

/-- FaultStaysUntilReset: a step that is no reset, and the three that are. -/
theorem test_witness_fault_state :
    faulted.fault = true ∧ faulted.FaultRecord ∧ (∃ t, step faulted = .next t ∧ t.fault = true) ∧
      (∃ t, step { faulted with script := [.assertReset] } = .next t ∧ t.fault = false) ∧
      (∃ t, step { faulted with script := [.releaseReset] } = .next t ∧ t.fault = false) ∧
      ∃ t, hostDoes (.write (faulted.addrOf .ctrl) 8 1) faulted = .next t ∧ t.fault = false := by
  refine ⟨rfl, show _ ∧ _ by decide +kernel, ⟨_, rfl, rfl⟩, ⟨_, rfl, rfl⟩, ⟨_, rfl, rfl⟩, _, rfl, by decide +kernel⟩

/-- RegisterCommandsFrame, BufferCommandsFrame, PredicateCommandsFrame: a command of each kind that completes, and one
that faults. -/
theorem test_witness_frames :
    (∃ t, exec (.fadd 2 0 1) (pair seven three) = .next t ∧ t.fault = false) ∧
      (∃ t, exec (.fadd 2 0 3) (pair seven three) = .next t ∧ t.fault = true) ∧
      (∃ t, exec (.fstraw 0) (pair seven three) = .next t ∧ t.fault = false) ∧
      (∃ t, exec (.wmul 0 1) (pair seven three) = .next t ∧ t.fault = false) ∧
      (∃ t, exec (.fstb 3) (pair seven three) = .next t ∧ t.fault = true) ∧
      (∃ t, exec (.feq 0 1) (pair seven three) = .next t ∧ t.fault = false) ∧
      ∃ t, exec (.feq 0 3) (pair seven three) = .next t ∧ t.fault = true := by
  refine ⟨⟨_, rfl, ?_⟩, ⟨_, rfl, ?_⟩, ⟨_, rfl, ?_⟩, ⟨_, rfl, ?_⟩, ⟨_, rfl, ?_⟩, ⟨_, rfl, ?_⟩, _, rfl, ?_⟩ <;>
    decide +kernel

/-- RawLoadAndExport, CanonicalLoads, ReduceCommand, RoundTrips: the largest inputs accepted. -/
theorem test_witness_inputs :
    (sample (Build.fr.pMod - 1) 0 0).inL < Build.fr.pMod ∧ (sample 0 (Build.fr.pMod - 1) 0).inH < Build.fr.pMod ∧
      (sample 0 0 (Build.fr.pMod - 1)).inY < Build.fr.pMod ∧ (pair seven three).f[0] = some (toWord seven) ∧
      Build.fr.Valid :=
  ⟨by decide +kernel, by decide +kernel, by decide +kernel, rfl, Laws.fr_valid⟩

/-- LimbExport, ByteExport, BitExport, Negation, Predicates, AddSubDouble, MultiplySquare, Exponentiation, Inversion: two
registers that hold logical values. -/
theorem test_witness_logical_values :
    (sample 5 0 0).build.Valid ∧ (sample 5 0 0).HoldsLogical 0 7 ∧ (sample 5 0 0).HoldsLogical 1 3 ∧ (7 : Nat) ≠ 0 :=
  ⟨Laws.fr_valid, (sample_holds 5 0 0).1, (sample_holds 5 0 0).2, by decide⟩

/-- WideningMultiply: contents below the modulus, and contents that are not. -/
theorem test_witness_wide_multiply :
    (pair seven three).f[0] = some (toWord seven) ∧ (toWord seven).toNat < Build.fr.pMod ∧
      (pair (2 ^ 280 - 1) Build.fr.pMod).f[1] = some (toWord Build.fr.pMod) ∧
      Build.fr.pMod ≤ (toWord Build.fr.pMod).toNat := by decide +kernel

/-- FieldLaws: three logical values, two of them in one register, registers for the intermediate results, and a register
that holds zero. -/
theorem test_witness_field_laws :
    (sample 0 0 0).build.Valid ∧ (sample 0 0 0).HoldsLogical 0 7 ∧ (sample 0 0 0).HoldsLogical 1 3 ∧
      (sample 0 0 0).HoldsLogical 0 7 ∧ (2 : FReg) ≠ 0 ∧ (3 : FReg) ≠ 0 ∧ (3 : FReg) ≠ 1 ∧ (3 : FReg) ≠ 4 ∧
      (pair seven 0).HoldsLogical 0 7 ∧ (pair seven 0).HoldsLogical 1 0 :=
  ⟨Laws.fr_valid, (sample_holds 0 0 0).1, (sample_holds 0 0 0).2, (sample_holds 0 0 0).1, by decide, by decide,
    by decide, by decide, holds seven rfl (show _ ∧ _ by decide +kernel), holds 0 rfl (show _ ∧ _ by decide +kernel)⟩

/-- MultiplicationLaws: 2 and 3. -/
theorem test_witness_multiplication_laws :
    (pair two three).build.Valid ∧ (pair two three).HoldsLogical 0 2 ∧ (pair two three).HoldsLogical 1 3 ∧
      (2 : FReg) ≠ 0 :=
  ⟨Laws.fr_valid, holds two rfl (show _ ∧ _ by decide +kernel),
    holds three rfl (show _ ∧ _ by decide +kernel), by decide⟩

/-- ExponentLaws: the exponents 0, 1 and 2 with base 7, and base 0. -/
theorem test_witness_exponent_laws :
    ((sample 0 0 0).build.Valid ∧ (sample 0 0 0).fault = false ∧ (sample 0 0 0).HoldsLogical 0 7 ∧
        (sample 0 0 0).inL = 0) ∧
      ((sample 1 0 0).HoldsLogical 0 7 ∧ (sample 1 0 0).inL = 1) ∧
      ((sample 2 0 0).HoldsLogical 0 7 ∧ (sample 2 0 0).inL = 2) ∧
      ((power 0 1).HoldsLogical 0 0 ∧ 0 < (power 0 1).inL) ∧ (1 : FReg) ≠ 0 :=
  ⟨⟨Laws.fr_valid, rfl, (sample_holds 0 0 0).1, by decide +kernel⟩, ⟨(sample_holds 1 0 0).1, by decide +kernel⟩,
    ⟨(sample_holds 2 0 0).1, by decide +kernel⟩,
    ⟨holds 0 rfl (show _ ∧ _ by decide +kernel), by decide +kernel⟩, by decide⟩

/-- HardwiredConstants, ReduceClosedForm, CarryAndBorrowChains, ByteBufferValue: the largest arguments. -/
theorem test_witness_arguments :
    (31 : Fin 32).val = 8 * (3 : Fin 4).val + (7 : Fin 8).val ∧ Build.fq.Valid ∧ Build.fr.Valid ∧
      2 ^ 280 - 1 < 2 ^ 280 ∧ Build.fr.pMod - 1 < Build.fr.pMod ∧
      Build.fr.pMod - 1 < 2 ^ 280 ∧ ∃ t, step running = .next t :=
  ⟨rfl, Laws.fq_valid, Laws.fr_valid, by decide +kernel, by decide +kernel, by decide +kernel, _, rfl⟩

/-- StepKeepsInv, ResetHasInv, ValidRegistersHoldLogicalValues: a state with the invariant, and a step from it. -/
theorem test_witness_inv :
    (pair seven three).Inv ∧ (pair seven three).f[0] = some (toWord seven) ∧ (∃ t, step (pair seven three) = .next t) ∧
      Build.fq.Valid := ⟨pair_inv, rfl, ⟨_, rfl⟩, Laws.fq_valid⟩

/-- ValidBits: a register command that completes and one that faults, a reset, and a step that sets the bit. -/
theorem test_witness_valid_bits :
    (∃ t, exec (.fone 5) (pair seven three) = .next t ∧ t.fault = false ∧ t.validBit 5 = true) ∧
      (∃ t, exec (.fneg 5 5) (pair seven three) = .next t ∧ t.fault = true ∧ t.validBit 5 = false) ∧
      (∃ t, step { pair seven three with script := [.assertReset] } = .next t ∧ t.validBit 0 = false) ∧
      ∃ t, step { pair seven three with inFlight := some 0x50A } = .next t ∧ t.validBit 5 = true := by
  refine ⟨⟨_, rfl, ?_⟩, ⟨_, rfl, ?_⟩, ⟨_, rfl, ?_⟩, _, rfl, ?_⟩ <;> decide +kernel

/-- PredChangesOnlyByPredicates: FISZ of zero, and a reset. -/
theorem test_witness_pred :
    (∃ t, step { pair 0 three with inFlight := some 0xD } = .next t ∧ t.pred ≠ false) ∧
      ∃ t, step { idle with pred := true, script := [.assertReset] } = .next t ∧ t.pred ≠ true := by
  refine ⟨⟨_, rfl, ?_⟩, _, rfl, ?_⟩ <;> decide +kernel

/-- OperandsHeldWhileRunning: a read, an abort and a soft reset. -/
theorem test_witness_operands :
    (∃ t, hostDoes (.read 0x010 8) running = .next t ∧ t.inFlight = some 0x120) ∧
      (∃ t, hostDoes (.write 0x040 8 1) running = .next t ∧ t.inFlight = none) ∧
      ∃ t, hostDoes (.write 0x008 8 1) running = .next t ∧ t.inFlight = none := by
  refine ⟨⟨_, rfl, ?_⟩, ⟨_, rfl, ?_⟩, _, rfl, ?_⟩ <;> decide +kernel

/-- EveryCommandCompletes, LatencyDoesNotChangeResult: a host that polls STATUS twice, or not at all. -/
theorem test_witness_polls :
    ∃ polls : List Event, polls = [.access (.read 0x010 8), .access (.read 0x010 8)] ∧
      (∀ e ∈ polls, isHostRead e = true) ∧ (∀ e ∈ ([] : List Event), isHostRead e = true) ∧
      ({ running with script := polls } : State).resetIn = false ∧
      ({ running with script := polls } : State).inFlight = some 0x120 ∧
      ({ running with script := polls } : State).script = polls :=
  ⟨_, rfl, by decide, by decide, rfl, rfl, rfl⟩

end Sys2Proof.Tests
end

/-! # Proofs: the scope of the model (00_scope.md)

The hardwired constants, the value of a byte buffer, the turn of the core, and the invariant of the machine. -/

section
/-! ## What a turn leaves alone -/

namespace Sys2Proof.Machine

open Sys2Proof.Laws

/-- The core's turn on a command that decodes is that command (R64, R85). -/
theorem runCore_eq_exec {s : State} {v : Word64} {i : Instr} (h : s.inFlight = some v) (hd : decode v = .ok i) :
    runCore s = exec i s := by
  simp [runCore, h, hd]

theorem step_of_script_nil {s : State} (h : s.script = []) : step s = runCore s := by
  simp [step, nextTurn, h]

theorem step_of_script_cons {s : State} {e : Event} {rest : List Event} (h : s.script = e :: rest) :
    step s = turn e { s with script := rest } := by
  simp [step, nextTurn, h]

/-- A host access leaves the block as it is, or as one write to a register leaves it, but for the answers and draws. -/
theorem State.access_sameBlock_or_write (s : State) (a : Access) :
    SameBlock s (s.access a) ∨ ∃ r v, SameBlock (s.writeReg r v) (s.access a) := by
  rcases s.access_cases a with h | h | h | ⟨r, h⟩ | ⟨r, v, h⟩ <;> rw [h]
  · exact .inl (SameBlock.refl s)
  · exact .inl (sameBlock_answer s _)
  · exact .inl (sameBlock_badWrite s)
  · exact .inl (sameBlock_answer s _)
  · exact .inr ⟨r, v, rfl⟩

theorem SameBlock.build_eq {s t : State} (h : SameBlock s t) : t.build = s.build := by
  rw [h]

/-- No command changes the build (R8, R9). -/
theorem exec_build {i : Instr} {s t : State} (h : exec i s = .next t) : t.build = s.build := by
  rcases exec_inv h with hc | ⟨c, -, rfl⟩
  · exact hc.frame.1
  · exact s.fail_build i c

theorem exec_resetIn {i : Instr} {s t : State} (h : exec i s = .next t) : t.resetIn = s.resetIn := by
  rcases exec_inv h with hc | ⟨c, -, rfl⟩
  · obtain ⟨-, -, -, -, -, -, -, -, -, -, -, -, hreset, -⟩ := hc.frame
    exact hreset
  · exact s.fail_resetIn i c

theorem runCore_build {s t : State} (h : runCore s = .next t) : t.build = s.build := by
  rcases runCore_cases h with ⟨-, rfl⟩ | ⟨v, i, -, -, he⟩ | ⟨v, e, -, -, rfl⟩
  · rfl
  · exact exec_build he
  · exact s.raise_build _ _

theorem State.writeReg_build (s : State) (r : WinReg) (v : Word64) : (s.writeReg r v).build = s.build := by
  rcases s.writeReg_cases r v with h | h | ⟨run, off, -, -, h⟩ | ⟨-, -, h⟩ | ⟨-, l, hi, b, h⟩ <;> rw [h]
  · exact s.clear_build
  · exact s.abort_build run off

theorem State.access_build (s : State) (a : Access) : (s.access a).build = s.build := by
  rcases s.access_sameBlock_or_write a with h | ⟨r, v, h⟩
  · exact h.build_eq
  · exact h.build_eq.trans (s.writeReg_build r v)

theorem turn_build {e : Event} {s t : State} (h : turn e s = .next t) : t.build = s.build := by
  rcases turn_cases h with ⟨-, hc⟩ | ⟨a, -, rfl, -⟩ | ⟨-, rfl⟩ | ⟨-, rfl⟩
  · exact runCore_build hc
  · exact s.access_build a
  · rfl
  · rfl

/-- No step changes the build (R8, R9). -/
theorem step_build {s t : State} (h : step s = .next t) : t.build = s.build := by
  rcases step_cases h with ⟨-, hc⟩ | ⟨e, rest, -, ht⟩
  · exact runCore_build hc
  · exact (turn_build ht).trans rfl

end Sys2Proof.Machine
end

section
/-! ## The datapath answers canonical values (R22) -/

set_option exponentiation.threshold 600

namespace Sys2Proof.Laws

open Sys2Proof.Machine

variable {p : Nat}

theorem GoodModulus.lt_two_pow (hp : GoodModulus p) : p < 2 ^ 279 := by
  have := hp.lt
  omega

theorem toWord_toNat_lt {n : Nat} (h : n < p) : (toWord n).toNat < p := by
  rw [toWord, BitVec.toNat_ofNat]
  exact lt_of_le_of_lt (Nat.mod_le _ _) h

theorem montOne_lt (hp : GoodModulus p) : montOne p < p := Nat.mod_lt _ hp.prime.pos

theorem toMont_lt (hp : GoodModulus p) {v : Nat} (hv : v < 2 ^ 280) : toMont p v < p :=
  toMont_eq hp hv ▸ mont_lt hp v

theorem modAdd_lt (hp : GoodModulus p) {x y : Nat} (hx : x < p) (hy : y < p) : modAdd p x y < p :=
  modAdd_eq p x y hp.lt_two_pow hx hy ▸ Nat.mod_lt _ hp.prime.pos

theorem modSub_lt (hp : GoodModulus p) {x y : Nat} (hx : x < p) (hy : y < p) : modSub p x y < p :=
  modSub_eq p x y hp.lt_two_pow hx hy ▸ Nat.mod_lt _ hp.prime.pos

theorem modNeg_lt (hp : GoodModulus p) {x : Nat} (hx : x < p) : modNeg p x < p :=
  modNeg_eq p x hx ▸ Nat.mod_lt _ hp.prime.pos

theorem redc_lt (hp : GoodModulus p) {lo hi : Nat} (hlo : lo < 2 ^ 280) (hhi : hi < p) : redc p lo hi < p :=
  (redc_spec p lo hi hp.odd (by have := hp.lt_two_pow; omega) hlo hhi).1

theorem montMul_lt (hp : GoodModulus p) {x y : Nat} (hx : x < p) (hy : y < p) : montMul p x y < p :=
  (montMul_modEq hp (by have := hp.lt_two_pow; omega) hy).1

/-- A canonical base is an image, so its power is one, whatever the exponent (R120). -/
theorem montPow_lt (hp : GoodModulus p) {x e : Nat} (hx : x < p) (he : e < 2 ^ 280) : montPow p x e < p := by
  obtain ⟨a, -, rfl⟩ := exists_image hp hx
  rw [montPow_mont hp a he]
  exact mont_lt hp _

theorem finvCandidate_lt (hp : GoodModulus p) {x : Nat} (hx : x < p) : finvCandidate p x < p :=
  montPow_lt hp hx (by have := hp.lt_two_pow; omega)

/-- A canonical content is the image of exactly one logical value (R15, R22). -/
theorem existsUnique_isImage (hp : GoodModulus p) {x : Nat} (hx : x < p) :
    ∃ a, IsImage p x a ∧ ∀ a', IsImage p x a' → a' = a := by
  obtain ⟨a, ha, he⟩ := exists_image hp hx
  exact ⟨a, ⟨ha, he⟩, fun a' ⟨ha', he'⟩ => mont_inj hp ha' ha (he'.symm.trans he)⟩

end Sys2Proof.Laws
end

section
/-! ## Canonical registers (R22, R27) -/

set_option exponentiation.threshold 600

namespace Sys2Proof.Machine

open Sys2Proof.Laws

/-- Where neither the registers nor the build change, the registers stay canonical. -/
theorem State.Canonical.of_eq {s t : State} (hc : s.Canonical) (hf : t.f = s.f) (hb : t.build = s.build) :
    t.Canonical := by
  intro r x hx
  rw [hb]
  exact hc r x (by rwa [hf] at hx)

/-- A completed write of a canonical value leaves the registers canonical (R29). -/
theorem State.Canonical.putF_done {s : State} (hc : s.Canonical) (d : FReg) {v : Word}
    (hv : v.toNat < s.build.pMod) : (s.putF d v).done.Canonical := by
  intro r x hx
  change (s.f.set d.val (some v))[r.val] = some x at hx
  by_cases hr : d.val = r.val
  · simp only [hr, Vector.getElem_set_self, Option.some.injEq] at hx
    exact hx ▸ hv
  · rw [Vector.getElem_set_ne _ _ hr] at hx
    exact hc r x hx

/-- `putF_done` for a result of the datapath. -/
theorem State.Canonical.putF_toWord_done {s : State} (hc : s.Canonical) (d : FReg) {n : Nat}
    (hn : n < s.build.pMod) : (s.putF d (toWord n)).done.Canonical :=
  hc.putF_done d (toWord_toNat_lt hn)

/-- A command that uses a source keeps the registers canonical if its rest does so for every canonical operand. -/
theorem State.Canonical.useF {s : State} (hc : s.Canonical) {i : Instr} {r : FReg} {k : Word → State}
    (hk : ∀ x : Word, x.toNat < s.build.pMod → (k x).Canonical) : (s.useF i r k).Canonical := by
  rcases s.useF_cases i r k with ⟨x, hx, h⟩ | ⟨-, h⟩ <;> rw [h]
  · exact hk x (hc r x hx)
  · exact hc.of_eq (s.fail_f i _) (s.fail_build i _)

/-- A command whose destination is no register leaves the registers canonical (R76). -/
theorem exec_canonical_of_no_destination {i : Instr} {s t : State} (hc : s.Canonical)
    (hi : ∀ d, outputOf i ≠ .reg d) (h : exec i s = .next t) : t.Canonical := by
  refine hc.of_eq ?_ (exec_build h)
  rcases exec_inv h with hcomp | ⟨c, -, rfl⟩
  · rcases hcomp.registers with ⟨d, v, hd, -⟩ | ⟨-, hf⟩
    · exact absurd hd (hi d)
    · exact hf
  · exact s.fail_f i c

/-- Every command leaves the registers canonical: what it writes is below `p`, and a faulting command writes no register
(R22, R27; log 6). -/
theorem exec_canonical {i : Instr} {s t : State} (hp : GoodModulus s.build.pMod) (hc : s.Canonical)
    (h : exec i s = .next t) : t.Canonical := by
  have hL : s.inL < 2 ^ 280 := limbsToNat_lt s.limbIn
  have hfail : ∀ i c, (s.fail i c).Canonical := fun i c => hc.of_eq (s.fail_f i c) (s.fail_build i c)
  have hput : ∀ (d : FReg) {n : Nat}, n < s.build.pMod → (s.putF d (toWord n)).done.Canonical :=
    fun d _ => hc.putF_toWord_done d
  cases i with
  | fldraw d =>
    cases h
    split
    · exact hput d ‹_›
    · exact hfail _ _
  | fldl d => cases h; exact hput d (toMont_lt hp hL)
  | fldu56 d => cases h; exact hput d (toMont_lt hp (by have := s.limbIn[0].isLt; omega))
  | fldb d =>
    cases h
    split
    · exact hput d (toMont_lt hp (by have := hp.lt_two_pow; omega))
    · exact hfail _ _
  | fzero d => cases h; exact hc.putF_done d hp.prime.pos
  | fone d => cases h; exact hput d (montOne_lt hp)
  | fneg d a => cases h; exact hc.useF fun x hx => hput d (modNeg_lt hp hx)
  | fadd d a b => cases h; exact hc.useF fun x hx => hc.useF fun y hy => hput d (modAdd_lt hp hx hy)
  | fsub d a b => cases h; exact hc.useF fun x hx => hc.useF fun y hy => hput d (modSub_lt hp hx hy)
  | fdbl d a => cases h; exact hc.useF fun x hx => hput d (modAdd_lt hp hx hx)
  | redc d =>
    cases h
    split
    · exact hput d (redc_lt hp hL ‹_›)
    · exact hfail _ _
  | fmul d a b => cases h; exact hc.useF fun x hx => hc.useF fun y hy => hput d (montMul_lt hp hx hy)
  | fsqr d a => cases h; exact hc.useF fun x hx => hput d (montMul_lt hp hx hx)
  | fpow d a => cases h; exact hc.useF fun x hx => hput d (montPow_lt hp hx hL)
  | fpowu d a => cases h; exact hc.useF fun x hx => hput d (montPow_lt hp hx hL)
  | finv d a =>
    cases h
    refine hc.useF fun x hx => ?_
    split
    · exact hfail _ _
    · split
      · exact hfail _ _
      · exact hput d (finvCandidate_lt hp hx)
  | fstraw | fstl | fstb | fstbits | feq | fisz | fisone | wmul =>
    exact exec_canonical_of_no_destination hc (by simp [outputOf]) h

end Sys2Proof.Machine
end

section
/-! ## The fault record (R41, R43, R45, R126, R128) -/

namespace Sys2Proof.Machine

open Sys2Proof.Laws

theorem FaultCode.byte_range (c : FaultCode) : 1 ≤ c.byte.toNat ∧ c.byte.toNat ≤ 8 := by
  cases c <;> decide

theorem FaultCode.byte_ne_eight {c : FaultCode} (h : c.byte ≠ 8) : c ≠ .busy := by
  rintro rfl
  exact h rfl

/-- FINFO of a command's own fault is a 32-bit word (R45). -/
theorem commandInfo_lt (w : CmdWord) : (commandInfo w).toNat < 2 ^ 32 := by
  rw [commandInfo, BitVec.toNat_setWidth]
  exact lt_of_le_of_lt (Nat.mod_le _ _) w.isLt

/-- FINFO of E_BUSY has 44 bits: a word, and an offset above it (R45). -/
theorem busyInfo_lt (w : CmdWord) (off : Nat) : (busyInfo w off).toNat < 2 ^ 44 := by
  have hw := w.isLt
  rw [busyInfo, BitVec.toNat_ofNat]
  omega

/-- A raised fault is recorded (R126). -/
theorem State.raise_faulted (s : State) (c : FaultCode) (w : Word64) : Faulted s (s.raise c w) c.byte w := by
  refine ⟨rfl, rfl, ?_⟩
  cases h : s.fault <;> simp [h]

/-- An abort is recorded as E_BUSY (R136). -/
theorem State.abort_faulted (s : State) (v : Word64) (off : Nat) :
    Faulted s (s.abort v off) FaultCode.busy.byte (busyInfo (v.setWidth 32) off) := by
  refine ⟨by simp, by simp, ?_⟩
  cases h : s.fault <;> simp [h]

/-- Taking a fault keeps the record consistent: of a second fault nothing is recorded (R43). -/
theorem Faulted.faultRecord {s t : State} {c : FaultCode} {w : Word64} (h : Faulted s t c.byte w)
    (hs : s.FaultRecord) (hw : w.toNat < 2 ^ 44) (hw' : c ≠ .busy → w.toNat < 2 ^ 32) : t.FaultRecord := by
  obtain ⟨hfault, hidle, hrec⟩ := h
  rw [State.FaultRecord, if_pos hfault]
  refine ⟨hidle, ?_⟩
  rw [State.FaultRecord] at hs
  split at hs
  next hf =>
    rw [if_pos hf] at hrec
    obtain ⟨hcode, hinfo⟩ := hrec
    rw [hcode, hinfo]
    exact hs.2
  next hf =>
    rw [if_neg hf] at hrec
    obtain ⟨hcode, hinfo⟩ := hrec
    rw [hcode, hinfo]
    exact ⟨c.byte_range.1, c.byte_range.2, hw, fun h8 => hw' (FaultCode.byte_ne_eight h8)⟩

/-- A fault of a command's own keeps the record consistent. -/
theorem Faulted.faultRecord_of_command {s t : State} {c : FaultCode} {w : CmdWord}
    (h : Faulted s t c.byte (commandInfo w)) (hs : s.FaultRecord) : t.FaultRecord :=
  h.faultRecord hs (by have := commandInfo_lt w; omega) fun _ => commandInfo_lt w

/-- Where the fault is as it was and no command has been started, the record stays consistent. -/
theorem State.FaultRecord.of_eq {s t : State} (hs : s.FaultRecord) (hf : t.fault = s.fault)
    (hcode : t.fcode = s.fcode) (hinfo : t.finfo = s.finfo) (hidle : t.inFlight = s.inFlight ∨ t.inFlight = none) :
    t.FaultRecord := by
  simp only [State.FaultRecord, hf, hcode, hinfo] at hs ⊢
  split at hs
  next h =>
    obtain ⟨hnone, hrest⟩ := hs
    rw [if_pos h]
    exact ⟨hidle.elim (·.trans hnone) id, hrest⟩
  next h => rwa [if_neg h]

/-- Every command leaves a consistent fault record (R126). -/
theorem exec_faultRecord {i : Instr} {s t : State} (hs : s.FaultRecord) (h : exec i s = .next t) : t.FaultRecord := by
  rcases exec_inv h with hc | ⟨c, -, rfl⟩
  · obtain ⟨-, -, -, -, -, -, -, -, hf, hcode, hinfo, hidle, -⟩ := hc.frame
    exact hs.of_eq hf hcode hinfo (.inr hidle)
  · exact (fail_frame s i c).2.faultRecord_of_command hs

end Sys2Proof.Machine
end

section
/-! ## The invariant -/

namespace Sys2Proof.Machine

open Sys2Proof.Laws

theorem State.ResetHeld.of_released {s : State} (h : s.resetIn = false) : s.ResetHeld := by
  intro hr
  rw [h] at hr
  cases hr

/-- A block with a command in flight is not held in reset (R150; log 10). -/
theorem State.ResetHeld.released_of_inFlight {s : State} {v : Word64} (h : s.ResetHeld) (hv : s.inFlight = some v) :
    s.resetIn = false := by
  refine Bool.eq_false_iff.mpr fun hr => ?_
  have hidle : s.inFlight = none := congrArg State.inFlight (h hr).symm
  rw [hidle] at hv
  cases hv

/-- The invariant speaks of the block alone, not of the model's record of its surroundings. -/
theorem SameBlock.inv {s t : State} (h : SameBlock s t) (hs : s.Inv) : t.Inv := by
  obtain ⟨hb, hc, hf, hr⟩ := hs
  rw [h]
  refine ⟨hb, hc, hf, fun hreset => ?_⟩
  change { s.clear with script := t.script, answers := t.answers, draws := t.draws } = _
  rw [hr hreset]

/-- A reset of any block establishes the invariant (R52, R150). -/
theorem State.setResetIn_inv {s : State} (hb : s.build.Valid) (level : Bool) : (s.setResetIn level).Inv := by
  refine ⟨hb, fun r x hx => ?_, ⟨rfl, rfl⟩, fun _ => rfl⟩
  change (Vector.replicate 16 (none : Option Word))[r.val] = some x at hx
  simp at hx

theorem State.clear_inv {s : State} (hb : s.build.Valid) : s.clear.Inv := s.setResetIn_inv hb s.resetIn

/-- The core's turn keeps the invariant: only a block out of reset runs a command (R149, R150). -/
theorem runCore_inv {s t : State} (hs : s.Inv) (h : runCore s = .next t) : t.Inv := by
  obtain ⟨hb, hc, hf, hr⟩ := hs
  rcases runCore_cases h with ⟨-, rfl⟩ | ⟨v, i, hv, -, he⟩ | ⟨v, e, hv, -, rfl⟩
  · exact ⟨hb, hc, hf, hr⟩
  · have hout : t.resetIn = s.resetIn := exec_resetIn he
    exact ⟨exec_build he ▸ hb, exec_canonical (goodModulus_of_valid hb) hc he, exec_faultRecord hf he,
      .of_released (hout.trans (hr.released_of_inFlight hv))⟩
  · exact ⟨hb, hc.of_eq rfl rfl, (s.raise_faulted _ _).faultRecord_of_command hf,
      .of_released (hr.released_of_inFlight hv)⟩

/-- A host write to a register of a block out of reset keeps the invariant (R46, R136, R142, R151). -/
theorem State.writeReg_inv {s : State} (hs : s.Inv) (hout : s.resetIn = false) (r : WinReg) (v : Word64) :
    (s.writeReg r v).Inv := by
  obtain ⟨hb, hc, hf, hr⟩ := hs
  rcases s.writeReg_cases r v with h | h | ⟨run, off, -, -, h⟩ | ⟨hfault, -, h⟩ | ⟨-, l, hi, b, h⟩ <;> rw [h]
  · exact ⟨hb, hc, hf, hr⟩
  · exact s.clear_inv hb
  · exact ⟨s.abort_build run off ▸ hb, hc.of_eq (s.abort_f run off) (s.abort_build run off),
      (s.abort_faulted run off).faultRecord hf (busyInfo_lt _ _) fun hne => absurd rfl hne,
      .of_released ((s.abort_resetIn run off).trans hout)⟩
  · refine ⟨hb, hc, ?_, .of_released hout⟩
    simpa [State.FaultRecord, hfault] using hf
  · exact ⟨hb, hc, hf, .of_released hout⟩

/-- A host access to a block out of reset keeps the invariant. -/
theorem State.access_inv {s : State} (hs : s.Inv) (hout : s.resetIn = false) (a : Access) : (s.access a).Inv := by
  rcases s.access_sameBlock_or_write a with h | ⟨r, v, h⟩
  · exact h.inv hs
  · exact h.inv (s.writeReg_inv hs hout r v)

/-- Every turn keeps the invariant; a block held in reset is not touched by the host (R150). -/
theorem turn_inv {e : Event} {s t : State} (hs : s.Inv) (h : turn e s = .next t) : t.Inv := by
  have hb : s.build.Valid := hs.1
  rcases turn_cases h with ⟨-, hc⟩ | ⟨a, -, ht, hout | hsame⟩ | ⟨-, rfl⟩ | ⟨-, rfl⟩
  · exact runCore_inv hs hc
  · exact ht ▸ s.access_inv hs hout a
  · exact hsame ▸ hs
  · exact s.setResetIn_inv hb true
  · exact s.setResetIn_inv hb false

theorem step_inv {s t : State} (hs : s.Inv) (h : step s = .next t) : t.Inv := by
  rcases step_cases h with ⟨-, hc⟩ | ⟨e, rest, -, ht⟩
  · exact runCore_inv hs hc
  · have hblock : SameBlock s { s with script := rest } := rfl
    exact turn_inv (hblock.inv hs) ht

end Sys2Proof.Machine
end

section
/-! ## Byte buffers (R14, R32, R55) -/

set_option exponentiation.threshold 600

namespace Sys2Proof.Laws

open Sys2Proof.Machine

/-- The 32 bytes of a buffer are the bytes of its four registers, eight each (R32). -/
theorem finRange_bytes : List.finRange 32 = (List.finRange 4).flatMap fun m => (List.finRange 8).map fun j =>
    (⟨8 * m.val + j.val, by omega⟩ : Fin 32) := by
  decide

/-- The four registers of a byte buffer as digits of any radix, register 0 least significant. -/
theorem byteBuf_sum_radix (b : ByteBuf) (x : Nat) :
    ((List.finRange 4).map fun m => b[m.val].toNat * x ^ m.val).sum =
      b[0].toNat + b[1].toNat * x + b[2].toNat * x ^ 2 + b[3].toNat * x ^ 3 := by
  simp [List.finRange_succ, Nat.add_assoc]

/-- The value of a byte buffer by its four registers, as a sum (R32). -/
theorem byteBufToNat_eq_sum_registers (b : ByteBuf) :
    byteBufToNat b = ((List.finRange 4).map fun m => b[m.val].toNat * (2 ^ 64) ^ m.val).sum := by
  rw [byteBuf_sum_radix]
  simp only [byteBufToNat, ← pow_mul]

/-- A register of a byte buffer, at its place in the value, is the sum of its eight bytes at theirs (R14, R32). -/
theorem byteBuf_register_eq_sum (b : ByteBuf) (m : Fin 4) :
    b[m.val].toNat * (2 ^ 64) ^ m.val = ((List.finRange 8).map fun j =>
      (byteOf b ⟨8 * m.val + j.val, by omega⟩).toNat * 2 ^ (8 * (8 * m.val + j.val))).sum := by
  have hplace : ∀ j, 2 ^ (8 * (8 * m.val + j)) = 2 ^ (8 * j) * (2 ^ 64) ^ m.val := fun j => by
    rw [← pow_mul, ← pow_add]
    congr 1
    omega
  rw [byteBuf_register b m.val m.isLt]
  simp only [hplace]
  generalize (2 ^ 64) ^ m.val = x
  simp [List.finRange_succ, Nat.add_mul, Nat.add_assoc, Nat.mul_assoc]

/-- The value of a byte buffer by its bytes (R14). -/
theorem byteBufToNat_eq_sum (b : ByteBuf) :
    byteBufToNat b = ((List.finRange 32).map fun k => (byteOf b k).toNat * 2 ^ (8 * k.val)).sum := by
  rw [byteBufToNat_eq_sum_registers, finRange_bytes, List.map_flatMap, List.flatMap_def, List.sum_flatten]
  simp only [byteBuf_register_eq_sum, List.map_map, Function.comp_def]

/-- Byte `j` of register `m` of BYTES_IN, as the host reads it, is byte `8m + j` of the buffer (R32, R55). -/
theorem windowByte_readReg_bytesIn (s : State) (m : Fin 4) (j : Fin 8) :
    windowByte (s.readReg (.bytesIn m)) j = byteOf s.bytesIn ⟨8 * m.val + j.val, by omega⟩ := by
  have hm : (8 * m.val + j.val) / 8 = m.val := by omega
  have hj : (8 * m.val + j.val) % 8 = j.val := by omega
  simp only [windowByte, State.readReg, byteOf, hm, hj]

end Sys2Proof.Laws
end

section
/-! ## The obligations -/

namespace Sys2Proof.Proofs

open Sys2Proof.Machine Sys2Proof.Laws

/-- Settles O6: a script that is used up and one that begins with the core's turn both give that turn, which runs the
command that decodes. -/
theorem stepRunsTheDecodedCommand : Obligations.StepRunsTheDecodedCommand := by
  intro s v i hv hd
  refine ⟨fun hs => ?_, fun rest hs => ?_⟩
  · rw [step_of_script_nil hs, runCore_eq_exec hv hd]
  · rw [step_of_script_cons hs]
    exact runCore_eq_exec (s := { s with script := rest }) hv hd

/-- Settles O48: the values by the specification of P_INV, the frame by `step_build`. -/
theorem hardwiredConstants : Obligations.HardwiredConstants := by
  refine ⟨fun b hb => ⟨rfl, rfl, montPInv_lt _, ?_⟩, fun s t h => step_build h⟩
  rw [Nat.add_comm]
  exact Nat.mod_eq_zero_of_dvd (dvd_one_add_mul_montPInv _ (goodModulus_of_valid hb).odd)

/-- Settles O51, from the value of a buffer by its bytes and the byte of the window at each address. -/
theorem byteBufferValue : Obligations.ByteBufferValue := by
  refine ⟨byteBufToNat_eq_sum, fun s m j k hk => ⟨by simp only [winOffset]; omega, ?_⟩⟩
  have hbyte : k = ⟨8 * m.val + j.val, by omega⟩ := Fin.ext hk
  rw [hbyte, windowByte_readReg_bytesIn]

/-- Settles O54: the invariant makes the content canonical, and the Montgomery map is a bijection below `p`. -/
theorem validRegistersHoldLogicalValues : Obligations.ValidRegistersHoldLogicalValues := by
  rintro s r x ⟨hb, hc, -, -⟩ hx
  exact existsUnique_isImage (goodModulus_of_valid hb) (hc r x hx)

/-- Settles O52, by the inversion of a step: the turns of core, host and platform each keep the invariant. -/
theorem stepKeepsInv : Obligations.StepKeepsInv :=
  fun _ _ => step_inv

end Sys2Proof.Proofs
end

/-! # Proofs: the state (10_state.md)

The register window and what its registers read as, host writes, the reset state, the fault state, and what a step does
to the VALID bits, to PRED and to the command in flight. -/

section
/-! ## The window map (R37) and a host access to a register of it -/

namespace Sys2Proof.Machine

open Sys2Proof.Laws

/-- The register found at an offset stands there. -/
theorem winOffset_of_winRegAt {off : Nat} {r : WinReg} (h : winRegAt off = some r) : off = winOffset r :=
  (beq_iff_eq.mp (List.find?_some (p := fun r => winOffset r == off) h)).symm

/-- Every register is found at its offset: no two share one (R37). -/
theorem winRegAt_winOffset (r : WinReg) : winRegAt (winOffset r) = some r := by
  cases r with
  | id | ctrl | status | cmd | finfo => rfl
  | limbIn j | hiIn j | bytesIn j | limbOut j | hiOut j | bytesOut j => revert j; decide

theorem winOffset_lt_windowSize (r : WinReg) : winOffset r < windowSize := by
  cases r <;> simp only [winOffset, windowSize] <;> omega

theorem reached_winOffset (r : WinReg) : reached (winOffset r) 8 = some r := by
  have haligned : winOffset r % 8 = 0 := by cases r <;> simp only [winOffset] <;> omega
  rw [reached, if_pos ⟨rfl, haligned⟩, winRegAt_winOffset]

theorem State.windowOffset_addrOf (s : State) (r : WinReg) : windowOffset s.build (s.addrOf r) = some (winOffset r) :=
  windowOffset_base_add s.build _ (winOffset_lt_windowSize r)

/-- The address of an access to the window is its offset away from the base (R54). -/
theorem windowOffset_eq_some {b : Build} {addr off : Nat} (h : windowOffset b addr = some off) :
    addr = b.windowBase + off := by
  unfold windowOffset at h
  split at h
  · cases h; omega
  · cases h

/-- The host's turn on a block out of reset is the access itself (R150). -/
theorem hostDoes_eq_access {s : State} (h : s.resetIn = false) (a : Access) : hostDoes a s = .next (s.access a) := by
  change hostAccess s a = _
  simp [hostAccess, h]

/-- The host's turn, where the machine goes on, is the access itself. -/
theorem eq_access_of_hostDoes {a : Access} {s t : State} (h : hostDoes a s = .next t) : t = s.access a := by
  change (if _ then _ else _) = Host.Outcome.next t at h
  split at h
  · cases h
  · exact (Host.Outcome.next.inj h).symm

/-- A host write of 8 bytes at the address of a register is the write to that register (R54, R58). -/
theorem hostDoes_write {s : State} (h : s.resetIn = false) (r : WinReg) (v : Word64) :
    hostDoes (.write (s.addrOf r) 8 v) s = .next (s.hostWrite r v) := by
  rw [hostDoes_eq_access h]
  simp only [State.access, s.windowOffset_addrOf, reached_winOffset]

/-- A host read changes nothing but the answers given (R60). -/
theorem State.access_read (s : State) (addr width : Nat) :
    ∃ answers, s.access (.read addr width) = { s with answers } := by
  simp only [State.access]
  split
  · exact ⟨_, rfl⟩
  · split <;> exact ⟨_, rfl⟩

/-- An access leaves the block as it is, unless it is an 8-byte write at the address of a register (R54, R58). -/
theorem State.access_sameBlock_or_addrOf (s : State) (a : Access) :
    SameBlock s (s.access a) ∨ ∃ r v, a = .write (s.addrOf r) 8 v ∧ s.access a = s.hostWrite r v := by
  cases a with
  | read addr width =>
    obtain ⟨answers, h⟩ := s.access_read addr width
    rw [h]
    exact .inl rfl
  | write addr width v =>
    simp only [State.access]
    split
    · exact .inl (SameBlock.refl s)
    next off hoff =>
      split
      · exact .inl (sameBlock_badWrite s)
      next r hr =>
        obtain ⟨rfl, rfl⟩ := reached_some hr
        exact .inr ⟨r, v, by rw [windowOffset_eq_some hoff, State.addrOf], rfl⟩

end Sys2Proof.Machine
end

section
/-! ## Host writes (R38, R46, R47, R136, R142) -/

namespace Sys2Proof.Machine

open Sys2Proof.Laws

theorem SameBlock.trans {s t u : State} (hst : SameBlock s t) (htu : SameBlock t u) : SameBlock s u := by
  rw [SameBlock, htu, hst]

/-- A host write does to the block what the write to the register does. -/
theorem sameBlock_hostWrite (s : State) (r : WinReg) (v : Word64) : SameBlock (s.writeReg r v) (s.hostWrite r v) := rfl

/-- A host write that the register ignores leaves the block as it is. -/
theorem sameBlock_hostWrite_of_eq {s u : State} {r : WinReg} {v : Word64} (h : s.writeReg r v = u) :
    SameBlock u (s.hostWrite r v) :=
  h ▸ sameBlock_hostWrite s r v

/-- A host write of 8 bytes at the address of a register leaves the block as the write to the register does. -/
theorem exists_hostDoes_write {s u : State} {r : WinReg} {v : Word64} {P : State → Prop} (hr : s.resetIn = false)
    (hw : s.writeReg r v = u) (hP : ∀ t, SameBlock u t → P t) :
    ∃ t, hostDoes (.write (s.addrOf r) 8 v) s = .next t ∧ SameBlock u t ∧ P t :=
  ⟨_, hostDoes_write hr r v, sameBlock_hostWrite_of_eq hw, hP _ (sameBlock_hostWrite_of_eq hw)⟩

theorem State.writeReg_answers (s : State) (r : WinReg) (v : Word64) : (s.writeReg r v).answers = s.answers := by
  rcases s.writeReg_cases r v with h | h | ⟨run, off, -, -, h⟩ | ⟨-, -, h⟩ | ⟨-, l, hi, b, h⟩ <;> rw [h]
  · exact s.clear_answers
  · exact s.abort_answers run off

/-- Every host write to a register is acknowledged (R46, R47, R136). -/
@[simp] theorem State.hostWrite_answers (s : State) (r : WinReg) (v : Word64) :
    (s.hostWrite r v).answers = s.answers ++ [.ack] := by
  change (s.writeReg r v).answers ++ [.ack] = _
  rw [s.writeReg_answers]

/-- A write of CTRL with bit 0 set is the soft reset (R38, R151). -/
theorem State.writeReg_ctrl_reset (s : State) {v : Word64} (h : v.getLsbD 0 = true) : s.writeReg .ctrl v = s.clear :=
  if_pos h

/-- A write of CTRL with bit 0 clear does nothing (R38). -/
theorem State.writeReg_ctrl_ignored (s : State) {v : Word64} (h : v.getLsbD 0 = false) : s.writeReg .ctrl v = s :=
  if_neg (Bool.eq_false_iff.mp h)

/-- On an idle block a write to a register of LIMB_IN stores 56 bits (R31). -/
theorem State.writeReg_limbIn {s : State} (h : s.inFlight = none) (j : Fin 5) (v : Word64) :
    s.writeReg (.limbIn j) v = { s with limbIn := s.limbIn.set j.val (v.setWidth 56) } := by
  simp [State.writeReg, State.writeInput, h]

theorem State.writeReg_hiIn {s : State} (h : s.inFlight = none) (j : Fin 5) (v : Word64) :
    s.writeReg (.hiIn j) v = { s with hiIn := s.hiIn.set j.val (v.setWidth 56) } := by
  simp [State.writeReg, State.writeInput, h]

theorem State.writeReg_bytesIn {s : State} (h : s.inFlight = none) (m : Fin 4) (v : Word64) :
    s.writeReg (.bytesIn m) v = { s with bytesIn := s.bytesIn.set m.val v } := by
  simp [State.writeReg, State.writeInput, h]

/-- The three cases of a CMD write (R46). -/
theorem State.writeReg_cmd_of_fault {s : State} (h : s.fault = true) (v : Word64) : s.writeReg .cmd v = s := if_pos h

theorem State.writeReg_cmd_of_running {s : State} {run : Word64} (hf : s.fault = false) (h : s.inFlight = some run)
    (v : Word64) : s.writeReg .cmd v = s.abort run (winOffset .cmd) := by
  simp [State.writeReg, State.writeCmd, hf, h]

theorem State.writeReg_cmd_of_idle {s : State} (hf : s.fault = false) (h : s.inFlight = none) (v : Word64) :
    s.writeReg .cmd v = { s with inFlight := some v } := by
  simp [State.writeReg, State.writeCmd, hf, h]

/-- In the fault state a write is the soft reset or changes the input buffers at most (R46, R141, R142). -/
theorem State.writeReg_of_fault {s : State} (hf : s.fault = true) (hi : s.inFlight = none) (r : WinReg) (v : Word64) :
    (r = .ctrl ∧ v.getLsbD 0 = true ∧ s.writeReg r v = s.clear) ∨
      ∃ l h b, s.writeReg r v = { s with limbIn := l, hiIn := h, bytesIn := b } := by
  cases r with
  | id | status | finfo | limbOut | hiOut | bytesOut => exact .inr ⟨_, _, _, rfl⟩
  | ctrl =>
    cases hv : v.getLsbD 0 with
    | true => exact .inl ⟨rfl, rfl, s.writeReg_ctrl_reset hv⟩
    | false => exact .inr ⟨_, _, _, s.writeReg_ctrl_ignored hv⟩
  | cmd => exact .inr ⟨_, _, _, State.writeReg_cmd_of_fault hf v⟩
  | limbIn j => exact .inr ⟨_, _, _, State.writeReg_limbIn hi j v⟩
  | hiIn j => exact .inr ⟨_, _, _, State.writeReg_hiIn hi j v⟩
  | bytesIn m => exact .inr ⟨_, _, _, State.writeReg_bytesIn hi m v⟩

/-- FINFO of E_BUSY holds the word in its low half and the offset above it (R45). -/
theorem busyInfo_toNat (w : CmdWord) {off : Nat} (h : off < 2 ^ 12) :
    (busyInfo w off).toNat = w.toNat + off * 2 ^ 32 := by
  have hw := w.isLt
  rw [busyInfo, BitVec.toNat_ofNat]
  omega

end Sys2Proof.Machine
end

section
/-! ## What the registers read as (R31 to R34, R36, R39) -/

namespace Sys2Proof.Machine

open Sys2Proof.Laws

@[simp] theorem limbRead_toNat (l : Limb) : (limbRead l).toNat = l.toNat := by
  have hl := l.isLt
  rw [limbRead, BitVec.toNat_setWidth]
  omega

/-- A limb register reads below 2^56, whatever it holds (R31, U7). -/
theorem limbRead_toNat_lt (l : Limb) : (limbRead l).toNat < 2 ^ 56 := by
  rw [limbRead_toNat]
  exact l.isLt

theorem State.limbOutBusy_eq_false {s : State} (hl : s.runningOutput ≠ some .limbs)
    (hw : s.runningOutput ≠ some .wide) : s.limbOutBusy = false := by
  simp [State.limbOutBusy, hl, hw]

theorem State.hiOutBusy_eq_false {s : State} (h : s.runningOutput ≠ some .wide) : s.hiOutBusy = false := by
  simp [State.hiOutBusy, h]

theorem State.bytesOutBusy_eq_false {s : State} (h : s.runningOutput ≠ some .bytes) : s.bytesOutBusy = false := by
  simp [State.bytesOutBusy, h]

theorem State.predRead_of_ne {s : State} (h : s.runningOutput ≠ some .pred) : s.predRead = s.pred := by
  simp [State.predRead, h]

theorem State.validRead_of_ne {s : State} {i : FReg} (h : s.runningOutput ≠ some (.reg i)) :
    s.validRead i = s.validBit i := by
  simp [State.validRead, h]

theorem State.validRead_of_validBit {s : State} {i : FReg} (h : s.validBit i = true) : s.validRead i = true := by
  simp [State.validRead, h]

theorem State.runningOutput_of_idle {s : State} (h : s.inFlight = none) : s.runningOutput = none := by
  simp [State.runningOutput, h]

/-- Only a command in flight has an output. -/
theorem State.runningOutput_eq_some {s : State} {o : Output} (h : s.runningOutput = some o) :
    ∃ v i, s.inFlight = some v ∧ decode v = .ok i ∧ outputOf i = o := by
  unfold State.runningOutput at h
  split at h
  · cases h
  next v hv =>
    split at h
    next i hd => exact ⟨v, i, hv, hd, Option.some.inj h⟩
    · cases h

/-- ID of a build with MODSEL 0 and with MODSEL 1 (R36). -/
theorem idValue_of_modsel_zero {b : Build} (h : b.modsel = 0) : idValue b = 0x00010020FE103805 := by
  simp [idValue, h]

theorem idValue_of_modsel_one {b : Build} (h : b.modsel = 1) : idValue b = 0x00010120FE103805 := by
  simp [idValue, h]

/-- Flags, each at the place of its number in a sum, are the bits of the sum. -/
theorem foldr_flags_eq_packed {n : Nat} (f : Fin n → Bool) :
    (List.finRange n).foldr (fun i m => (f i).toNat * 2 ^ i.val + m) 0 =
      (List.ofFn f).foldr (fun (e : Bool) m => e.toNat + 2 * m) 0 := by
  induction n with
  | zero => rfl
  | succ n ih =>
    have hdouble : ∀ l : List (Fin n), l.foldr (fun i m => (f i.succ).toNat * 2 ^ i.succ.val + m) 0 =
        2 * l.foldr (fun i m => (f i.succ).toNat * 2 ^ i.val + m) 0 := by
      intro l
      induction l with
      | nil => rfl
      | cons i l ihl =>
        rw [List.foldr_cons, List.foldr_cons, ihl, Fin.val_succ]
        ring
    rw [List.finRange_succ, List.ofFn_succ, List.foldr_cons, List.foldr_cons, List.foldr_map, hdouble, ih]
    simp

/-- Bit `i` of the VALID field as read is the VALID bit of register `i` as read (R44). -/
theorem State.validMask_testBit (s : State) (i : Nat) :
    s.validMask.testBit i = if h : i < 16 then s.validRead ⟨i, h⟩ else false := by
  rw [State.validMask, foldr_flags_eq_packed, testBit_packed, List.getD_eq_getElem?_getD, List.getElem?_ofFn]
  split <;> rfl

theorem State.validMask_lt (s : State) : s.validMask < 2 ^ 16 := by
  refine Nat.lt_pow_two_of_testBit _ fun i hi => ?_
  rw [s.validMask_testBit, dif_neg (by omega)]

/-- The number STATUS reads as, cut at the ends of its fields (R39). -/
theorem State.statusRead_toNat_fields (s : State) :
    s.statusRead.toNat / 2 ^ 0 % 2 = s.busy.toNat ∧ s.statusRead.toNat / 2 ^ 1 % 2 = s.fault.toNat ∧
      s.statusRead.toNat / 2 ^ 2 % 2 = s.predRead.toNat ∧ s.statusRead.toNat / 2 ^ 3 % 2 ^ 5 = 0 ∧
      s.statusRead.toNat / 2 ^ 8 % 2 ^ 8 = s.fcode.toNat ∧ s.statusRead.toNat / 2 ^ 16 = s.validMask ∧
      s.statusRead.toNat / 2 ^ 32 % 2 ^ 32 = 0 := by
  have hb := s.busy.toNat_le
  have hf := s.fault.toNat_le
  have hp := s.predRead.toNat_le
  have hc := s.fcode.isLt
  have hm := s.validMask_lt
  rw [State.statusRead, BitVec.toNat_ofNat]
  refine ⟨?_, ?_, ?_, ?_, ?_, ?_, ?_⟩ <;> omega

/-- A bit of a register value, by the number the register holds. -/
theorem getLsbD_eq_of_toNat {x : Word64} {k : Nat} {b : Bool} (h : x.toNat / 2 ^ k % 2 = b.toNat) :
    x.getLsbD k = b := by
  rw [← BitVec.testBit_toNat, Nat.testBit_eq_decide_div_mod_eq, h]
  cases b <;> rfl

/-- A field of a register value, by the number the register holds. -/
theorem extractLsb'_eq_of_toNat {x : Word64} {k n : Nat} {y : BitVec n} (h : x.toNat / 2 ^ k % 2 ^ n = y.toNat) :
    x.extractLsb' k n = y := by
  rw [← BitVec.toNat_inj, BitVec.extractLsb'_toNat, Nat.shiftRight_eq_div_pow, h]

/-- The fields of STATUS below VALID, and the bits above it (R39); PRED as it reads. -/
theorem State.statusRead_fields (s : State) :
    s.statusRead.getLsbD 0 = s.busy ∧ s.statusRead.getLsbD 1 = s.fault ∧ s.statusRead.getLsbD 2 = s.predRead ∧
      s.statusRead.extractLsb' 3 5 = 0 ∧ s.statusRead.extractLsb' 8 8 = s.fcode ∧
      s.statusRead.extractLsb' 32 32 = 0 := by
  obtain ⟨hbusy, hfault, hpred, hlow, hcode, -, hhigh⟩ := s.statusRead_toNat_fields
  exact ⟨getLsbD_eq_of_toNat hbusy, getLsbD_eq_of_toNat hfault, getLsbD_eq_of_toNat hpred,
    extractLsb'_eq_of_toNat hlow, extractLsb'_eq_of_toNat hcode, extractLsb'_eq_of_toNat hhigh⟩

/-- Bit `16 + i` of STATUS is the VALID bit of register `i` as it reads (R39, R44). -/
theorem State.statusRead_valid (s : State) (i : FReg) : s.statusRead.getLsbD (16 + i.val) = s.validRead i := by
  obtain ⟨-, -, -, -, -, hmask, -⟩ := s.statusRead_toNat_fields
  rw [← BitVec.testBit_toNat, Nat.add_comm, ← Nat.testBit_div_two_pow, hmask, s.validMask_testBit, dif_pos i.isLt]

end Sys2Proof.Machine
end

section
/-! ## The reset state (R52, R150, R151) -/

namespace Sys2Proof.Machine

open Sys2Proof.Laws

/-- Every piece of the block in `t` is at its reset value, the reset input aside (R52). -/
def AtReset (b : Build) (t : State) : Prop := SameBlock { State.initial b with resetIn := t.resetIn } t

theorem State.clear_atReset (s : State) : AtReset s.build s.clear := rfl

theorem State.setResetIn_atReset (s : State) (level : Bool) : AtReset s.build (s.setResetIn level) := rfl

/-- Once the reset input is released, the state at reset is the initial state. -/
theorem AtReset.initial {b : Build} {t : State} (h : AtReset b t) (hr : t.resetIn = false) :
    SameBlock (State.initial b) t := by
  rw [AtReset, hr] at h
  exact h

theorem AtReset.of_initial {b : Build} {t : State} (h : SameBlock (State.initial b) t) : AtReset b t := by
  have hr : t.resetIn = false := by rw [h]; rfl
  rw [AtReset, hr]
  exact h

theorem AtReset.of_sameBlock {b : Build} {t u : State} (h : AtReset b t) (htu : SameBlock t u) : AtReset b u := by
  have hr : u.resetIn = t.resetIn := by rw [htu]
  rw [AtReset, hr]
  exact SameBlock.trans h htu

theorem AtReset.pred {b : Build} {t : State} (h : AtReset b t) : t.pred = false := by
  rw [h]; rfl

theorem AtReset.inFlight {b : Build} {t : State} (h : AtReset b t) : t.inFlight = none := by
  rw [h]; rfl

theorem AtReset.validBit {b : Build} {t : State} (h : AtReset b t) (r : FReg) : t.validBit r = false := by
  rw [h]
  simp [State.validBit, State.initial]

/-- A soft reset leaves the initial state (R151). -/
theorem sameBlock_initial_softReset {s : State} (hr : s.resetIn = false) {v : Word64} (hv : v.getLsbD 0 = true) :
    SameBlock (State.initial s.build) (s.hostWrite .ctrl v) :=
  (s.clear_atReset.initial hr).trans (sameBlock_hostWrite_of_eq (s.writeReg_ctrl_reset hv))

/-- STATUS reads as 0 where nothing is in flight or recorded and no register is valid (R39). -/
theorem State.statusRead_eq_zero {s : State} (hi : s.inFlight = none) (hf : s.fault = false) (hp : s.pred = false)
    (hc : s.fcode = 0) (hv : ∀ r, s.validBit r = false) : s.statusRead = 0 := by
  have hout := State.runningOutput_of_idle hi
  have hpred : s.predRead = false := (State.predRead_of_ne (by simp [hout])).trans hp
  have hmask : s.validMask = 0 := by
    refine Nat.eq_of_testBit_eq fun i => ?_
    rw [s.validMask_testBit, Nat.zero_testBit]
    split
    next h => exact (State.validRead_of_ne (by simp [hout])).trans (hv ⟨i, h⟩)
    · rfl
  simp [State.statusRead, State.busy, hi, hf, hpred, hc, hmask]

end Sys2Proof.Machine
end

section
/-! ## The turn of a step, and what it does to the VALID bits (R29) -/

namespace Sys2Proof.Machine

open Sys2Proof.Laws

theorem validBit_congr {s t : State} (h : t.f = s.f) (r : FReg) : t.validBit r = s.validBit r := by
  simp [State.validBit, h]

/-- The turn of a step: the core's, the host's or the platform's, on the block in the same state. -/
theorem step_turn_cases {s t : State} (h : step s = .next t) :
    ∃ u, SameBlock s u ∧ (runCore u = .next t ∨ (∃ a, t = u.access a) ∨ ∃ level, t = u.setResetIn level) := by
  rcases step_cases h with ⟨-, hc⟩ | ⟨e, rest, -, ht⟩
  · exact ⟨s, SameBlock.refl s, .inl hc⟩
  · refine ⟨{ s with script := rest }, rfl, ?_⟩
    rcases turn_cases ht with ⟨-, hc⟩ | ⟨a, -, ha, -⟩ | ⟨-, hl⟩ | ⟨-, hl⟩
    · exact .inl hc
    · exact .inr (.inl ⟨a, ha⟩)
    · exact .inr (.inr ⟨true, hl⟩)
    · exact .inr (.inr ⟨false, hl⟩)

/-- All that a host access can do to the block: nothing, the soft reset, an abort, or on an idle block a write of CMD or
of an input buffer. -/
theorem State.access_block_cases (s : State) (a : Access) :
    SameBlock s (s.access a) ∨ AtReset s.build (s.access a) ∨
      (∃ run off, SameBlock (s.abort run off) (s.access a)) ∨
      (s.inFlight = none ∧ ∃ c l h b,
        SameBlock { s with inFlight := c, limbIn := l, hiIn := h, bytesIn := b } (s.access a)) := by
  rcases s.access_sameBlock_or_write a with h | ⟨r, v, h⟩
  · exact .inl h
  · rcases s.writeReg_cases r v with e | e | ⟨run, off, -, -, e⟩ | ⟨-, hi, e⟩ | ⟨hi, l, k, b, e⟩ <;> rw [e] at h
    · exact .inl h
    · exact .inr (.inl (s.clear_atReset.of_sameBlock h))
    · exact .inr (.inr (.inl ⟨run, off, h⟩))
    · exact .inr (.inr (.inr ⟨hi, _, _, _, _, h⟩))
    · exact .inr (.inr (.inr ⟨hi, _, _, _, _, h⟩))

/-- A host access leaves the field registers as they are, or is the soft reset (R29, R151). -/
theorem State.access_f_or_atReset (s : State) (a : Access) :
    (s.access a).f = s.f ∨ AtReset s.build (s.access a) := by
  rcases s.access_block_cases a with h | h | ⟨run, off, h⟩ | ⟨-, c, l, k, b, h⟩
  · exact .inl (by rw [h])
  · exact .inr h
  · exact .inl (by rw [h]; exact s.abort_f run off)
  · exact .inl (by rw [h])

/-- The core's turn leaves the field registers as they are, or writes the destination of the command in flight, which
then ends without a fault (R29, R127). -/
theorem runCore_f {s t : State} (h : runCore s = .next t) :
    t.f = s.f ∨ ∃ v i d w, s.inFlight = some v ∧ decode v = .ok i ∧ outputOf i = .reg d ∧
      t.f = s.f.set d.val (some w) ∧ t.fault = s.fault ∧ t.inFlight = none := by
  rcases runCore_cases h with ⟨-, rfl⟩ | ⟨v, i, hv, hd, he⟩ | ⟨v, e, -, -, rfl⟩
  · exact .inl rfl
  · rcases exec_inv he with hc | ⟨c, -, rfl⟩
    · rcases hc.registers with ⟨d, w, ho, hf⟩ | ⟨-, hf⟩
      · obtain ⟨-, -, -, -, -, -, -, -, hfault, -, -, hidle, -⟩ := hc.frame
        exact .inr ⟨v, i, d, w, hv, hd, ho, hf, hfault, hidle⟩
      · exact .inl hf
    · exact .inl (s.fail_f i c)
  · exact .inl (s.raise_f _ _)

end Sys2Proof.Machine
end

section
/-! ## What a step does to PRED (R42) -/

namespace Sys2Proof.Machine

open Sys2Proof.Laws

/-- The commands that write PRED (R76). -/
theorem outputOf_eq_pred {i : Instr} (h : outputOf i = .pred) :
    ∃ a b, i = .feq a b ∨ i = .fisz a ∨ i = .fisone a := by
  cases i with
  | feq a b => exact ⟨a, b, .inl rfl⟩
  | fisz a => exact ⟨a, a, .inr (.inl rfl)⟩
  | fisone a => exact ⟨a, a, .inr (.inr rfl)⟩
  | _ => cases h

/-- A command whose output is not PRED leaves PRED as it is (R42, R76). -/
theorem exec_pred {i : Instr} {s t : State} (h : exec i s = .next t) (ho : outputOf i ≠ .pred) : t.pred = s.pred := by
  rcases exec_inv h with hc | ⟨c, -, rfl⟩
  · obtain ⟨-, -, -, -, -, -, -, hpred, -⟩ := hc.frame
    exact hpred ho
  · obtain ⟨⟨-, -, -, -, -, -, -, -, hpred, -⟩, -⟩ := fail_frame s i c
    exact hpred ho

/-- Every command, completed or failed, is no longer in flight (R40, R126). -/
theorem exec_inFlight {i : Instr} {s t : State} (h : exec i s = .next t) : t.inFlight = none := by
  rcases exec_inv h with hc | ⟨c, -, rfl⟩
  · obtain ⟨-, -, -, -, -, -, -, -, -, -, -, hidle, -⟩ := hc.frame
    exact hidle
  · exact s.fail_inFlight i c

/-- The core's turn leaves PRED as it is, unless a predicate command ends in it (R42). -/
theorem runCore_pred {s t : State} (h : runCore s = .next t) (hne : t.pred ≠ s.pred) :
    s.runningOutput = some .pred ∧ t.inFlight = none := by
  rcases runCore_cases h with ⟨-, rfl⟩ | ⟨v, i, hv, hd, he⟩ | ⟨v, e, -, -, rfl⟩
  · exact absurd rfl hne
  · have ho : outputOf i = .pred := by_contra fun ho => hne (exec_pred he ho)
    exact ⟨by simp [State.runningOutput, hv, hd, ho], exec_inFlight he⟩
  · exact absurd rfl hne

/-- An abort leaves PRED as it is, unless it ends a predicate command (R127). -/
theorem State.abort_pred {s : State} {v : Word64} {off : Nat} (hne : (s.abort v off).pred ≠ s.pred) :
    s.runningOutput = some .pred := by
  rcases s.abort_cases v off with h | ⟨o, ho, h⟩ <;> rw [h] at hne
  · exact absurd rfl hne
  · cases o with
    | pred => exact ho
    | _ => exact absurd rfl hne

/-- A host access leaves PRED as it is, unless it aborts a predicate command or is the soft reset (R42, R127, R151). -/
theorem State.access_pred {s : State} {a : Access} (hne : (s.access a).pred ≠ s.pred) :
    (s.runningOutput = some .pred ∧ (s.access a).inFlight = none) ∨ AtReset s.build (s.access a) := by
  rcases s.access_block_cases a with h | h | ⟨run, off, h⟩ | ⟨-, c, l, k, b, h⟩
  · exact absurd (by rw [h]) hne
  · exact .inr h
  · rw [h] at hne ⊢
    exact .inl ⟨State.abort_pred hne, s.abort_inFlight run off⟩
  · exact absurd (by rw [h]) hne

end Sys2Proof.Machine
end

section
/-! ## The command in flight: its operands are held, and it completes (R40, R46, R159, R160) -/

namespace Sys2Proof.Machine

open Sys2Proof.Laws

/-- A host access leaves the command in flight with its operands, or ends it (R46, R156, R159). -/
theorem State.access_operands {s : State} {v : Word64} (hv : s.inFlight = some v) (a : Access) :
    SameBlock s (s.access a) ∨ (s.access a).inFlight = none := by
  rcases s.access_block_cases a with h | h | ⟨run, off, h⟩ | ⟨hi, -⟩
  · exact .inl h
  · exact .inr h.inFlight
  · exact .inr (by rw [h]; exact s.abort_inFlight run off)
  · simp [hv] at hi

/-- The core's turn always comes to an end, with BUSY = 0 (R40, R86). -/
theorem runCore_completes (s : State) : ∃ t, runCore s = .next t ∧ t.inFlight = none := by
  unfold runCore
  split
  next hi => exact ⟨s, rfl, hi⟩
  · split
    next i _ =>
      obtain ⟨t, ht, -⟩ := exec_cases i s
      exact ⟨t, ht, exec_inFlight ht⟩
    · exact ⟨_, rfl, s.raise_inFlight _ _⟩

/-- A step whose next event is a host read answers it and leaves the block as it was (R60). -/
theorem step_hostRead {s : State} {e : Event} {rest : List Event} (hr : s.resetIn = false)
    (he : isHostRead e = true) (hs : s.script = e :: rest) :
    ∃ answers, step s = .next { s with script := rest, answers } := by
  match e, he with
  | .access (.read addr width), _ =>
    obtain ⟨answers, ha⟩ := State.access_read { s with script := rest } addr width
    refine ⟨answers, ?_⟩
    rw [step_of_script_cons hs, ← ha]
    exact hostDoes_eq_access (s := { s with script := rest }) hr _

/-- A run goes on from the state its first step gives. -/
theorem run_succ {M : Host.Core} {s t : M.State} (h : M.step s = .next t) (k : Nat) : M.run (k + 1) s = M.run k t := by
  simp [Host.Core.run, h]

/-- After the reads that are left in the script the core's turn ends the command in flight (R40, R160; log 3). -/
theorem run_polls_completes (polls : List Event) (hpolls : ∀ e ∈ polls, isHostRead e = true) :
    ∀ s : State, s.resetIn = false → s.script = polls →
      ∃ t, Host.Core.run Sys2Proof.core (polls.length + 1) s = .next t ∧ t.inFlight = none := by
  induction polls with
  | nil =>
    intro s _ hs
    obtain ⟨t, ht, hidle⟩ := runCore_completes s
    exact ⟨t, run_succ (M := Sys2Proof.core) ((step_of_script_nil hs).trans ht) 0, hidle⟩
  | cons e rest ih =>
    obtain ⟨he, hrest⟩ := List.forall_mem_cons.mp hpolls
    intro s hr hs
    obtain ⟨answers, hstep⟩ := step_hostRead hr he hs
    obtain ⟨t, ht, hidle⟩ := ih hrest { s with script := rest, answers } hr rfl
    exact ⟨t, (run_succ (M := Sys2Proof.core) hstep _).trans ht, hidle⟩

/-- A row of the opcode table decodes as the CMD value of its word (R69). -/
theorem decode_of_decodeTableWord {nbits w : Nat} {i : Instr} (h : decodeTableWord nbits w = some i) :
    decode (tableValue nbits w) = .ok i := by
  unfold decodeTableWord at h
  split at h
  next hd => rw [hd, Option.some.inj h]
  · cases h

end Sys2Proof.Machine
end

section
/-! ## The fault state (R41, R43, R141, R142) -/

namespace Sys2Proof.Machine

open Sys2Proof.Laws

/-- What the fault state keeps until a reset (R43, R141, R142). -/
def State.KeepsFault (s t : State) : Prop :=
  t.fault = true ∧ t.fcode = s.fcode ∧ t.finfo = s.finfo ∧ t.inFlight = none ∧ t.f = s.f ∧ t.limbOut = s.limbOut ∧
    t.hiOut = s.hiOut ∧ t.bytesOut = s.bytesOut ∧ t.pred = s.pred

/-- A state that differs in the input buffers at most, and around the block, is the same fault state. -/
theorem State.KeepsFault.of_sameBlock {s t : State} {l h : Limbs} {b : ByteBuf} (hf : s.fault = true)
    (hi : s.inFlight = none) (hst : SameBlock { s with limbIn := l, hiIn := h, bytesIn := b } t) : s.KeepsFault t := by
  rw [hst]
  exact ⟨hf, rfl, rfl, hi, rfl, rfl, rfl, rfl, rfl⟩

/-- A fault is recorded with no command in flight (R126). -/
theorem State.FaultRecord.idle {s : State} (h : s.FaultRecord) (hf : s.fault = true) : s.inFlight = none := by
  rw [State.FaultRecord, if_pos hf] at h
  exact h.1

/-- In the fault state a host access keeps the fault, or is the soft reset (R141, R142). -/
theorem State.access_of_fault {s : State} (hf : s.fault = true) (hi : s.inFlight = none) (a : Access) :
    s.KeepsFault (s.access a) ∨
      (∃ v, a = .write (s.addrOf .ctrl) 8 v ∧ v.getLsbD 0 = true) ∧ AtReset s.build (s.access a) := by
  rcases s.access_sameBlock_or_addrOf a with h | ⟨r, v, ha, h⟩
  · exact .inl (.of_sameBlock hf hi h)
  · rw [h]
    rcases State.writeReg_of_fault hf hi r v with ⟨rfl, hv, e⟩ | ⟨l, hi', b, e⟩
    · exact .inr ⟨⟨v, ha, hv⟩, s.clear_atReset.of_sameBlock (sameBlock_hostWrite_of_eq e)⟩
    · exact .inl (.of_sameBlock hf hi (sameBlock_hostWrite_of_eq e))

/-- The core does nothing in the fault state (R46, R142, R149). -/
theorem runCore_of_fault {s t : State} (hf : s.fault = true) (hi : s.inFlight = none) (h : runCore s = .next t) :
    s.KeepsFault t := by
  rcases runCore_cases h with ⟨-, rfl⟩ | ⟨v, i, hv, -, -⟩ | ⟨v, e, hv, -, -⟩
  · exact .of_sameBlock hf hi (SameBlock.refl _)
  · simp [hi] at hv
  · simp [hi] at hv

end Sys2Proof.Machine
end

section
/-! ## The obligations -/

namespace Sys2Proof.Proofs

open Sys2Proof.Machine Sys2Proof.Laws

/-- Settles O15: the number STATUS reads as, cut at the ends of its fields; a write to it is ignored. -/
theorem statusFields : Obligations.StatusFields := by
  intro s
  obtain ⟨hbusy, hfault, hpred, hlow, hcode, hhigh⟩ := s.statusRead_fields
  refine ⟨hbusy, hfault, fun hp => hpred.trans (State.predRead_of_ne hp), hlow, hcode, fun i => ?_, hhigh,
    fun hr v => ⟨_, hostDoes_write hr .status v, rfl⟩⟩
  have hvalid := s.statusRead_valid i
  exact ⟨fun hi => hvalid.trans (State.validRead_of_ne hi), fun hi => hvalid.trans (State.validRead_of_validBit hi)⟩

/-- Settles O26: a faulted block has nothing in flight, so that the core does nothing, and of the host's accesses and
the platform's events only the resets touch more than the input buffers. -/
theorem faultStaysUntilReset : Obligations.FaultStaysUntilReset := by
  intro s t hf hrec h
  have hi := hrec.idle hf
  rcases step_cases h with ⟨-, hc⟩ | ⟨e, rest, hs, ht⟩
  · exact .inl (runCore_of_fault hf hi hc)
  · rcases turn_cases ht with ⟨-, hc⟩ | ⟨a, rfl, rfl, -⟩ | ⟨rfl, rfl⟩ | ⟨rfl, rfl⟩
    · exact .inl (runCore_of_fault (s := { s with script := rest }) hf hi hc)
    · rcases State.access_of_fault (s := { s with script := rest }) hf hi a with hkeep | ⟨⟨v, rfl, hv⟩, hreset⟩
      · exact .inl hkeep
      · exact .inr ⟨rest, v, .inr (.inr ⟨hs, hv⟩), hreset⟩
    · exact .inr ⟨rest, 0, .inl hs, rfl⟩
    · exact .inr ⟨rest, 0, .inr (.inl hs), rfl⟩

/-- Settles O55: what a command and a host access do to the field registers, by the turn of the step. -/
theorem validBits : Obligations.ValidBits := by
  refine ⟨fun i s t d hf ho h => ?_, fun s t h => ?_⟩
  · rcases exec_inv h with hc | ⟨c, -, rfl⟩
    · obtain ⟨-, -, -, -, -, -, -, -, hfault, -⟩ := hc.frame
      rcases hc.registers with ⟨d', w, ho', hreg⟩ | ⟨hno, -⟩
      · obtain rfl : d = d' := Output.reg.inj (ho.symm.trans ho')
        exact ⟨fun _ => by simp [State.validBit, hreg], fun ht => by simp [hfault, hf] at ht⟩
      · exact absurd ho (hno d)
    · exact ⟨fun ht => by simp at ht, fun _ r => validBit_congr (s.fail_f i c) r⟩
  · obtain ⟨u, hu, hturn⟩ := step_turn_cases h
    rw [hu] at hturn
    rcases hturn with hc | ⟨a, rfl⟩ | ⟨level, rfl⟩
    · rcases runCore_f hc with hreg | hcommand
      · exact .inl (validBit_congr hreg)
      · exact .inr (.inr hcommand)
    · rcases State.access_f_or_atReset _ a with hreg | hreset
      · exact .inl (validBit_congr hreg)
      · exact .inr (.inl ⟨hreset, hreset.validBit⟩)
    · exact .inr (.inl ⟨rfl, (State.setResetIn_atReset _ level).validBit⟩)

/-- Settles O56: only the end of a predicate command in flight, by itself or by an abort, or a reset touches PRED. -/
theorem predChangesOnlyByPredicates : Obligations.PredChangesOnlyByPredicates := by
  intro s t h hne
  have hpredicate : s.runningOutput = some .pred ∧ t.inFlight = none →
      ∃ v i, s.inFlight = some v ∧ decode v = .ok i ∧ t.inFlight = none ∧
        ∃ a b, i = .feq a b ∨ i = .fisz a ∨ i = .fisone a := by
    rintro ⟨ho, hidle⟩
    obtain ⟨v, i, hv, hd, hi⟩ := State.runningOutput_eq_some ho
    exact ⟨v, i, hv, hd, hidle, outputOf_eq_pred hi⟩
  obtain ⟨u, hu, hturn⟩ := step_turn_cases h
  rw [hu] at hturn
  rcases hturn with hc | ⟨a, rfl⟩ | ⟨level, rfl⟩
  · have hrun := runCore_pred hc hne
    exact .inl (hpredicate hrun)
  · rcases State.access_pred hne with hrun | hreset
    · exact .inl (hpredicate hrun)
    · exact .inr ⟨hreset.pred, hreset⟩
  · exact .inr ⟨rfl, rfl⟩

/-- Settles O57: with a command in flight every write either is ignored or ends that command. -/
theorem operandsHeldWhileRunning : Obligations.OperandsHeldWhileRunning := by
  intro s t v a hv h
  rw [eq_access_of_hostDoes h]
  refine (State.access_operands hv a).imp_left fun hsame => ?_
  rw [hsame]
  exact ⟨hv, rfl, rfl, rfl, rfl, rfl⟩

/-- Settles O58, by induction on the reads. -/
theorem everyCommandCompletes : Obligations.EveryCommandCompletes := by
  intro s v polls hr _ hpolls hs
  obtain ⟨t, ht, hidle⟩ := run_polls_completes polls hpolls s hr hs
  exact ⟨t, ht, by simp [State.busy, hidle]⟩

/-- Settles O7: the placed state has the core's turn next and the word in flight. -/
theorem placedWordIsRunNext : Obligations.PlacedWordIsRunNext := by
  intro s nbits w i h
  exact runCore_eq_exec (s := { s.withFetchWord nbits w with script := s.script }) rfl (decode_of_decodeTableWord h)

/-- Settles O8, by the three cases of a CMD write (R46). -/
theorem cmdWrite : Obligations.CmdWrite := by
  intro s v hr
  refine ⟨⟨_, hostDoes_write hr .cmd v, s.hostWrite_answers .cmd v, fun hf => ?_, fun hf run hrun => ?_,
    fun hf hi => ?_⟩, rfl⟩
  · exact sameBlock_hostWrite_of_eq (State.writeReg_cmd_of_fault hf v)
  · rw [sameBlock_hostWrite_of_eq (State.writeReg_cmd_of_running hf hrun v)]
    refine ⟨by simp, by simp [hf, FaultCode.byte], by simp, ?_⟩
    simp only [State.abort_finfo, hf]
    exact busyInfo_toNat _ (winOffset_lt .cmd)
  · exact sameBlock_hostWrite_of_eq (State.writeReg_cmd_of_idle hf hi v)

/-- Settles O10: on an idle block the write is stored, and a limb register keeps 56 bits of it. -/
theorem inputWriteReadsBack : Obligations.InputWriteReadsBack := by
  intro s v hr hi
  refine ⟨fun j => exists_hostDoes_write hr (State.writeReg_limbIn hi j v) fun t ht => ?_,
    fun j => exists_hostDoes_write hr (State.writeReg_hiIn hi j v) fun t ht => ?_,
    fun m => exists_hostDoes_write hr (State.writeReg_bytesIn hi m v) fun t ht => ?_⟩
  all_goals
    rw [ht]
    simp [State.readReg]

/-- Settles O11: each of these writes leaves the state as it is, but for the acknowledge. -/
theorem ignoredWrites : Obligations.IgnoredWrites := by
  intro s v r hr hreg
  have hw : s.writeReg r v = s := by
    rcases hreg with rfl | rfl | rfl | ⟨j, rfl⟩ | ⟨j, rfl⟩ | ⟨m, rfl⟩ | ⟨rfl, hv⟩
    case inr.inr.inr.inr.inr.inr => exact s.writeReg_ctrl_ignored hv
    all_goals rfl
  exact ⟨_, hostDoes_write hr r v, s.hostWrite_answers r v, sameBlock_hostWrite_of_eq hw⟩

/-- Settles O14: every register is found at its offset, and no other. -/
theorem windowMap : Obligations.WindowMap := by
  refine ⟨winRegAt_winOffset .id, winRegAt_winOffset .ctrl, winRegAt_winOffset .status, winRegAt_winOffset .cmd,
    winRegAt_winOffset .finfo, fun j => ?_, fun m => ?_, fun off r => winOffset_of_winRegAt⟩
  · exact ⟨winRegAt_winOffset (.limbIn j), winRegAt_winOffset (.hiIn j), winRegAt_winOffset (.limbOut j),
      winRegAt_winOffset (.hiOut j)⟩
  · exact ⟨winRegAt_winOffset (.bytesIn m), winRegAt_winOffset (.bytesOut m)⟩

/-- Settles O16: MODSEL is 0 or 1, and Fq and Fr fix which. -/
theorem idValues : Obligations.IdValues := by
  rintro s ⟨-, -, -, hfq, hfr, hle⟩
  have hmodsel : s.build.modsel = 0 ∨ s.build.modsel = 1 := by
    rcases Nat.le_one_iff_eq_zero_or_eq_one.mp hle with h | h
    · exact .inl (BitVec.eq_of_toNat_eq h)
    · exact .inr (BitVec.eq_of_toNat_eq h)
  exact ⟨hmodsel.imp (fun h => ⟨h, idValue_of_modsel_zero h⟩) (fun h => ⟨h, idValue_of_modsel_one h⟩),
    fun h => idValue_of_modsel_zero (hfq h), fun h => idValue_of_modsel_one (hfr h)⟩

/-- Settles O17: a buffer that is not being written is read from the state, and a limb register has 56 bits. -/
theorem readsOfWhatIsNotBeingWritten : Obligations.ReadsOfWhatIsNotBeingWritten := by
  intro s
  refine ⟨fun j hl hw => ?_, fun j hw => ?_, fun m hb => ?_, fun j => ⟨limbRead_toNat_lt _, limbRead_toNat_lt _⟩,
    fun j => ⟨limbRead_toNat _, limbRead_toNat _⟩, fun m => rfl, rfl, rfl, State.runningOutput_of_idle⟩
  · simp [State.readReg, State.limbOutBusy_eq_false hl hw]
  · simp [State.readReg, State.hiOutBusy_eq_false hw]
  · simp [State.readReg, State.bytesOutBusy_eq_false hb]

/-- Settles O18: the values are those of the initial state, which each reset leaves. -/
theorem resetStateValues : Obligations.ResetStateValues := by
  refine ⟨fun b t ht => ?_, rfl, fun s t rest h => ?_, fun s hr => ?_⟩
  · have hvalid : ∀ i, t.validBit i = false := AtReset.validBit (.of_initial ht)
    have hstatus : t.statusRead = 0 :=
      State.statusRead_eq_zero (by rw [ht]; rfl) (by rw [ht]; rfl) (by rw [ht]; rfl) (by rw [ht]; rfl) hvalid
    refine ⟨hvalid, ?_⟩
    rw [ht] at hstatus ⊢
    exact ⟨rfl, rfl, rfl, rfl, rfl, rfl, hstatus, rfl, rfl, rfl, rfl, rfl⟩
  · cases h
    rfl
  · exact ⟨_, hostDoes_write hr .ctrl 1, sameBlock_initial_softReset hr (by decide)⟩

/-- Settles O19: bit 0 of the value decides between the reset and no change. -/
theorem softReset : Obligations.SoftReset := by
  intro s v hr
  exact ⟨_, hostDoes_write hr .ctrl v, s.hostWrite_answers .ctrl v, sameBlock_initial_softReset hr,
    fun hv => sameBlock_hostWrite_of_eq (s.writeReg_ctrl_ignored hv)⟩

/-- Settles O53: the initial state is what the release of the reset input leaves, and the block's build is valid. -/
theorem resetHasInv : Obligations.ResetHasInv := by
  have hinitial : ∀ b : Build, b.Valid → (State.initial b).Inv := fun b hb =>
    State.setResetIn_inv (s := State.initial b) hb false
  exact ⟨hinitial, hinitial Config.build build_valid⟩

end Sys2Proof.Proofs
end

/-! # Proofs: the host's accesses to the window (20_memory.md)

Reads of a register, and accesses that reach no register. -/

section
/-! ## Reads of a register (R60) -/

namespace Sys2Proof.Machine

open Sys2Proof.Laws

/-- A host read of 8 bytes at the address of a register is answered with what the register reads as (R54, R58). -/
theorem hostDoes_read {s : State} (h : s.resetIn = false) (r : WinReg) :
    hostDoes (.read (s.addrOf r) 8) s = .next (s.answer (.data (s.readReg r))) := by
  rw [hostDoes_eq_access h]
  simp only [State.access, s.windowOffset_addrOf, reached_winOffset, State.hostRead_eq]

/-- No register shows the answers the host was given. -/
@[simp] theorem State.answer_readReg (s : State) (a : Answer) (r : WinReg) : (s.answer a).readReg r = s.readReg r := by
  cases r <;> rfl

end Sys2Proof.Machine
end

section
/-! ## Accesses that reach no register (R37, R58, R137) -/

namespace Sys2Proof.Machine

open Sys2Proof.Laws

/-- The reserved ranges of the window (R37). -/
def ReservedOffset (off : Nat) : Prop :=
  (0x028 ≤ off ∧ off ≤ 0x03F) ∨ (0x068 ≤ off ∧ off ≤ 0x07F) ∨ (0x0A8 ≤ off ∧ off ≤ 0x0BF) ∨
    (0x0E0 ≤ off ∧ off ≤ 0x0FF) ∨ (0x128 ≤ off ∧ off ≤ 0x13F) ∨ (0x168 ≤ off ∧ off ≤ 0x17F) ∨
    (0x1A0 ≤ off ∧ off ≤ 0x1FF)

theorem winOffset_aligned (r : WinReg) : winOffset r % 8 = 0 := by
  cases r <;> simp only [winOffset] <;> omega

/-- No register stands in a reserved range (R37). -/
theorem not_reservedOffset_winOffset (r : WinReg) : ¬ ReservedOffset (winOffset r) := by
  cases r <;> simp only [winOffset, ReservedOffset] <;> omega

/-- An access of the wrong width or alignment, or at a reserved offset, reaches no register (R37, R58). -/
theorem reached_eq_none {off width : Nat} (h : width ≠ 8 ∨ off % 8 ≠ 0 ∨ ReservedOffset off) :
    reached off width = none := by
  refine Option.eq_none_iff_forall_ne_some.mpr fun r hr => ?_
  obtain ⟨rfl, rfl⟩ := reached_some hr
  rcases h with hwidth | haligned | hreserved
  · exact hwidth rfl
  · exact haligned (winOffset_aligned r)
  · exact not_reservedOffset_winOffset r hreserved

variable {s : State} {off width : Nat}

/-- A read in the window that reaches no register gets a bus error and nothing else (R58). -/
theorem hostDoes_read_of_unreached (hr : s.resetIn = false) (hoff : off < windowSize)
    (h : reached off width = none) :
    hostDoes (.read (s.build.windowBase + off) width) s = .next (s.answer .busError) := by
  rw [hostDoes_eq_access hr]
  simp only [State.access, windowOffset_base_add s.build off hoff, h]

/-- A write in the window that reaches no register gets a bus error (R58, R137). -/
theorem hostDoes_write_of_unreached (hr : s.resetIn = false) (hoff : off < windowSize)
    (h : reached off width = none) (v : Word64) :
    hostDoes (.write (s.build.windowBase + off) width v) s = .next s.badWrite := by
  rw [hostDoes_eq_access hr]
  simp only [State.access, windowOffset_base_add s.build off hoff, h]

end Sys2Proof.Machine
end

section
/-! ## The obligations -/

namespace Sys2Proof.Proofs

open Sys2Proof.Machine Sys2Proof.Laws

/-- Settles O13: such an access reaches no register, and what is then done leaves the block alone. -/
theorem busErrors : Obligations.BusErrors := by
  intro s off width v hr hoff h
  have hnone : reached off width = none := reached_eq_none h
  exact ⟨⟨_, hostDoes_read_of_unreached hr hoff hnone, rfl, sameBlock_answer s _⟩,
    ⟨_, hostDoes_write_of_unreached hr hoff hnone v, rfl, sameBlock_badWrite s⟩⟩

/-- Settles O12: the first read adds its answer and nothing else, which the second read does not see. -/
theorem readsHaveNoSideEffect : Obligations.ReadsHaveNoSideEffect := by
  intro s r hr
  have hsecond := hostDoes_read (s := s.answer (.data (s.readReg r))) hr r
  rw [State.answer_readReg] at hsecond
  exact ⟨_, _, hostDoes_read hr r, rfl, sameBlock_answer s _, hsecond, rfl,
    (sameBlock_answer s _).trans (sameBlock_answer _ _)⟩

end Sys2Proof.Proofs
end

/-! # Proofs: the encoding of the commands (30_encoding.md)

A value decodes to a command exactly when it is the encoding of that command, the decoder agrees with the match and mask
table, and what each group of commands leaves alone. -/

section
/-! ## The fields of a command word (R70) -/

namespace Sys2Proof

/-- The word made of an OPC value and the fields of a command (R70). -/
def CmdFields.word (f : CmdFields) (opc : Nat) : CmdWord := cmdWord opc f.u f.fd f.fa f.fb

theorem cmdValue_toNat (w : CmdWord) : (cmdValue w).toNat = w.toNat := by
  have hw := w.isLt
  rw [cmdValue, BitVec.toNat_setWidth]
  omega

theorem cmdValue_inj {w x : CmdWord} (h : cmdValue w = cmdValue x) : w = x := by
  rw [← BitVec.toNat_inj, ← cmdValue_toNat, h, cmdValue_toNat]

theorem CmdFields.word_toNat (f : CmdFields) {opc : Nat} (ho : opc < 2 ^ 6) (hu : f.u < 2) :
    (f.word opc).toNat = opc + f.u * 2 ^ 6 + f.fd.val * 2 ^ 8 + f.fa.val * 2 ^ 12 + f.fb.val * 2 ^ 16 := by
  rw [CmdFields.word, cmdWord, BitVec.toNat_ofNat]
  omega

theorem fieldsOf_u_lt (n : Nat) : (fieldsOf n).u < 2 := Nat.mod_lt _ (by decide)

theorem bits_five_zero_lt (n : Nat) : bits n 5 0 < 2 ^ 6 := Nat.mod_lt _ (by decide)

/-- The reserved bits of a CMD value, [63:20] and 7, are 0 (R78). -/
def ReservedZero (n : Nat) : Prop := bits n 63 32 = 0 ∧ bits n 7 7 = 0 ∧ bits n 31 20 = 0

/-- The fields read from a word are those it is made of, and its reserved bits are 0 (R70). -/
theorem CmdFields.word_fields (f : CmdFields) {opc : Nat} (ho : opc < 2 ^ 6) (hu : f.u < 2) :
    ReservedZero (f.word opc).toNat ∧ bits (f.word opc).toNat 5 0 = opc ∧ fieldsOf (f.word opc).toNat = f := by
  rw [f.word_toNat ho hu]
  obtain ⟨u, d, a, b⟩ := f
  simp only [ReservedZero, bits, fieldsOf, CmdFields.mk.injEq, Fin.ext_iff, Fin.val_ofNat] at hu ⊢
  omega

/-- A CMD value is the sum of its fields and its reserved bits, each at its place (R70). -/
theorem eq_sum_fields {n : Nat} (hn : n < 2 ^ 64) : n = bits n 5 0 + (fieldsOf n).u * 2 ^ 6 + bits n 7 7 * 2 ^ 7 +
    (fieldsOf n).fd.val * 2 ^ 8 + (fieldsOf n).fa.val * 2 ^ 12 + (fieldsOf n).fb.val * 2 ^ 16 +
    bits n 31 20 * 2 ^ 20 + bits n 63 32 * 2 ^ 32 := by
  simp only [fieldsOf, bits, Fin.val_ofNat]
  omega

/-- A value whose reserved bits are 0 is the word made of its fields (R70). -/
theorem eq_cmdValue_word {v : Word64} (h : ReservedZero v.toNat) :
    v = cmdValue ((fieldsOf v.toNat).word (bits v.toNat 5 0)) := by
  have hsum := eq_sum_fields v.isLt
  obtain ⟨hhigh, hseven, htop⟩ := h
  rw [← BitVec.toNat_inj, cmdValue_toNat, CmdFields.word_toNat _ (bits_five_zero_lt _) (fieldsOf_u_lt _)]
  omega

end Sys2Proof
end

section
/-! ## The checks of the decoder (R85) -/

namespace Sys2Proof

/-- For the OPC value `opc` and the fields `f` the checks of R85 from the third on pass, with the command `i` of the
class `c`: OPC is assigned (R77), U is in its place (R79) and the unused fields are 0 (R80). -/
structure ChecksPass (opc : Nat) (f : CmdFields) (c : CmdClass) (i : Instr) : Prop where
  row : opcodeRow opc f = some (c, i)
  u : f.u = 1 → opc = 0x20
  unused : unusedZero c f = true

/-- `decode` says yes exactly when every check of R85 does. -/
theorem decode_eq_ok_iff {v : Word64} {i : Instr} : decode v = .ok i ↔
    ReservedZero v.toNat ∧ ∃ c, ChecksPass (bits v.toNat 5 0) (fieldsOf v.toNat) c i := by
  constructor
  · intro h
    simp only [decode] at h
    split at h
    · cases h
    next hhigh =>
      split at h
      · cases h
      next hreserved =>
        split at h
        · cases h
        next c j hrow =>
          split at h
          · cases h
          next hu =>
            split at h
            next hz =>
              cases h
              exact ⟨by simp only [ReservedZero]; omega, c, hrow, fun h1 => by_contra fun h2 => hu ⟨h1, h2⟩, hz⟩
            · cases h
  · rintro ⟨⟨hhigh, hseven, htop⟩, c, hrow, hu, hz⟩
    have hu' : ¬ (bits v.toNat 6 6 = 1 ∧ bits v.toNat 5 0 ≠ 0x20) := fun h => h.2 (hu h.1)
    simp only [decode, hhigh, hseven, htop, hrow, hz, hu', ne_eq, not_true, or_self, if_false, if_true]

/-- The command of an OPC value has that value in its encoding, and the fields it was given (R70, R73, R74). -/
theorem ChecksPass.encode_eq {opc : Nat} {f : CmdFields} {c : CmdClass} {i : Instr} (h : ChecksPass opc f c i)
    (hu : f.u < 2) : encode i = f.word opc := by
  obtain ⟨u, d, a, b⟩ := f
  obtain ⟨hrow, hu20, hz⟩ := h
  obtain rfl | rfl : u = 0 ∨ u = 1 := by dsimp only at hu; omega
  · -- in each row the fields the class does not use are 0, and those it uses are the command's
    unfold opcodeRow at hrow
    split at hrow <;> cases hrow <;> simp [unusedZero] at hz <;> simp [hz, encode, CmdFields.word]
  · obtain rfl := hu20 rfl
    cases hrow
    simp [unusedZero] at hz
    simp [hz, encode, CmdFields.word]

end Sys2Proof
end

section
/-! ## The match and mask table (R73, R75) and the decoder -/

namespace Sys2Proof

/-- OPC of a row, by its match value `OPC + U*2^6` (R75). -/
def OpcodeRow.opc (r : OpcodeRow) : Nat := r.bitsFixed.toNat % 2 ^ 6

/-- U of a row, by its match value (R75). -/
def OpcodeRow.u (r : OpcodeRow) : Nat := r.bitsFixed.toNat / 2 ^ 6

theorem OpcodeRow.opc_lt (r : OpcodeRow) : r.opc < 2 ^ 6 := Nat.mod_lt _ (by decide)

theorem OpcodeRow.u_lt {r : OpcodeRow} (h : r ∈ opcodeTable) : r.u < 2 := by
  revert r; decide

/-- Only a row of OPC 0x20 has U = 1 (R79). -/
theorem OpcodeRow.opc_eq_of_u_eq_one {r : OpcodeRow} (h : r ∈ opcodeTable) (hu : r.u = 1) : r.opc = 0x20 := by
  revert r; decide

/-- No two rows share a mnemonic. -/
theorem OpcodeRow.eq_of_mnemonic_eq {r q : OpcodeRow} (hr : r ∈ opcodeTable) (hq : q ∈ opcodeTable)
    (h : r.mnemonic = q.mnemonic) : r = q :=
  List.inj_on_of_nodup_map (f := OpcodeRow.mnemonic) (by decide) hr hq h

/-- Every row is that of the command `opcodeRow` answers for its OPC and U (R74, R75). -/
theorem OpcodeRow.opcodeRow_eq {r : OpcodeRow} (hr : r ∈ opcodeTable) (d a b : FReg) :
    ∃ i, opcodeRow r.opc ⟨r.u, d, a, b⟩ = some (r.cls, i) ∧ mnemonicOf i = r.mnemonic := by
  fin_cases hr <;> exact ⟨_, rfl, rfl⟩

/-- `r` is the row of the command `i` in the table, and `f` are the fields of the command (R73, R75). -/
structure OpcodeRow.Encodes (r : OpcodeRow) (f : CmdFields) (i : Instr) : Prop where
  mem : r ∈ opcodeTable
  mnemonic : mnemonicOf i = r.mnemonic
  u : f.u = r.u
  checks : ChecksPass r.opc f r.cls i

/-- Every command has a row, and fields that fit it (R73, R74). -/
theorem exists_row (i : Instr) : ∃ (r : OpcodeRow) (f : CmdFields), r.Encodes f i := by
  cases i with
  | fldraw d => exact ⟨⟨"FLDRAW", .d, 0x01⟩, ⟨0, d, 0, 0⟩, by decide, rfl, rfl, rfl, nofun, rfl⟩
  | fldl d => exact ⟨⟨"FLDL", .d, 0x02⟩, ⟨0, d, 0, 0⟩, by decide, rfl, rfl, rfl, nofun, rfl⟩
  | fldu56 d => exact ⟨⟨"FLDU56", .d, 0x03⟩, ⟨0, d, 0, 0⟩, by decide, rfl, rfl, rfl, nofun, rfl⟩
  | fldb d => exact ⟨⟨"FLDB", .d, 0x04⟩, ⟨0, d, 0, 0⟩, by decide, rfl, rfl, rfl, nofun, rfl⟩
  | fstraw a => exact ⟨⟨"FSTRAW", .a, 0x05⟩, ⟨0, 0, a, 0⟩, by decide, rfl, rfl, rfl, nofun, rfl⟩
  | fstl a => exact ⟨⟨"FSTL", .a, 0x06⟩, ⟨0, 0, a, 0⟩, by decide, rfl, rfl, rfl, nofun, rfl⟩
  | fstb a => exact ⟨⟨"FSTB", .a, 0x07⟩, ⟨0, 0, a, 0⟩, by decide, rfl, rfl, rfl, nofun, rfl⟩
  | fstbits a => exact ⟨⟨"FSTBITS", .a, 0x08⟩, ⟨0, 0, a, 0⟩, by decide, rfl, rfl, rfl, nofun, rfl⟩
  | fzero d => exact ⟨⟨"FZERO", .d, 0x09⟩, ⟨0, d, 0, 0⟩, by decide, rfl, rfl, rfl, nofun, rfl⟩
  | fone d => exact ⟨⟨"FONE", .d, 0x0A⟩, ⟨0, d, 0, 0⟩, by decide, rfl, rfl, rfl, nofun, rfl⟩
  | fneg d a => exact ⟨⟨"FNEG", .da, 0x0B⟩, ⟨0, d, a, 0⟩, by decide, rfl, rfl, rfl, nofun, rfl⟩
  | feq a b => exact ⟨⟨"FEQ", .ab, 0x0C⟩, ⟨0, 0, a, b⟩, by decide, rfl, rfl, rfl, nofun, rfl⟩
  | fisz a => exact ⟨⟨"FISZ", .a, 0x0D⟩, ⟨0, 0, a, 0⟩, by decide, rfl, rfl, rfl, nofun, rfl⟩
  | fisone a => exact ⟨⟨"FISONE", .a, 0x0E⟩, ⟨0, 0, a, 0⟩, by decide, rfl, rfl, rfl, nofun, rfl⟩
  | fadd d a b => exact ⟨⟨"FADD", .dab, 0x10⟩, ⟨0, d, a, b⟩, by decide, rfl, rfl, rfl, nofun, rfl⟩
  | fsub d a b => exact ⟨⟨"FSUB", .dab, 0x11⟩, ⟨0, d, a, b⟩, by decide, rfl, rfl, rfl, nofun, rfl⟩
  | fdbl d a => exact ⟨⟨"FDBL", .da, 0x12⟩, ⟨0, d, a, 0⟩, by decide, rfl, rfl, rfl, nofun, rfl⟩
  | wmul a b => exact ⟨⟨"WMUL", .ab, 0x18⟩, ⟨0, 0, a, b⟩, by decide, rfl, rfl, rfl, nofun, rfl⟩
  | redc d => exact ⟨⟨"REDC", .d, 0x19⟩, ⟨0, d, 0, 0⟩, by decide, rfl, rfl, rfl, nofun, rfl⟩
  | fmul d a b => exact ⟨⟨"FMUL", .dab, 0x1A⟩, ⟨0, d, a, b⟩, by decide, rfl, rfl, rfl, nofun, rfl⟩
  | fsqr d a => exact ⟨⟨"FSQR", .da, 0x1B⟩, ⟨0, d, a, 0⟩, by decide, rfl, rfl, rfl, nofun, rfl⟩
  | fpow d a => exact ⟨⟨"FPOW", .da, 0x20⟩, ⟨0, d, a, 0⟩, by decide, rfl, rfl, rfl, nofun, rfl⟩
  | fpowu d a => exact ⟨⟨"FPOWU", .da, 0x60⟩, ⟨1, d, a, 0⟩, by decide, rfl, rfl, rfl, fun _ => rfl, rfl⟩
  | finv d a => exact ⟨⟨"FINV", .da, 0x21⟩, ⟨0, d, a, 0⟩, by decide, rfl, rfl, rfl, nofun, rfl⟩

/-- What the register fields a class uses add to the word (R70, R73). -/
def CmdClass.operands (c : CmdClass) (f : CmdFields) : Nat :=
  match c with
  | .d => f.fd.val * 2 ^ 8
  | .a => f.fa.val * 2 ^ 12
  | .ab => f.fa.val * 2 ^ 12 + f.fb.val * 2 ^ 16
  | .da => f.fd.val * 2 ^ 8 + f.fa.val * 2 ^ 12
  | .dab => f.fd.val * 2 ^ 8 + f.fa.val * 2 ^ 12 + f.fb.val * 2 ^ 16

/-- AND of two numbers, cut at bit `k`. -/
theorem and_eq_low_add_high (k x m : Nat) :
    x &&& m = (x % 2 ^ k &&& m % 2 ^ k) + 2 ^ k * (x / 2 ^ k &&& m / 2 ^ k) := by
  rw [← Nat.and_mod_two_pow, ← Nat.and_div_two_pow, Nat.mod_add_div]

/-- AND of two words, cut at the ends of the register fields (R70). -/
theorem and_eq_fields (n m : Nat) : n &&& m = (n % 2 ^ 8 &&& m % 2 ^ 8) +
    2 ^ 8 * ((n / 2 ^ 8 % 2 ^ 4 &&& m / 2 ^ 8 % 2 ^ 4) + 2 ^ 4 * ((n / 2 ^ 12 % 2 ^ 4 &&& m / 2 ^ 12 % 2 ^ 4) +
      2 ^ 4 * ((n / 2 ^ 16 % 2 ^ 4 &&& m / 2 ^ 16 % 2 ^ 4) + 2 ^ 4 * (n / 2 ^ 20 &&& m / 2 ^ 20)))) := by
  rw [and_eq_low_add_high 8, and_eq_low_add_high 4 (n / _), and_eq_low_add_high 4 (n / _ / _),
    and_eq_low_add_high 4 (n / _ / _ / _)]
  simp only [Nat.div_div_eq_div_mul, ← pow_add, Nat.reduceAdd]

/-- The mask of a class takes the register fields the class uses out of a word, and nothing else (R73). -/
theorem and_mask_add_operands (c : CmdClass) (w : CmdWord) :
    (w &&& c.mask).toNat + c.operands (fieldsOf w.toNat) = w.toNat := by
  have hw := w.isLt
  have h4 (x : Nat) : x &&& 15 = x % 16 := Nat.and_two_pow_sub_one_eq_mod x 4
  have h8 (x : Nat) : x &&& 255 = x % 256 := Nat.and_two_pow_sub_one_eq_mod x 8
  have h12 (x : Nat) : x &&& 4095 = x % 4096 := Nat.and_two_pow_sub_one_eq_mod x 12
  rw [BitVec.toNat_and, and_eq_fields]
  cases c <;> simp [CmdClass.mask, CmdClass.operands, fieldsOf, bits, h4, h8, h12] <;> omega

/-- A word fits a row exactly when its fields do: with the operands taken out, the match value is what is left (R73,
R75). -/
theorem OpcodeRow.and_mask_eq_iff {r : OpcodeRow} (hr : r ∈ opcodeTable) (w : CmdWord) :
    w &&& r.cls.mask = r.bitsFixed ↔ ReservedZero w.toNat ∧ bits w.toNat 5 0 = r.opc ∧
      (fieldsOf w.toNat).u = r.u ∧ unusedZero r.cls (fieldsOf w.toNat) = true := by
  have hw := w.isLt
  have hmatch := r.u_lt hr
  have hmask := and_mask_add_operands r.cls w
  have hsum := eq_sum_fields (n := w.toNat) (by omega)
  have hopc := bits_five_zero_lt w.toNat
  have hu := fieldsOf_u_lt w.toNat
  rw [ReservedZero, ← BitVec.toNat_inj, OpcodeRow.opc, OpcodeRow.u]
  rw [OpcodeRow.u] at hmatch
  generalize fieldsOf w.toNat = f at *
  generalize bits w.toNat 5 0 = opc, bits w.toNat 7 7 = seven, bits w.toNat 31 20 = top, bits w.toNat 63 32 = high at *
  cases hc : r.cls <;>
  · simp only [hc, CmdClass.operands, unusedZero, Bool.and_eq_true, beq_iff_eq, Fin.ext_iff, Fin.val_zero, and_true]
      at hmask ⊢
    omega

/-- The word of a command has its row's OPC, the command's fields, and no reserved bit (R70). -/
theorem OpcodeRow.Encodes.encode_fields {r : OpcodeRow} {f : CmdFields} {i : Instr} (h : r.Encodes f i) :
    ReservedZero (encode i).toNat ∧ bits (encode i).toNat 5 0 = r.opc ∧ fieldsOf (encode i).toNat = f := by
  have hu : f.u < 2 := h.u ▸ r.u_lt h.mem
  rw [h.checks.encode_eq hu]
  exact f.word_fields r.opc_lt hu

/-- What decodes is its own encoding, and every encoding decodes (R70, R85). -/
theorem decode_eq_ok_iff_eq_encode {v : Word64} {i : Instr} : decode v = .ok i ↔ v = cmdValue (encode i) := by
  rw [decode_eq_ok_iff]
  constructor
  · rintro ⟨hzero, c, hchecks⟩
    rw [hchecks.encode_eq (fieldsOf_u_lt _)]
    exact eq_cmdValue_word hzero
  · rintro rfl
    obtain ⟨r, f, hrow⟩ := exists_row i
    obtain ⟨hzero, hopc, hf⟩ := hrow.encode_fields
    rw [cmdValue_toNat, hopc, hf]
    exact ⟨hzero, r.cls, hrow.checks⟩

theorem decode_encode (i : Instr) : decode (cmdValue (encode i)) = .ok i :=
  decode_eq_ok_iff_eq_encode.mpr rfl

/-- A word fits a row exactly when it decodes to the command of the row (R75). -/
theorem OpcodeRow.and_mask_eq_iff_decode {r : OpcodeRow} (hr : r ∈ opcodeTable) (w : CmdWord) :
    w &&& r.cls.mask = r.bitsFixed ↔ ∃ i, decode (cmdValue w) = .ok i ∧ mnemonicOf i = r.mnemonic := by
  rw [r.and_mask_eq_iff hr]
  constructor
  · rintro ⟨hzero, hopc, hu, hunused⟩
    obtain ⟨i, hrow, hi⟩ := r.opcodeRow_eq hr (fieldsOf w.toNat).fd (fieldsOf w.toNat).fa (fieldsOf w.toNat).fb
    refine ⟨i, ?_, hi⟩
    rw [decode_eq_ok_iff, cmdValue_toNat]
    rw [← hu, ← hopc] at hrow
    exact ⟨hzero, r.cls, hrow, fun h1 => hopc ▸ r.opc_eq_of_u_eq_one hr (hu ▸ h1), hunused⟩
  · rintro ⟨i, hd, hi⟩
    obtain ⟨q, f, hrow⟩ := exists_row i
    obtain rfl := q.eq_of_mnemonic_eq hrow.mem hr (hrow.mnemonic.symm.trans hi)
    obtain ⟨hzero, hopc, hf⟩ := hrow.encode_fields
    rw [cmdValue_inj (decode_eq_ok_iff_eq_encode.mp hd), hopc, hf]
    exact ⟨hzero, rfl, hrow.u, hrow.checks.unused⟩

/-- No word fits two rows: it decodes to one command, whose row has its mnemonic (R75). -/
theorem OpcodeRow.eq_of_and_mask_eq {r q : OpcodeRow} (hr : r ∈ opcodeTable) (hq : q ∈ opcodeTable) {w : CmdWord}
    (hwr : w &&& r.cls.mask = r.bitsFixed) (hwq : w &&& q.cls.mask = q.bitsFixed) : r = q := by
  obtain ⟨i, hi, hri⟩ := (r.and_mask_eq_iff_decode hr w).mp hwr
  obtain ⟨j, hj, hqj⟩ := (q.and_mask_eq_iff_decode hq w).mp hwq
  obtain rfl : i = j := Except.ok.inj (hi.symm.trans hj)
  exact r.eq_of_mnemonic_eq hr hq (hri.symm.trans hqj)

/-- Bits [63:32] of a value are 0 exactly when the number it holds has 32 bits (R78). -/
theorem high_eq_zero_iff {v : Word64} : v.extractLsb' 32 32 = 0 ↔ v.toNat < 2 ^ 32 := by
  have hv := v.isLt
  rw [← BitVec.toNat_inj, BitVec.extractLsb'_toNat, Nat.shiftRight_eq_div_pow]
  change v.toNat / 2 ^ 32 % 2 ^ 32 = 0 ↔ _
  omega

/-- A value whose upper half is 0 is its lower half zero-extended (R19, R69). -/
theorem eq_cmdValue_of_lt {v : Word64} (h : v.toNat < 2 ^ 32) : v = cmdValue (v.setWidth 32) := by
  rw [← BitVec.toNat_inj, cmdValue_toNat, BitVec.toNat_setWidth, Nat.mod_eq_of_lt h]

/-- The lower half of a command word's value is the word (R69). -/
theorem cmdValue_low (w : CmdWord) : (cmdValue w).setWidth 32 = w := by
  rw [← BitVec.toNat_inj, BitVec.toNat_setWidth, cmdValue_toNat, Nat.mod_eq_of_lt w.isLt]

/-- The legal values are those that decode (R75, R81, R85). -/
theorem legalCmdValue_iff_decode {v : Word64} : legalCmdValue v = true ↔ ∃ i, decode v = .ok i := by
  simp only [legalCmdValue, OpcodeRow.fits, Bool.and_eq_true, beq_iff_eq, List.any_eq_true, high_eq_zero_iff]
  constructor
  · rintro ⟨hhigh, r, hr, hfits⟩
    obtain ⟨i, hd, -⟩ := (r.and_mask_eq_iff_decode hr _).mp hfits
    exact ⟨i, eq_cmdValue_of_lt hhigh ▸ hd⟩
  · rintro ⟨i, hd⟩
    obtain ⟨r, f, hrow⟩ := exists_row i
    rw [decode_eq_ok_iff_eq_encode.mp hd, cmdValue_toNat, cmdValue_low]
    refine ⟨(encode i).isLt, r, hrow.mem, ?_⟩
    exact (r.and_mask_eq_iff_decode hrow.mem _).mpr ⟨i, decode_encode i, hrow.mnemonic⟩

end Sys2Proof
end

section
/-! ## The core's turn on a value that is no command (R126, R129) -/

namespace Sys2Proof.Machine

/-- The core's turn on a value that is no command raises E_ILLEGAL (R129; log 16). -/
theorem coreDoes_illegal {s : State} {v : Word64} {e : Reject} (h : s.inFlight = some v) (hd : decode v = .error e) :
    coreDoes s = .next (s.raise .illegal (commandInfo (v.setWidth 32))) := by
  change runCore s = _
  simp [runCore, h, hd]

end Sys2Proof.Machine
end

section
/-! ## The frame of a command (R76, R127) -/

namespace Sys2Proof.Machine

open Sys2Proof.Laws

/-- What a command with the output `o`, completing or faulting, leaves as it was in `s` (R76, R127). -/
structure CommandFrame (o : Output) (s t : State) : Prop where
  register : ∀ r : FReg, o ≠ .reg r → t.f[r.val] = s.f[r.val]
  limbIn : t.limbIn = s.limbIn
  hiIn : t.hiIn = s.hiIn
  bytesIn : t.bytesIn = s.bytesIn
  limbOut : o ≠ .limbs → o ≠ .wide → t.limbOut = s.limbOut
  hiOut : o ≠ .wide → t.hiOut = s.hiOut
  bytesOut : o ≠ .bytes → t.bytesOut = s.bytesOut
  pred : o ≠ .pred → t.pred = s.pred
  build : t.build = s.build
  resetIn : t.resetIn = s.resetIn
  script : t.script = s.script
  answers : t.answers = s.answers
  inFlight : t.inFlight = none
  record : (t.fault = s.fault ∧ t.fcode = s.fcode ∧ t.finfo = s.finfo) ∨
    (t.fault = true ∧ ∀ r : FReg, t.validBit r = s.validBit r)

/-- A command whose output is no register leaves the register file as it was. -/
theorem CommandFrame.f_eq {o : Output} {s t : State} (h : CommandFrame o s t) (ho : ∀ r, o ≠ .reg r) : t.f = s.f :=
  Vector.ext fun k hk => h.register ⟨k, hk⟩ (ho _)

/-- Every command has the frame of its output, whether it completes or faults (R76, R127). -/
theorem exec_commandFrame {i : Instr} {s t : State} (h : exec i s = .next t) : CommandFrame (outputOf i) s t := by
  rcases exec_inv h with hc | ⟨c, -, rfl⟩
  · obtain ⟨hbuild, hlimbIn, hhiIn, hbytesIn, hlimbOut, hhiOut, hbytesOut, hpred, hfault, hfcode, hfinfo, hidle, hreset,
      hscript, hanswers, -⟩ := hc.frame
    refine ⟨fun r hr => ?_, hlimbIn, hhiIn, hbytesIn, hlimbOut, hhiOut, hbytesOut, hpred, hbuild, hreset, hscript,
      hanswers, hidle, .inl ⟨hfault, hfcode, hfinfo⟩⟩
    rcases hc.registers with ⟨d, v, hd, hf⟩ | ⟨-, hf⟩
    · have hne : d.val ≠ r.val := fun heq => hr (Fin.ext heq ▸ hd)
      rw [hf, Vector.getElem_set_ne _ _ hne]
    · rw [hf]
  · obtain ⟨⟨hvalid, hregister, hlimbIn, hhiIn, hbytesIn, hlimbOut, hhiOut, hbytesOut, hpred, hbuild, hreset⟩, -⟩ :=
      fail_frame s i c
    exact ⟨hregister, hlimbIn, hhiIn, hbytesIn, hlimbOut, hhiOut, hbytesOut, hpred, hbuild, hreset,
      s.fail_script i c, s.fail_answers i c, s.fail_inFlight i c, .inr ⟨s.fail_fault i c, hvalid⟩⟩

end Sys2Proof.Machine
end

section
/-! ## The obligations -/

namespace Sys2Proof.Proofs

open Sys2Proof.Machine Sys2Proof.Laws

/-- Settles O1: the fields of a command's word are those of its row, on which every check of R85 passes. -/
theorem decodeOfEncode : Obligations.DecodeOfEncode :=
  decode_encode

/-- Settles O2: a value decodes to `i` exactly when it is the encoding of `i`. -/
theorem valueEncodesOneCommandOrNone : Obligations.ValueEncodesOneCommandOrNone := by
  intro v
  cases hd : decode v with
  | error r => exact .inl ⟨r, rfl⟩
  | ok i =>
    refine .inr ⟨i, rfl, decode_eq_ok_iff_eq_encode.mp hd, fun j hj => ?_⟩
    exact Except.ok.inj ((decode_eq_ok_iff_eq_encode.mpr hj).symm.trans hd)

/-- Settles O3: the table by evaluation, the masks by the fields of a word. -/
theorem wordEncodesRowExactlyIfMaskMatches : Obligations.WordEncodesRowExactlyIfMaskMatches :=
  ⟨rfl, rfl, rfl, rfl, rfl, rfl, rfl, fun w _ hr => OpcodeRow.and_mask_eq_iff_decode hr w,
    fun _ _ hr _ hq => OpcodeRow.eq_of_and_mask_eq hr hq⟩

/-- Settles O5: the legal values are those that decode, and the others raise E_ILLEGAL. -/
theorem commandRunsOrIsIllegal : Obligations.CommandRunsOrIsIllegal := by
  intro s v hv hfault
  cases hd : decode v with
  | ok i =>
    exact .inl ⟨legalCmdValue_iff_decode.mpr ⟨i, hd⟩, i, decode_eq_ok_iff_eq_encode.mp hd, coreDoes_eq hv hd⟩
  | error e =>
    refine .inr ⟨?_, ?_⟩
    · refine Bool.eq_false_iff.mpr fun hlegal => ?_
      obtain ⟨i, hi⟩ := legalCmdValue_iff_decode.mp hlegal
      cases hi.symm.trans hd
    · rw [coreDoes_illegal hv hd]
      simp [State.raise, hfault, commandInfo, FaultCode.byte]

/-- Settles O27: the output of each of these commands is its destination register. -/
theorem registerCommandsFrame : Obligations.RegisterCommandsFrame := by
  intro d a b s t i hi h
  have ho : outputOf i = .reg d := by fin_cases hi <;> rfl
  have hframe := exec_commandFrame h
  rw [ho] at hframe
  exact ⟨fun r hr => hframe.register r fun heq => hr (Output.reg.inj heq).symm, hframe.limbIn, hframe.hiIn,
    hframe.bytesIn, hframe.limbOut nofun nofun, hframe.hiOut nofun, hframe.bytesOut nofun, hframe.pred nofun,
    hframe.build, hframe.resetIn, hframe.script, hframe.answers, hframe.inFlight, hframe.record⟩

/-- Settles O28: the output of each of these commands is its own output buffer. -/
theorem bufferCommandsFrame : Obligations.BufferCommandsFrame := by
  intro a b s t i hi h
  have hframe := exec_commandFrame h
  have ho : (∀ r, outputOf i ≠ .reg r) ∧ outputOf i ≠ .pred := by
    fin_cases hi <;> exact ⟨nofun, nofun⟩
  refine ⟨hframe.f_eq ho.1, hframe.limbIn, hframe.hiIn, hframe.bytesIn, hframe.pred ho.2, hframe.build, hframe.resetIn,
    hframe.script, hframe.answers, hframe.inFlight, ?_, ?_, ?_, hframe.record.imp_right And.left⟩
  · intro hlimbs
    have ho' : outputOf i = .limbs := by fin_cases hlimbs <;> rfl
    rw [ho'] at hframe
    exact ⟨hframe.hiOut nofun, hframe.bytesOut nofun⟩
  · intro hbytes
    have ho' : outputOf i = .bytes := by fin_cases hbytes <;> rfl
    rw [ho'] at hframe
    exact ⟨hframe.limbOut nofun nofun, hframe.hiOut nofun⟩
  · rintro rfl
    exact hframe.bytesOut nofun

/-- Settles O29: the output of each of these commands is PRED. -/
theorem predicateCommandsFrame : Obligations.PredicateCommandsFrame := by
  intro a b s t i hi h
  have ho : outputOf i = .pred := by fin_cases hi <;> rfl
  have hframe := exec_commandFrame h
  rw [ho] at hframe
  exact ⟨hframe.f_eq nofun, hframe.limbIn, hframe.hiIn, hframe.bytesIn, hframe.limbOut nofun nofun, hframe.hiOut nofun,
    hframe.bytesOut nofun, hframe.build, hframe.resetIn, hframe.script, hframe.answers, hframe.inFlight,
    hframe.record.imp_right And.left⟩

/-- Settles O4: an example decodes because it is an encoding; the two illegal words fail a check of R85. -/
theorem encodingExamples : Obligations.EncodingExamples := by
  refine ⟨⟨rfl, decode_encode (.fadd 2 0 1)⟩, ⟨rfl, decode_encode (.fmul 2 0 1)⟩, ⟨rfl, decode_encode (.fpowu 3 1)⟩,
    ⟨rfl, decode_encode (.feq 1 2)⟩, ⟨rfl, decode_encode (.fldb 0)⟩, by decide, by decide⟩

end Sys2Proof.Proofs
end

/-! # Proofs: representation and conversion (41_conversion.md)

What each load stores and each export writes, as one equation for each command, and the byte and bit layouts of
BYTES_OUT by the bits of the number they hold. -/

section
/-! ## The bytes and bits of BYTES_OUT (R32, R33, R95, R96) -/

namespace Sys2Proof.Laws

open Sys2Proof.Machine

/-- Position `k` of `OUT_Y <- v` is bit `k` of `v` (R33). -/
theorem getLsbD_natToByteBuf (v : Nat) {m j : Nat} (hm : m < 4) (hj : j < 64) :
    (natToByteBuf v)[m].getLsbD j = v.testBit (64 * m + j) := by
  rw [natToByteBuf_getElem v m hm, BitVec.getLsbD_ofNat, Nat.testBit_div_two_pow, decide_eq_true hj, Bool.true_and,
    Nat.add_comm]

/-- Byte `k` of `OUT_Y <- v` is `v[8k+7:8k]` (R32, R33). -/
theorem byteOf_natToByteBuf (v : Nat) (k : Fin 32) :
    byteOf (natToByteBuf v) k = BitVec.ofNat 8 (v / 2 ^ (8 * k.val)) := by
  refine BitVec.eq_of_getLsbD_eq fun i hi => ?_
  have hplace : 64 * (k.val / 8) + (8 * (k.val % 8) + i) = i + 8 * k.val := by omega
  rw [byteOf, BitVec.getLsbD_extractLsb', getLsbD_natToByteBuf v (by omega) (by omega), hplace, BitVec.getLsbD_ofNat,
    Nat.testBit_div_two_pow]

/-- A number below `2^n` has no bits from position `n` on. -/
theorem decide_lt_and_testBit {c n : Nat} (hc : c < 2 ^ n) (k : Nat) :
    (decide (k < n) && c.testBit k) = c.testBit k := by
  rw [← Nat.testBit_mod_two_pow, Nat.mod_eq_of_lt hc]

/-- Register `m` of the bit layout (R96). -/
theorem bitsToByteBuf_getElem (entries : List Bool) {m : Nat} (hm : m < 4) :
    (bitsToByteBuf entries)[m] = packBits entries m := by
  have : m = 0 ∨ m = 1 ∨ m = 2 ∨ m = 3 := by omega
  rcases this with rfl | rfl | rfl | rfl <;> rfl

/-- The bit layout of the 254 exported bits of a number is, as a number, that number (R96). -/
theorem bitsToByteBuf_exportBits {c : Nat} (hc : c < 2 ^ 254) : bitsToByteBuf (exportBits c) = natToByteBuf c := by
  refine Vector.ext fun m hm => BitVec.eq_of_getLsbD_eq fun j hj => ?_
  rw [bitsToByteBuf_getElem _ hm, getLsbD_packBits c m j hj, decide_lt_and_testBit hc, getLsbD_natToByteBuf c hm hj]

end Sys2Proof.Laws
end

section
/-! ## What the loads store (R87 to R92) -/

namespace Sys2Proof.Machine

open Sys2Proof.Laws

variable {s : State}

/-- The check of FLDRAW passes, and the input is stored as it is (R89). -/
theorem exec_fldraw (h : s.inL < s.build.pMod) (d : FReg) : exec (.fldraw d) s = .next (s.wrote d s.inL) :=
  congrArg Host.Outcome.next (if_pos h)

/-- FLDL reduces its input modulo `p` (R87, R90). -/
theorem exec_fldl (hp : GoodModulus s.build.pMod) (d : FReg) :
    exec (.fldl d) s = .next (s.wrote d (mont s.build.pMod (s.inL % s.build.pMod))) := by
  rw [mont_mod, ← toMont_eq hp (v := s.inL) (limbsToNat_lt s.limbIn)]
  rfl

/-- FLDU56 reads one limb (R91). -/
theorem exec_fldu56 (hp : GoodModulus s.build.pMod) (d : FReg) :
    exec (.fldu56 d) s = .next (s.wrote d (mont s.build.pMod s.limbIn[0].toNat)) := by
  have hlimb := s.limbIn[0].isLt
  rw [← toMont_eq hp (v := s.limbIn[0].toNat) (by omega)]
  rfl

/-- The check of FLDB passes, and the image of the input is stored (R92). -/
theorem exec_fldb (hp : GoodModulus s.build.pMod) (h : s.inY < s.build.pMod) (d : FReg) :
    exec (.fldb d) s = .next (s.wrote d (mont s.build.pMod s.inY)) := by
  have hlt := hp.lt
  rw [← toMont_eq hp (v := s.inY) (by omega)]
  exact congrArg Host.Outcome.next (if_pos h)

end Sys2Proof.Machine
end

section
/-! ## What the exports write (R88, R93 to R96) -/

namespace Sys2Proof.Machine

open Sys2Proof.Laws

variable {s : State} {a : FReg} {c : Nat}

/-- FSTRAW exports the content itself, canonical or not (R93). -/
theorem exec_fstraw {x : Word} (hx : s.f[a.val] = some x) :
    exec (.fstraw a) s = .next { s with limbOut := natToLimbs x.toNat, inFlight := none } :=
  congrArg Host.Outcome.next (s.useF_some _ a _ x hx)

/-- Logical values have 254 bits (R8, R20). -/
theorem State.HoldsLogical.lt_two_pow (h : s.HoldsLogical a c) (hp : GoodModulus s.build.pMod) : c < 2 ^ 254 :=
  h.content.2.trans hp.lt

/-- What an export computes from a register that holds a logical value is that value (R88). -/
theorem State.HoldsLogical.useF_fromMont (h : s.HoldsLogical a c) (hp : GoodModulus s.build.pMod) (i : Instr)
    (k : Nat → State) : (s.useF i a fun x => k (fromMont s.build.pMod x.toNat)) = k c := by
  obtain ⟨hx, hc⟩ := h.content
  rw [s.useF_some i a _ _ hx, toNat_toWord_mont hp, fromMont_mont hp hc]

/-- FSTL exports the logical value by limbs (R94). -/
theorem State.HoldsLogical.exec_fstl (h : s.HoldsLogical a c) (hp : GoodModulus s.build.pMod) :
    exec (.fstl a) s = .next { s with limbOut := natToLimbs c, inFlight := none } :=
  congrArg Host.Outcome.next (h.useF_fromMont hp _ fun v => (s.putLimbOut v).done)

/-- FSTB exports the logical value by bytes (R95). -/
theorem State.HoldsLogical.exec_fstb (h : s.HoldsLogical a c) (hp : GoodModulus s.build.pMod) :
    exec (.fstb a) s = .next { s with bytesOut := natToByteBuf c, inFlight := none } :=
  congrArg Host.Outcome.next (h.useF_fromMont hp _ fun v => (s.putBytesOut (natToByteBuf v)).done)

/-- FSTBITS writes what FSTB writes (R96). -/
theorem State.HoldsLogical.exec_fstbits (h : s.HoldsLogical a c) (hp : GoodModulus s.build.pMod) :
    exec (.fstbits a) s = .next { s with bytesOut := natToByteBuf c, inFlight := none } := by
  rw [← bitsToByteBuf_exportBits (h.lt_two_pow hp)]
  exact congrArg Host.Outcome.next (h.useF_fromMont hp _ fun v => (s.putBytesOut (bitsToByteBuf (exportBits v))).done)

end Sys2Proof.Machine
end

section
/-! ## The obligations -/

namespace Sys2Proof.Proofs

open Sys2Proof.Machine Sys2Proof.Laws

/-- Settles O31: the image of each input is what `ToMont` computes, since the inputs fit in 280 bits. -/
theorem canonicalLoads : Obligations.CanonicalLoads := by
  intro s d hb
  have hp := goodModulus_of_valid hb
  exact ⟨exec_fldl hp d, exec_fldu56 hp d, fun h => exec_fldb hp h d⟩

/-- Settles O32: the limbs are those of `OUT_L <- c`, and `c` is below 2^254. -/
theorem limbExport : Obligations.LimbExport := by
  intro s a c hb h
  have hp := goodModulus_of_valid hb
  refine ⟨natToLimbs c, natToLimbs_toNat c, ?_, h.exec_fstl hp⟩
  have hc := h.lt_two_pow hp
  have hlimb : (natToLimbs c)[4].toNat = c / 2 ^ 224 % 2 ^ 56 := natToLimbs_toNat c 4
  omega

/-- Settles O33: the bytes are those of `OUT_Y <- c`, and `c` is below 2^254. -/
theorem byteExport : Obligations.ByteExport := by
  intro s a c hb h
  have hp := goodModulus_of_valid hb
  have hc := h.lt_two_pow hp
  have hbyte (k : Fin 32) : (byteOf (natToByteBuf c) k).toNat = c / 2 ^ (8 * k.val) % 2 ^ 8 := by
    rw [byteOf_natToByteBuf, BitVec.toNat_ofNat]
  have hhigh (j : Nat) (hj : 62 ≤ j) (hlt : j < 64) : (natToByteBuf c)[3].getLsbD j = false := by
    rw [getLsbD_natToByteBuf c (by omega) hlt]
    exact Nat.testBit_lt_two_pow (hc.trans_le (Nat.pow_le_pow_right (by omega) (by omega)))
  exact ⟨natToByteBuf c, hbyte, hhigh 62 (by omega) (by omega), hhigh 63 (by omega) (by omega), h.exec_fstb hp⟩

/-- Settles O34: both commands write `OUT_Y <- c`, whose position `k` is bit `k` of `c`. -/
theorem bitExport : Obligations.BitExport := by
  intro s a c hb h
  have hp := goodModulus_of_valid hb
  refine ⟨natToByteBuf c, fun k => ?_, h.exec_fstbits hp, h.exec_fstb hp⟩
  rw [getLsbD_natToByteBuf c (by omega) (by omega), Nat.div_add_mod, decide_lt_and_testBit (h.lt_two_pow hp)]

/-- Settles O44: the export reads the register the load has written, and input and output have the same layout. -/
theorem roundTrips : Obligations.RoundTrips := by
  intro s d hb
  have hp := goodModulus_of_valid hb
  refine ⟨fun h => ?_, ?_, fun h => ?_⟩
  · rw [execAll_cons (exec_fldb hp h d), execAll_cons ((State.holdsLogical_wrote hp d h).exec_fstb hp)]
    exact ⟨_, rfl, natToByteBuf_byteBufToNat s.bytesIn⟩
  · have hlt : s.inL % s.build.pMod < s.build.pMod := Nat.mod_lt _ hp.prime.pos
    rw [execAll_cons (exec_fldl hp d), execAll_cons ((State.holdsLogical_wrote hp d hlt).exec_fstl hp)]
    exact ⟨_, rfl, limbsToNat_natToLimbs _ (by have := hp.lt; omega)⟩
  · have hx : (s.wrote d s.inL).f[d.val] = some (toWord s.inL) := by simp
    have hlt : s.inL < 2 ^ 280 := limbsToNat_lt s.limbIn
    rw [execAll_cons (exec_fldraw h d), execAll_cons (exec_fstraw hx), toNat_toWord _ hlt]
    exact ⟨_, rfl, limbsToNat_natToLimbs _ hlt⟩

/-- Settles O30: FLDRAW passes its one check, and FSTRAW writes the limbs of the content. -/
theorem rawLoadAndExport : Obligations.RawLoadAndExport :=
  ⟨fun _ d h => exec_fldraw h d, fun _ _ x hx => ⟨natToLimbs x.toNat, natToLimbs_toNat x.toNat, exec_fstraw hx⟩⟩

end Sys2Proof.Proofs
end

/-! # Proofs: identities, negation and equality (42_identities_equality.md)

Images are equal exactly when the logical values are; what each command of the family leaves follows as one equation. -/

section
/-! ## Equal images are equal values (R105) -/

namespace Sys2Proof.Laws

open Sys2Proof.Machine

variable {p x y : Nat}

/-- Images are equal exactly when the logical values are (R22, R105). -/
theorem mont_eq_iff (hp : GoodModulus p) (hx : x < p) (hy : y < p) : mont p x = mont p y ↔ x = y :=
  ⟨mont_inj hp hx hy, congrArg (mont p)⟩

/-- Contents that hold images are equal exactly when the logical values are (R105). -/
theorem toWord_mont_eq_iff (hp : GoodModulus p) (hx : x < p) (hy : y < p) :
    toWord (mont p x) = toWord (mont p y) ↔ x = y := by
  rw [← BitVec.toNat_inj, toNat_toWord_mont hp, toNat_toWord_mont hp]
  exact mont_eq_iff hp hx hy

/-- Structural comparison decides equality of the logical values (R102). -/
theorem predEq_mont (hp : GoodModulus p) (hx : x < p) (hy : y < p) :
    predEq (toWord (mont p x)) (toWord (mont p y)) = decide (x = y) := by
  simp only [predEq, beq_eq_decide, toWord_mont_eq_iff hp hx hy]

/-- The zero content is the image of zero, so FISZ decides being zero (R103). -/
theorem predZero_mont (hp : GoodModulus p) (hx : x < p) : predZero (toWord (mont p x)) = decide (x = 0) := by
  rw [← predEq_mont hp hx hp.prime.pos, mont_zero]
  rfl

/-- `R` is the image of one, so FISONE decides being one (R104). -/
theorem predOne_mont (hp : GoodModulus p) (hx : x < p) :
    predOne (montOne p) (toWord (mont p x)) = decide (x = 1) := by
  simp only [predOne, toNat_toWord_mont hp, montOne_eq, beq_eq_decide, mont_eq_iff hp hx hp.prime.one_lt]

end Sys2Proof.Laws
end

section
/-! ## What each command does with the contents it reads (R99 to R104) -/

namespace Sys2Proof.Machine

open Sys2Proof.Laws

variable {s : State} {a b : FReg} {v w : Word}

/-- FZERO reads nothing and completes (R99). -/
theorem exec_fzero (s : State) (d : FReg) : exec (.fzero d) s = .next (s.wrote d 0) := rfl

/-- FONE reads nothing and completes (R100). -/
theorem exec_fone (s : State) (d : FReg) : exec (.fone d) s = .next (s.wrote d (montOne s.build.pMod)) := rfl

/-- FNEG on a valid source, canonical or not (R101). -/
theorem exec_fneg (hv : s.f[a.val] = some v) (d : FReg) :
    exec (.fneg d a) s = .next (s.wrote d (modNeg s.build.pMod v.toNat)) :=
  congrArg Host.Outcome.next (s.useF_some _ a _ v hv)

/-- FEQ on valid sources (R102). -/
theorem exec_feq (hv : s.f[a.val] = some v) (hw : s.f[b.val] = some w) :
    exec (.feq a b) s = .next { s with pred := predEq v w, inFlight := none } :=
  congrArg Host.Outcome.next ((s.useF_some _ a _ v hv).trans (s.useF_some _ b _ w hw))

/-- FISZ on a valid source (R103). -/
theorem exec_fisz (hv : s.f[a.val] = some v) :
    exec (.fisz a) s = .next { s with pred := predZero v, inFlight := none } :=
  congrArg Host.Outcome.next (s.useF_some _ a _ v hv)

/-- FISONE on a valid source (R104). -/
theorem exec_fisone (hv : s.f[a.val] = some v) :
    exec (.fisone a) s = .next { s with pred := predOne (montOne s.build.pMod) v, inFlight := none } :=
  congrArg Host.Outcome.next (s.useF_some _ a _ v hv)

end Sys2Proof.Machine
end

section
/-! ## What each command does on logical values (R101 to R105) -/

namespace Sys2Proof.Machine

open Sys2Proof.Laws

variable {s : State} {a b : FReg} {x y : Nat}

/-- Registers hold equal contents exactly when they hold equal logical values (R105). -/
theorem State.HoldsLogical.content_eq_iff (ha : s.HoldsLogical a x) (hb : s.HoldsLogical b y)
    (hp : GoodModulus s.build.pMod) : s.f[a.val] = s.f[b.val] ↔ x = y := by
  obtain ⟨hfa, hx⟩ := ha.content
  obtain ⟨hfb, hy⟩ := hb.content
  rw [hfa, hfb, Option.some_inj]
  exact toWord_mont_eq_iff hp hx hy

/-- FNEG writes the image of the negative, which is the image of its canonical residue (R101). -/
theorem State.HoldsLogical.exec_fneg (h : s.HoldsLogical a x) (hp : GoodModulus s.build.pMod) (d : FReg) :
    exec (.fneg d a) s = .next (s.wrote d (mont s.build.pMod ((s.build.pMod - x) % s.build.pMod))) := by
  obtain ⟨hf, hx⟩ := h.content
  rw [Machine.exec_fneg hf, toNat_toWord_mont hp, modNeg_mont hp hx, mont_mod]

/-- FEQ decides equality of the logical values (R102). -/
theorem State.HoldsLogical.exec_feq (ha : s.HoldsLogical a x) (hb : s.HoldsLogical b y)
    (hp : GoodModulus s.build.pMod) :
    exec (.feq a b) s = .next { s with pred := decide (x = y), inFlight := none } := by
  obtain ⟨hfa, hx⟩ := ha.content
  obtain ⟨hfb, hy⟩ := hb.content
  rw [Machine.exec_feq hfa hfb, predEq_mont hp hx hy]

/-- FISZ decides whether the logical value is zero (R103). -/
theorem State.HoldsLogical.exec_fisz (h : s.HoldsLogical a x) (hp : GoodModulus s.build.pMod) :
    exec (.fisz a) s = .next { s with pred := decide (x = 0), inFlight := none } := by
  obtain ⟨hf, hx⟩ := h.content
  rw [Machine.exec_fisz hf, predZero_mont hp hx]

/-- FISONE decides whether the logical value is one (R104). -/
theorem State.HoldsLogical.exec_fisone (h : s.HoldsLogical a x) (hp : GoodModulus s.build.pMod) :
    exec (.fisone a) s = .next { s with pred := decide (x = 1), inFlight := none } := by
  obtain ⟨hf, hx⟩ := h.content
  rw [Machine.exec_fisone hf, predOne_mont hp hx]

end Sys2Proof.Machine
end

section
/-! ## The obligations -/

namespace Sys2Proof.Proofs

open Sys2Proof.Machine Sys2Proof.Laws

/-- Settles O36: `FNEG` negates the image, and negation commutes with `mont`. -/
theorem negation : Obligations.Negation :=
  fun _ d _ _ hb h => h.exec_fneg (goodModulus_of_valid hb) d

/-- Settles O37: the map to images is injective below `p`, and 0 and `R` are the images of zero and one. -/
theorem predicates : Obligations.Predicates := by
  intro s a b x y hb hx hy
  have hp := goodModulus_of_valid hb
  exact ⟨hx.content_eq_iff hy hp, hx.exec_feq hy hp, hx.exec_fisz hp, hx.exec_fisone hp⟩

/-- Settles O35: neither command has a source or a check; each word is OPC and FD at their places. -/
theorem identities : Obligations.Identities := by
  intro s d
  have hword {opc : Nat} (ho : opc < 2 ^ 6) : (cmdWord opc 0 d 0 0).toNat = opc + d.val * 2 ^ 8 := by
    simpa [CmdFields.word] using CmdFields.word_toNat ⟨0, d, 0, 0⟩ ho Nat.two_pos
  exact ⟨exec_fzero s d, hword (by decide), exec_fone s d, hword (by decide)⟩

end Sys2Proof.Proofs
end

/-! # Proofs: addition and subtraction (43_add_sub.md)

The limb chains by the one number they hold, what FADD, FSUB, FDBL and FMUL leave as one equation for each command, and
the laws of R110 as runs of these equations. -/

section
/-! ## The limb-wise chains (R106, R107) -/

set_option exponentiation.threshold 600

namespace Sys2Proof.Laws

open Sys2Proof.Machine

/-- Five limbs hold a number below `2^280` (R13). -/
theorem limbListValue_lt_of_five {l : List Nat} (hlen : l.length = 5) (hlt : ∀ z ∈ l, z < 2 ^ 56) :
    limbListValue l < 2 ^ 280 := by
  simpa [hlen] using limbListValue_lt l hlt

/-- Five limbs are the limbs of the number they hold (R13). -/
theorem eq_limbList {l : List Nat} (hlen : l.length = 5) (hlt : ∀ z ∈ l, z < 2 ^ 56) : l = limbList (limbListValue l) :=
  limbListValue_inj _ _ (by rw [hlen, length_limbList]) hlt (limbList_lt _)
    (limbListValue_limbList _ (limbListValue_lt_of_five hlen hlt)).symm

variable {x y : Nat}

/-- The five limbs and the carry-out hold `x + y`, and so are its remainder and quotient by `2^280` (R106). -/
theorem limbAdd_limbList (hx : x < 2 ^ 280) (hy : y < 2 ^ 280) :
    limbAdd (limbList x) (limbList y) 0 = (limbList ((x + y) % 2 ^ 280), addCarry x y) := by
  obtain ⟨hlen, hlt, hsum⟩ := limbAdd_spec (limbList x) (limbList y) 0 rfl
  have hv := limbListValue_lt_of_five hlen hlt
  rw [limbListValue_limbList x hx, limbListValue_limbList y hy, length_limbList, ← pow_mul] at hsum
  have hmod : limbListValue (limbAdd (limbList x) (limbList y) 0).1 = (x + y) % 2 ^ 280 := by omega
  have hcarry : (limbAdd (limbList x) (limbList y) 0).2 = addCarry x y := by unfold addCarry; omega
  exact Prod.ext ((eq_limbList hlen hlt).trans (congrArg limbList hmod)) hcarry

/-- The five limbs hold `x - y`, with `2^280` added exactly when there is a borrow-out (R107). -/
theorem limbSub_limbList (hx : x < 2 ^ 280) (hy : y < 2 ^ 280) :
    limbSub (limbList x) (limbList y) 0 = (limbList ((x + 2 ^ 280 - y) % 2 ^ 280), subBorrow x y) := by
  obtain ⟨hlen, hlt, hbit, hdiff⟩ :=
    limbSub_spec (limbList x) (limbList y) 0 rfl zero_le_one (limbList_lt x) (limbList_lt y)
  have hv := limbListValue_lt_of_five hlen hlt
  rw [limbListValue_limbList x hx, limbListValue_limbList y hy, length_limbList, ← pow_mul] at hdiff
  have hmod : limbListValue (limbSub (limbList x) (limbList y) 0).1 = (x + 2 ^ 280 - y) % 2 ^ 280 := by omega
  have hborrow : (limbSub (limbList x) (limbList y) 0).2 = subBorrow x y := by unfold subBorrow; split <;> omega
  exact Prod.ext ((eq_limbList hlen hlt).trans (congrArg limbList hmod)) hborrow

/-- Canonical values are too small for a carry-out (R106). -/
theorem addCarry_eq_zero {p : Nat} (hp : GoodModulus p) (hx : x < p) (hy : y < p) : addCarry x y = 0 :=
  Nat.div_eq_of_lt (by have := hp.lt; omega)

end Sys2Proof.Laws
end

section
/-! ## What each command writes from the contents it reads (R106 to R108, R117) -/

namespace Sys2Proof.Machine

open Sys2Proof.Laws

variable {s : State} {a b : FReg} {v w : Word}

/-- FADD on valid sources, canonical or not (R106). -/
theorem exec_fadd (hv : s.f[a.val] = some v) (hw : s.f[b.val] = some w) (d : FReg) :
    exec (.fadd d a b) s = .next (s.wrote d (modAdd s.build.pMod v.toNat w.toNat)) :=
  congrArg Host.Outcome.next ((s.useF_some _ a _ v hv).trans (s.useF_some _ b _ w hw))

/-- FSUB on valid sources, canonical or not (R107). -/
theorem exec_fsub (hv : s.f[a.val] = some v) (hw : s.f[b.val] = some w) (d : FReg) :
    exec (.fsub d a b) s = .next (s.wrote d (modSub s.build.pMod v.toNat w.toNat)) :=
  congrArg Host.Outcome.next ((s.useF_some _ a _ v hv).trans (s.useF_some _ b _ w hw))

/-- FDBL is FADD of its source to itself (R108). -/
theorem exec_fdbl (hv : s.f[a.val] = some v) (d : FReg) : exec (.fdbl d a) s = exec (.fadd d a a) s := by
  rw [exec_fadd hv hv]
  exact congrArg Host.Outcome.next (s.useF_some _ a _ v hv)

/-- FMUL on valid sources, canonical or not (R117). -/
theorem exec_fmul (hv : s.f[a.val] = some v) (hw : s.f[b.val] = some w) (d : FReg) :
    exec (.fmul d a b) s = .next (s.wrote d (montMul s.build.pMod v.toNat w.toNat)) :=
  congrArg Host.Outcome.next ((s.useF_some _ a _ v hv).trans (s.useF_some _ b _ w hw))

/-- What a register holds once a command has written it (R29). -/
theorem State.wrote_f_self (s : State) (d : FReg) (n : Nat) : (s.wrote d n).f[d.val] = some (toWord n) := by simp

end Sys2Proof.Machine
end

section
/-! ## What each command does on logical values (R106 to R108, R117) -/

namespace Sys2Proof.Machine

open Sys2Proof.Laws

variable {s : State} {a b : FReg} {x y : Nat}

/-- FADD writes the image of the sum (R106). -/
theorem State.HoldsLogical.exec_fadd (ha : s.HoldsLogical a x) (hb : s.HoldsLogical b y)
    (hp : GoodModulus s.build.pMod) (d : FReg) :
    exec (.fadd d a b) s = .next (s.wrote d (mont s.build.pMod ((x + y) % s.build.pMod))) := by
  rw [Machine.exec_fadd ha.content.1 hb.content.1, toNat_toWord_mont hp, toNat_toWord_mont hp, modAdd_mont hp,
    mont_mod]

/-- FSUB writes the image of the difference (R107). -/
theorem State.HoldsLogical.exec_fsub (ha : s.HoldsLogical a x) (hb : s.HoldsLogical b y)
    (hp : GoodModulus s.build.pMod) (d : FReg) :
    exec (.fsub d a b) s = .next (s.wrote d (mont s.build.pMod ((x + s.build.pMod - y) % s.build.pMod))) := by
  obtain ⟨hfb, hy⟩ := hb.content
  rw [Machine.exec_fsub ha.content.1 hfb, toNat_toWord_mont hp, toNat_toWord_mont hp, modSub_mont hp hy, mont_mod]

/-- FDBL writes the image of the double (R108). -/
theorem State.HoldsLogical.exec_fdbl (ha : s.HoldsLogical a x) (hp : GoodModulus s.build.pMod) (d : FReg) :
    exec (.fdbl d a) s = .next (s.wrote d (mont s.build.pMod (2 * x % s.build.pMod))) := by
  rw [Machine.exec_fdbl ha.content.1, ha.exec_fadd ha hp, two_mul]

/-- FMUL writes the image of the product (R117). -/
theorem State.HoldsLogical.exec_fmul (ha : s.HoldsLogical a x) (hb : s.HoldsLogical b y)
    (hp : GoodModulus s.build.pMod) (d : FReg) :
    exec (.fmul d a b) s = .next (s.wrote d (mont s.build.pMod (x * y % s.build.pMod))) := by
  rw [Machine.exec_fmul ha.content.1 hb.content.1, toNat_toWord_mont hp, toNat_toWord_mont hp, montMul_mont hp,
    mont_mod]

end Sys2Proof.Machine
end

section
/-! ## The laws of addition, as runs of commands (R110) -/

namespace Sys2Proof.Machine

open Sys2Proof.Laws

variable {s : State} {a b c : FReg} {x y z : Nat}

/-- After FZERO the destination holds zero (R99). -/
theorem State.holdsLogical_wrote_zero (hp : GoodModulus s.build.pMod) (d : FReg) : (s.wrote d 0).HoldsLogical d 0 := by
  simpa only [mont_zero] using State.holdsLogical_wrote hp d hp.prime.pos

/-- A residue is written as the image of a logical value. -/
theorem State.holdsLogical_wrote_mod (hp : GoodModulus s.build.pMod) (d : FReg) (n : Nat) :
    (s.wrote d (mont s.build.pMod (n % s.build.pMod))).HoldsLogical d (n % s.build.pMod) :=
  State.holdsLogical_wrote hp d (Nat.mod_lt _ hp.prime.pos)

/-- Adding a register that holds zero copies the other source (R110). -/
theorem State.HoldsLogical.exec_fadd_zero (ha : s.HoldsLogical a x) (hb : s.HoldsLogical b 0)
    (hp : GoodModulus s.build.pMod) (d : FReg) :
    ∃ t, exec (.fadd d a b) s = .next t ∧ t.f[d.val] = s.f[a.val] := by
  obtain ⟨hfa, hx⟩ := ha.content
  refine ⟨_, ha.exec_fadd hb hp d, ?_⟩
  rw [s.wrote_f_self, hfa, Nat.add_zero, Nat.mod_eq_of_lt hx]

/-- Adding a register that FZERO wrote copies the other source (R110). -/
theorem State.HoldsLogical.execAll_fzero_fadd (ha : s.HoldsLogical a x) (hp : GoodModulus s.build.pMod) {o : FReg}
    (hne : a ≠ o) (d : FReg) : ∃ t, execAll [.fzero o, .fadd d a o] s = .next t ∧ t.f[d.val] = s.f[a.val] := by
  obtain ⟨t, hrun, ht⟩ := (ha.wrote_of_ne hne).exec_fadd_zero (State.holdsLogical_wrote_zero hp o) hp d
  refine ⟨t, ?_, ht.trans ?_⟩
  · rw [execAll_cons (exec_fzero s o), execAll_cons hrun, execAll]
  · rw [ha.content.1, (ha.wrote_of_ne hne).content.1, State.wrote_build]

/-- Adding what FNEG wrote gives zero (R110). -/
theorem State.HoldsLogical.execAll_fneg_fadd (ha : s.HoldsLogical a x) (hp : GoodModulus s.build.pMod) {n : FReg}
    (hne : a ≠ n) (d : FReg) : ∃ t, execAll [.fneg n a, .fadd d a n] s = .next t ∧ t.f[d.val] = some 0 := by
  have hsum : (x + (s.build.pMod - x) % s.build.pMod) % s.build.pMod = 0 := by
    rw [Nat.add_mod_mod, Nat.add_sub_cancel' ha.content.2.le, Nat.mod_self]
  have hadd := (ha.wrote_of_ne hne).exec_fadd (State.holdsLogical_wrote_mod hp n (s.build.pMod - x)) hp d
  rw [execAll_cons (ha.exec_fneg hp n), execAll_cons hadd]
  refine ⟨_, rfl, ?_⟩
  rw [State.wrote_f_self, State.wrote_build, hsum, mont_zero]
  rfl

/-- The sum by FADD, then the product by FMUL in the same register. -/
theorem State.HoldsLogical.execAll_fadd_fmul (ha : s.HoldsLogical a x) (hb : s.HoldsLogical b y)
    (hc : s.HoldsLogical c z) (hp : GoodModulus s.build.pMod) {d : FReg} (hne : c ≠ d) :
    ∃ t, execAll [.fadd d a b, .fmul d d c] s = .next t ∧
      t.f[d.val] = some (toWord (mont s.build.pMod ((x + y) * z % s.build.pMod))) := by
  have hmul := (State.holdsLogical_wrote_mod hp d (x + y)).exec_fmul (hc.wrote_of_ne hne) hp d
  rw [execAll_cons (ha.exec_fadd hb hp d), execAll_cons hmul]
  refine ⟨_, rfl, ?_⟩
  rw [State.wrote_f_self, State.wrote_build, Nat.mod_mul_mod]

/-- The two products by FMUL, in registers that neither overwrite a source still to be read nor each other, then the sum
by FADD. -/
theorem State.HoldsLogical.execAll_fmul_fmul_fadd (ha : s.HoldsLogical a x) (hb : s.HoldsLogical b y)
    (hc : s.HoldsLogical c z) (hp : GoodModulus s.build.pMod) {u v : FReg} (hbu : b ≠ u) (hcu : c ≠ u) (huv : u ≠ v)
    (d : FReg) :
    ∃ t, execAll [.fmul u a c, .fmul v b c, .fadd d u v] s = .next t ∧
      t.f[d.val] = some (toWord (mont s.build.pMod ((x * z + y * z) % s.build.pMod))) := by
  have hadd := ((State.holdsLogical_wrote_mod hp u (x * z)).wrote_of_ne huv).exec_fadd
    (State.holdsLogical_wrote_mod (s := s.wrote u _) hp v (y * z)) hp d
  rw [execAll_cons (ha.exec_fmul hc hp u), execAll_cons ((hb.wrote_of_ne hbu).exec_fmul (hc.wrote_of_ne hcu) hp v),
    execAll_cons hadd]
  refine ⟨_, rfl, ?_⟩
  rw [State.wrote_f_self, State.wrote_build, State.wrote_build, ← Nat.add_mod]

end Sys2Proof.Machine
end

section
/-! ## The obligations -/

namespace Sys2Proof.Proofs

open Sys2Proof.Machine Sys2Proof.Laws

/-- Settles O38: `ModAdd` and `ModSub` on images are addition and subtraction of logical values, and FDBL is FADD of one
source to itself. -/
theorem addSubDouble : Obligations.AddSubDouble := by
  intro s d a b x y hb hx hy
  have hp := goodModulus_of_valid hb
  exact ⟨hx.exec_fadd hy hp d, hx.exec_fsub hy hp d, hx.exec_fdbl hp d⟩

/-- Settles O45: each run writes the image of a residue modulo `p`, and the two runs of the distributive law write that
of `(x + y) * z`. -/
theorem fieldLaws : Obligations.FieldLaws := by
  intro s a b c x y z hbuild ha hb hc
  have hp := goodModulus_of_valid hbuild
  refine ⟨fun o d ho => ha.execAll_fzero_fadd hp ho.symm d, ?_, fun n d hn => ha.execAll_fneg_fadd hp hn.symm d, ?_⟩
  · rintro rfl d
    exact ha.exec_fadd_zero hb hp d
  · intro d u v hd hub huc huv
    obtain ⟨t, ht, hfield⟩ := ha.execAll_fadd_fmul hb hc hp hd.symm
    obtain ⟨t', ht', hfield'⟩ := ha.execAll_fmul_fmul_fadd hb hc hp hub.symm huc.symm huv d
    exact ⟨t, t', ht, ht', by rw [hfield, hfield', Nat.add_mul]⟩

/-- Settles O50: the limbs and the last carry or borrow determine one number, and below `p` each selection is one
correction by `p`. -/
theorem carryAndBorrowChains : Obligations.CarryAndBorrowChains := by
  refine ⟨fun x y hx hy => ⟨limbAdd_limbList hx hy, limbSub_limbList hx hy⟩, fun b x y hb hx hy => ?_⟩
  have hp := goodModulus_of_valid hb
  exact ⟨addCarry_eq_zero hp hx hy, modAdd_eq _ x y hp.lt_two_pow hx hy, modSub_eq _ x y hp.lt_two_pow hx hy⟩

end Sys2Proof.Proofs
end

/-! # Proofs: multiplication and Montgomery reduction (44_multiply.md)

The closed form of REDC from the equation its five steps keep, what WMUL, REDC and FSQR leave as one equation for each
command, and the laws of R119 as runs of these equations. -/

section
/-! ## The closed form and the bounds of REDC (R112, R113) -/

set_option exponentiation.threshold 600

namespace Sys2Proof.Laws

open Sys2Proof.Machine

variable {p lo hi : Nat}

/-- At most one `K` below `2^280` makes `T + K * p` a multiple of `2^280`, because `p` is odd (R113). -/
theorem eq_of_add_mul_mod_eq_zero (hp : GoodModulus p) {T K L : Nat} (hK : K < 2 ^ 280) (hL : L < 2 ^ 280)
    (h : (T + K * p) % 2 ^ 280 = 0) (h' : (T + L * p) % 2 ^ 280 = 0) : K = L :=
  have hmul : K * p ≡ L * p [MOD 2 ^ 280] := Nat.ModEq.add_left_cancel' T (h.trans h'.symm)
  (hmul.cancel_right_of_coprime (Nat.gcd_comm p _ ▸ hp.coprime)).eq_of_lt_of_lt hK hL

/-- The closed form of REDC, for a modulus as R8 demands it (R113 (a), (b)). -/
theorem redcUpper_mul_radix (hp : GoodModulus p) (hlo : lo < 2 ^ 280) (hhi : hi < p) :
    redcFactor p lo hi < 2 ^ 280 ∧ redcUpper p lo hi * 2 ^ 280 = lo + hi * 2 ^ 280 + redcFactor p lo hi * p := by
  have hlt := hp.lt
  exact redcUpper_spec p lo hi hp.odd (by omega) hlo (by omega)

/-- One subtraction of `p` is enough: `T` and `K * p` are both below `p * 2^280` (R113 (c)). -/
theorem redcUpper_lt (hp : GoodModulus p) (hlo : lo < 2 ^ 280) (hhi : hi < p) : redcUpper p lo hi < 2 * p := by
  obtain ⟨hK, hu⟩ := redcUpper_mul_radix hp hlo hhi
  have hKp : redcFactor p lo hi * p ≤ (2 ^ 280 - 1) * p := Nat.mul_le_mul_right p (by omega)
  omega

/-- The second carry ends at 0, since it would add `2^280` to a number below `2p` (R113 (c)). -/
theorem redcBuffer_carry_eq_zero (hp : GoodModulus p) (hlo : lo < 2 ^ 280) (hhi : hi < p) :
    (redcBuffer p lo hi).2 = 0 := by
  have hu := redcUpper_lt hp hlo hhi
  have hlt := hp.lt
  unfold redcUpper at hu
  omega

/-- REDC divides by `2^280` modulo `p` (R113 (d)). -/
theorem redc_mul_radix_mod (hp : GoodModulus p) (hlo : lo < 2 ^ 280) (hhi : hi < p) :
    redc p lo hi * 2 ^ 280 % p = (lo + hi * 2 ^ 280) % p :=
  (redc_spec p lo hi hp.odd (by have := hp.lt; omega) hlo hhi).2

end Sys2Proof.Laws
end

section
/-! ## What each command does with the contents it reads (R115, R116, R118) -/

namespace Sys2Proof.Machine

open Sys2Proof.Laws

variable {s : State} {a b : FReg} {v w : Word}

/-- WMUL on valid sources, canonical or not (R115). -/
theorem exec_wmul (hv : s.f[a.val] = some v) (hw : s.f[b.val] = some w) :
    exec (.wmul a b) s = .next { s with
      limbOut := natToLimbs (wideMul v.toNat w.toNat).1
      hiOut := natToLimbs (wideMul v.toNat w.toNat).2
      inFlight := none } :=
  congrArg Host.Outcome.next ((s.useF_some _ a _ v hv).trans (s.useF_some _ b _ w hw))

/-- The check of REDC passes, and the input is reduced (R116). -/
theorem exec_redc (h : s.inH < s.build.pMod) (d : FReg) :
    exec (.redc d) s = .next (s.wrote d (redc s.build.pMod s.inL s.inH)) :=
  congrArg Host.Outcome.next (if_pos h)

/-- FSQR is FMUL of its source by itself (R118). -/
theorem exec_fsqr (hv : s.f[a.val] = some v) (d : FReg) : exec (.fsqr d a) s = exec (.fmul d a a) s := by
  rw [exec_fmul hv hv]
  exact congrArg Host.Outcome.next (s.useF_some _ a _ v hv)

end Sys2Proof.Machine
end

section
/-! ## Squares, and the laws of multiplication (R118, R119) -/

namespace Sys2Proof.Machine

open Sys2Proof.Laws

variable {s : State} {a b : FReg} {x y : Nat}

/-- FSQR writes the image of the square (R118). -/
theorem State.HoldsLogical.exec_fsqr (ha : s.HoldsLogical a x) (hp : GoodModulus s.build.pMod) (d : FReg) :
    exec (.fsqr d a) s = .next (s.wrote d (mont s.build.pMod (x ^ 2 % s.build.pMod))) := by
  rw [Machine.exec_fsqr ha.content.1, ha.exec_fmul ha hp, sq]

/-- FMUL gives the same state for its sources in either order (R119). -/
theorem State.HoldsLogical.exec_fmul_comm (ha : s.HoldsLogical a x) (hb : s.HoldsLogical b y)
    (hp : GoodModulus s.build.pMod) (d : FReg) : exec (.fmul d b a) s = exec (.fmul d a b) s := by
  rw [hb.exec_fmul ha hp, ha.exec_fmul hb hp, Nat.mul_comm]

/-- After FONE the destination holds one (R100). -/
theorem State.holdsLogical_wrote_one (hp : GoodModulus s.build.pMod) (d : FReg) :
    (s.wrote d (montOne s.build.pMod)).HoldsLogical d 1 := by
  rw [montOne_eq]
  exact State.holdsLogical_wrote hp d hp.prime.one_lt

/-- Multiplying by a register that FONE wrote copies the other source (R119). -/
theorem State.HoldsLogical.execAll_fone_fmul (ha : s.HoldsLogical a x) (hp : GoodModulus s.build.pMod) {o : FReg}
    (hne : a ≠ o) (d : FReg) : ∃ t, execAll [.fone o, .fmul d a o] s = .next t ∧ t.f[d.val] = s.f[a.val] := by
  obtain ⟨hfa, hx⟩ := ha.content
  have hmul := (ha.wrote_of_ne hne).exec_fmul (State.holdsLogical_wrote_one hp o) hp d
  rw [execAll_cons (exec_fone s o), execAll_cons hmul]
  refine ⟨_, rfl, ?_⟩
  rw [State.wrote_f_self, State.wrote_build, Nat.mul_one, Nat.mod_eq_of_lt hx, hfa]

end Sys2Proof.Machine
end

section
/-! ## The obligations -/

set_option exponentiation.threshold 600

namespace Sys2Proof.Proofs

open Sys2Proof.Machine Sys2Proof.Laws

/-- Settles O49: `K` is the number made of the digits, and everything follows from `u * 2^280 = T + K * p`. -/
theorem reduceClosedForm : Obligations.ReduceClosedForm := by
  intro b lo hi hb hlo hhi
  have hp := goodModulus_of_valid hb
  obtain ⟨hK, hu⟩ := redcUpper_mul_radix hp hlo hhi
  have hmultiple : (lo + hi * 2 ^ 280 + redcFactor b.pMod lo hi * b.pMod) % 2 ^ 280 = 0 := by
    rw [← hu, Nat.mul_mod_left]
  have hquotient : redcUpper b.pMod lo hi = (lo + hi * 2 ^ 280 + redcFactor b.pMod lo hi * b.pMod) / 2 ^ 280 := by
    rw [← hu, Nat.mul_div_cancel _ (by positivity)]
  exact ⟨redcFactor b.pMod lo hi, hK, hmultiple, fun K' hK' h' => eq_of_add_mul_mod_eq_zero hp hK' hK h' hmultiple,
    rfl, hquotient, redcUpper_lt hp hlo hhi, redcBuffer_carry_eq_zero hp hlo hhi, redc_lt hp hlo hhi,
    redc_mul_radix_mod hp hlo hhi⟩

/-- Settles O40: the two halves of the input meet the bounds of `redc_spec`. -/
theorem reduceCommand : Obligations.ReduceCommand := by
  intro s d hb hhi
  have hp := goodModulus_of_valid hb
  have hlo : s.inL < 2 ^ 280 := limbsToNat_lt s.limbIn
  exact ⟨redc s.build.pMod s.inL s.inH, redc_lt hp hlo hhi, redc_mul_radix_mod hp hlo hhi, exec_redc hhi d⟩

/-- Settles O39: both halves of the product fit in five limbs, so the buffers hold them exactly. -/
theorem wideningMultiply : Obligations.WideningMultiply := by
  intro s a b x y hx hy
  have hlo := limbsToNat_natToLimbs _ (wideMul_lo_lt x.toNat y.toNat)
  have hhi := limbsToNat_natToLimbs _ (wideMul_hi_lt (2 ^ 280) x.toNat y.toNat x.isLt y.isLt)
  refine ⟨_, _, ?_, fun _ hyp => ?_, exec_wmul hx hy⟩
  · rw [hlo, hhi, wideMul_eq]
  · rw [hhi]
    exact wideMul_hi_lt _ _ _ x.isLt hyp

/-- Settles O41: `MontMul` on images is multiplication of logical values, and FSQR is FMUL of one source by itself. -/
theorem multiplySquare : Obligations.MultiplySquare := by
  intro s d a b x y hb hx hy
  have hp := goodModulus_of_valid hb
  exact ⟨hx.exec_fmul hy hp d, hx.exec_fsqr hp d⟩

/-- Settles O46: the laws of the product of residues; 6 is its own residue, because `p` has 254 bits. -/
theorem multiplicationLaws : Obligations.MultiplicationLaws := by
  intro s a b x y hbuild ha hb
  have hp := goodModulus_of_valid hbuild
  refine ⟨fun o d ho => ha.execAll_fone_fmul hp ho.symm d, ?_,
    fun d => ⟨ha.exec_fmul hb hp d, ha.exec_fmul_comm hb hp d⟩⟩
  rintro rfl rfl d
  have hle := hp.le
  have hsix : 2 * 3 % s.build.pMod = 6 := Nat.mod_eq_of_lt (by omega)
  rw [ha.exec_fmul hb hp d, hsix]

end Sys2Proof.Proofs
end

/-! # Proofs: exponentiation and inversion (45_exponent.md)

What FPOW, FPOWU and FINV leave, as one equation for each outcome, first for the content of the source and then for the
logical value it holds; the laws of R125 are these equations at particular values and runs of them. -/

section
/-! ## What each command does with the content it reads (R120 to R123) -/

namespace Sys2Proof.Machine

open Sys2Proof.Laws

variable {s : State} {a : FReg} {v : Word}

/-- FPOW on a valid source, canonical or not (R120). -/
theorem exec_fpow (hv : s.f[a.val] = some v) (d : FReg) :
    exec (.fpow d a) s = .next (s.wrote d (montPow s.build.pMod v.toNat s.inL)) :=
  congrArg Host.Outcome.next (s.useF_some _ a _ v hv)

/-- The U bit changes nothing of what a completed exponentiation leaves (R121, R122). -/
theorem exec_fpowu (hv : s.f[a.val] = some v) (d : FReg) : exec (.fpowu d a) s = exec (.fpow d a) s := by
  rw [exec_fpow hv]
  exact congrArg Host.Outcome.next (s.useF_some _ a _ v hv)

/-- FINV on a source that is not valid (R130). -/
theorem exec_finv_uninit (hv : s.f[a.val] = none) (d : FReg) :
    exec (.finv d a) s = .next (s.fail (.finv d a) .uninit) :=
  congrArg Host.Outcome.next (s.useF_none _ a _ hv)

/-- FINV refuses zero (R123, R134). -/
theorem exec_finv_zero (hv : s.f[a.val] = some v) (hz : v.toNat = 0) (d : FReg) :
    exec (.finv d a) s = .next (s.fail (.finv d a) .invZero) :=
  congrArg Host.Outcome.next ((s.useF_some _ a _ v hv).trans (if_pos hz))

/-- Both checks of FINV pass, and the candidate is written (R123). -/
theorem exec_finv (hv : s.f[a.val] = some v) (hne : v.toNat ≠ 0)
    (hcheck : montMul s.build.pMod v.toNat (finvCandidate s.build.pMod v.toNat) = montOne s.build.pMod) (d : FReg) :
    exec (.finv d a) s = .next (s.wrote d (finvCandidate s.build.pMod v.toNat)) :=
  congrArg Host.Outcome.next ((s.useF_some _ a _ v hv).trans ((if_neg hne).trans (if_neg (not_not_intro hcheck))))

end Sys2Proof.Machine
end

section
/-! ## The inverse as a logical value (R123) -/

namespace Sys2Proof.Laws

/-- The residue of the power `p - 2` is an inverse modulo `p`. -/
theorem mul_pow_sub_two_mod {p : Nat} (hp : GoodModulus p) {a : Nat} (ha : a < p) (hne : a ≠ 0) :
    a * (a ^ (p - 2) % p) % p = 1 := by
  rw [Nat.mul_mod_mod, pow_sub_two_mul hp ha hne]

end Sys2Proof.Laws
end

section
/-! ## What each command does on logical values (R120 to R123) -/

namespace Sys2Proof.Machine

open Sys2Proof.Laws

variable {s : State} {a b : FReg} {x y : Nat}

/-- A valid canonical register holds some logical value (R22). -/
theorem State.Canonical.exists_holdsLogical (hc : s.Canonical) (hp : GoodModulus s.build.pMod) {v : Word}
    (hv : s.f[a.val] = some v) : ∃ x, s.HoldsLogical a x := by
  obtain ⟨x, hx, -⟩ := existsUnique_isImage hp (hc a v hv)
  exact ⟨x, v, hv, hx⟩

/-- FPOW writes the image of the power, with the exponent IN_L as it is (R120). -/
theorem State.HoldsLogical.exec_fpow (h : s.HoldsLogical a x) (hp : GoodModulus s.build.pMod) (d : FReg) :
    exec (.fpow d a) s = .next (s.wrote d (mont s.build.pMod (x ^ s.inL % s.build.pMod))) := by
  have hexp : s.inL < 2 ^ 280 := limbsToNat_lt s.limbIn
  rw [Machine.exec_fpow h.content.1, toNat_toWord_mont hp, montPow_mont hp x hexp, mont_mod]

/-- FINV of zero ends with E_INV_ZERO (R123, R134). -/
theorem State.HoldsLogical.exec_finv_zero (h : s.HoldsLogical a 0) (hp : GoodModulus s.build.pMod) (d : FReg) :
    exec (.finv d a) s = .next (s.fail (.finv d a) .invZero) :=
  Machine.exec_finv_zero h.content.1 ((toNat_toWord_mont hp 0).trans mont_zero) d

/-- FINV of another value completes with the image of its power `p - 2` (R123). -/
theorem State.HoldsLogical.exec_finv (h : s.HoldsLogical a x) (hp : GoodModulus s.build.pMod) (hne : x ≠ 0)
    (d : FReg) :
    exec (.finv d a) s = .next (s.wrote d (mont s.build.pMod (x ^ (s.build.pMod - 2) % s.build.pMod))) := by
  obtain ⟨hf, hx⟩ := h.content
  have himage : mont s.build.pMod x ≠ 0 := by
    rw [← mont_zero (p := s.build.pMod), Ne, mont_eq_iff hp hx hp.prime.pos]
    exact hne
  have hexp : s.build.pMod - 2 < 2 ^ 280 := by
    have := hp.lt
    omega
  have hexec := Machine.exec_finv hf (by rwa [toNat_toWord_mont hp])
    (by rw [toNat_toWord_mont hp]; exact finv_check hp hx hne) d
  rw [hexec, toNat_toWord_mont hp, finvCandidate, montPow_mont hp x hexp, mont_mod]

/-- Where the product of two sources is one, FISONE after FMUL says so. -/
theorem State.HoldsLogical.execAll_fmul_fisone (ha : s.HoldsLogical a x) (hb : s.HoldsLogical b y)
    (hp : GoodModulus s.build.pMod) (hone : x * y % s.build.pMod = 1) (d : FReg) :
    ∃ t, execAll [.fmul d a b, .fisone d] s = .next t ∧ t.pred = true ∧ t.fault = s.fault := by
  have hmul := ha.exec_fmul hb hp d
  rw [hone] at hmul
  rw [execAll_cons hmul, execAll_cons ((State.holdsLogical_wrote hp d hp.prime.one_lt).exec_fisone hp)]
  exact ⟨_, rfl, rfl, rfl⟩

/-- A source other than zero times what FINV wrote is one by FISONE, and no command of the run faults (R125). -/
theorem State.HoldsLogical.execAll_finv_fmul_fisone (h : s.HoldsLogical a x) (hp : GoodModulus s.build.pMod)
    (hne : x ≠ 0) {d : FReg} (hda : d ≠ a) :
    ∃ t, execAll [.finv d a, .fmul d a d, .fisone d] s = .next t ∧ t.pred = true ∧ t.fault = s.fault := by
  rw [execAll_cons (h.exec_finv hp hne d)]
  exact (h.wrote_of_ne hda.symm).execAll_fmul_fisone (State.holdsLogical_wrote_mod hp d _) hp
    (mul_pow_sub_two_mod hp h.content.2 hne) d

end Sys2Proof.Machine
end

section
/-! ## The obligations -/

namespace Sys2Proof.Proofs

open Sys2Proof.Machine Sys2Proof.Laws

/-- Settles O42: `Pow` on an image is the image of the power, and FPOWU leaves what FPOW leaves. -/
theorem exponentiation : Obligations.Exponentiation := by
  intro s d a x hb h
  have hpow := h.exec_fpow (goodModulus_of_valid hb) d
  exact ⟨hpow, (exec_fpowu h.content.1 d).trans hpow⟩

/-- Settles O43: the inverse is the power `p - 2`, by Fermat. -/
theorem inversion : Obligations.Inversion := by
  intro s d a x hb h hne
  have hp := goodModulus_of_valid hb
  exact ⟨_, Nat.mod_lt _ hp.prime.pos, mul_pow_sub_two_mod hp h.content.2 hne, h.exec_finv hp hne d⟩

/-- Settles O24: FINV completes unless its source is invalid, with code 2, or zero, with code 6. -/
theorem inverseCheckNeverFails : Obligations.InverseCheckNeverFails := by
  intro s t d a hb hc hfault hexec hfaulted
  have hp := goodModulus_of_valid hb
  have hcode (c : FaultCode) (hc7 : c.byte ≠ 0x07) (h : exec (.finv d a) s = .next (s.fail (.finv d a) c)) :
      t.fcode ≠ 0x07 := by
    obtain rfl := Host.Outcome.next.inj (hexec.symm.trans h)
    simpa [hfault] using hc7
  cases hv : s.f[a.val] with
  | none => exact hcode .uninit (by decide) (exec_finv_uninit hv d)
  | some v =>
    obtain ⟨x, hx⟩ := hc.exists_holdsLogical hp hv
    rcases eq_or_ne x 0 with rfl | hne
    · exact hcode .invZero (by decide) (hx.exec_finv_zero hp d)
    · obtain rfl := Host.Outcome.next.inj (hexec.symm.trans (hx.exec_finv hp hne d))
      exact absurd hfaulted (by simp [hfault])

/-- Settles O47: each power is that of O42 at the given exponent, and the run verifies what FINV wrote. -/
theorem exponentLaws : Obligations.ExponentLaws := by
  intro s a d x hb hfault h
  have hp := goodModulus_of_valid hb
  have hpow := h.exec_fpow hp d
  have hinv (hne : x ≠ 0) (hda : d ≠ a) := hfault ▸ h.execAll_finv_fmul_fisone hp hne hda
  refine ⟨fun he => ?_, ?_, fun he => ?_, hinv, ?_, ?_, fun hx hda => ?_⟩
  · rw [hpow, he, pow_zero, mont_mod, ← montOne_eq, montOne]
  · rintro rfl he
    rw [hpow, zero_pow he.ne', Nat.zero_mod, mont_zero]
  · rw [hpow, he, pow_one, mont_mod]
  · rintro rfl
    exact ⟨_, h.exec_finv_zero hp d, s.fail_fault _ _, by simp [hfault, FaultCode.byte]⟩
  · rintro rfl he
    have hsq : 7 ^ 2 = 49 := rfl
    rw [hpow, he, mont_mod, hsq]
  · obtain ⟨t, hrun, hpred, -⟩ := hinv (by omega) hda
    exact ⟨t, hrun, hpred⟩

end Sys2Proof.Proofs
end

/-! # Proofs: faults (60_exceptions.md)

How a command ends, by its source registers and its own value checks; what a host write does to the command in flight;
and what a command that ends with a fault leaves alone. -/

section
/-! ## How a command ends (R85, R130 to R135, R139) -/

namespace Sys2Proof.Machine

open Sys2Proof.Laws

/-- The code of a fault a command can raise once its sources are known to be valid (R131 to R135). -/
inductive ValueCheck : Instr → FaultCode → Prop where
  | noncanon (d : FReg) : ValueCheck (.fldb d) .noncanon
  | rawRange (d : FReg) : ValueCheck (.fldraw d) .rawRange
  | redcRange (d : FReg) : ValueCheck (.redc d) .redcRange
  | invZero (d a : FReg) : ValueCheck (.finv d a) .invZero
  | invCheck (d a : FReg) : ValueCheck (.finv d a) .invCheck

/-- How the command `i` ends in `t` when of its sources `rs` are still to be read: E_UNINIT exactly if one of them is
invalid, and else it completes or fails a value check (R139). -/
def EndsFrom (i : Instr) (s : State) (rs : List FReg) (t : State) : Prop :=
  ((∃ r ∈ rs, s.validBit r = false) ∧ t = s.fail i .uninit) ∨
    ((∀ r ∈ rs, s.validBit r = true) ∧ (Completed i s t ∨ ∃ c, ValueCheck i c ∧ t = s.fail i c))

variable {i : Instr} {s t : State} {rs : List FReg}

theorem EndsFrom.of_completed (h : Completed i s t) : EndsFrom i s [] t := .inr ⟨nofun, .inl h⟩

theorem EndsFrom.of_valueCheck {c : FaultCode} (h : ValueCheck i c) : EndsFrom i s [] (s.fail i c) :=
  .inr ⟨nofun, .inr ⟨c, h, rfl⟩⟩

/-- Reading one more source first: an invalid one ends the command, a valid one lets the rest decide. -/
theorem EndsFrom.useF {r : FReg} {k : Word → State} (h : ∀ x, EndsFrom i s rs (k x)) :
    EndsFrom i s (r :: rs) (s.useF i r k) := by
  rcases s.useF_cases i r k with ⟨x, hx, e⟩ | ⟨hx, e⟩ <;> rw [e]
  · have hvalid : s.validBit r = true := by simp [State.validBit, hx]
    rcases h x with ⟨⟨q, hq, hbad⟩, ht⟩ | ⟨hall, ht⟩
    · exact .inl ⟨⟨q, List.mem_cons_of_mem r hq, hbad⟩, ht⟩
    · exact .inr ⟨List.forall_mem_cons.mpr ⟨hvalid, hall⟩, ht⟩
  · exact .inl ⟨⟨r, List.mem_cons_self, by simp [State.validBit, hx]⟩, rfl⟩

/-- Every command reads its sources before anything else it checks (R85, R139). -/
theorem exec_endsFrom (i : Instr) (s : State) : ∃ t, exec i s = .next t ∧ EndsFrom i s (sourcesOf i) t := by
  cases i with
  | fldraw d | fldb d | redc d =>
    refine ⟨_, rfl, ?_⟩
    split
    · exact .of_completed ⟨_, rfl⟩
    · exact .of_valueCheck (by constructor)
  | finv d a =>
    refine ⟨_, rfl, .useF fun x => ?_⟩
    split
    · exact .of_valueCheck (.invZero d a)
    · split
      · exact .of_valueCheck (.invCheck d a)
      · exact .of_completed ⟨_, rfl⟩
  | fldl | fldu56 | fzero | fone => exact ⟨_, rfl, .of_completed ⟨_, rfl⟩⟩
  | fstraw | fstl | fstb | fstbits | fneg | fisz | fisone | fdbl | fsqr | fpow | fpowu =>
    exact ⟨_, rfl, .useF fun x => .of_completed ⟨_, rfl⟩⟩
  | feq | fadd | fsub | fmul => exact ⟨_, rfl, .useF fun x => .useF fun y => .of_completed ⟨_, rfl⟩⟩
  | wmul => exact ⟨_, rfl, .useF fun x => .useF fun y => .of_completed ⟨_, _, rfl⟩⟩

/-- A command with an invalid source ends with E_UNINIT, whatever else it would check (R130, R139). -/
theorem exec_of_invalid_source (h : ∃ r ∈ sourcesOf i, s.validBit r = false) :
    exec i s = .next (s.fail i .uninit) := by
  obtain ⟨t, hexec, ⟨-, rfl⟩ | ⟨hall, -⟩⟩ := exec_endsFrom i s
  · exact hexec
  · obtain ⟨r, hr, hbad⟩ := h
    simp [hall r hr] at hbad

/-- A command whose sources are valid completes or fails a value check of its own (R139). -/
theorem exec_of_valid_sources (h : ∀ r ∈ sourcesOf i, s.validBit r = true) (hexec : exec i s = .next t) :
    Completed i s t ∨ ∃ c, ValueCheck i c ∧ t = s.fail i c := by
  obtain ⟨u, hu, ⟨⟨r, hr, hbad⟩, -⟩ | ⟨-, hend⟩⟩ := exec_endsFrom i s
  · simp [h r hr] at hbad
  · obtain rfl := Host.Outcome.next.inj (hexec.symm.trans hu)
    exact hend

end Sys2Proof.Machine
end

section
/-! ## The value checks (R131 to R134) -/

namespace Sys2Proof.Machine

variable {s : State}

/-- The first fault of a command that writes a register is recorded, and nothing else changes (R126; log 6). -/
theorem State.fail_of_register {i : Instr} {d : FReg} (ho : outputOf i = .reg d) (hf : s.fault = false)
    (c : FaultCode) : s.fail i c = { s with
      fault := true, fcode := c.byte, finfo := (encode i).setWidth 64, inFlight := none } := by
  simp [State.fail, State.spoil, ho, State.raise, hf, commandInfo]

/-- FLDB refuses an input that is not canonical (R131). -/
theorem exec_fldb_noncanon (h : s.build.pMod ≤ s.inY) (d : FReg) :
    exec (.fldb d) s = .next (s.fail (.fldb d) .noncanon) :=
  congrArg Host.Outcome.next (if_neg h.not_gt)

/-- FLDRAW refuses an input that is no image (R132). -/
theorem exec_fldraw_rawRange (h : s.build.pMod ≤ s.inL) (d : FReg) :
    exec (.fldraw d) s = .next (s.fail (.fldraw d) .rawRange) :=
  congrArg Host.Outcome.next (if_neg h.not_gt)

/-- REDC refuses a high half that is not below the modulus (R133). -/
theorem exec_redc_range (h : s.build.pMod ≤ s.inH) (d : FReg) :
    exec (.redc d) s = .next (s.fail (.redc d) .redcRange) :=
  congrArg Host.Outcome.next (if_neg h.not_gt)

end Sys2Proof.Machine
end

section
/-! ## Host writes while a command runs (R127, R136) -/

namespace Sys2Proof.Machine

open Sys2Proof.Laws

/-- The registers a write to which aborts the command in flight: CMD and the input buffers (R136). -/
def WinReg.abortsRunning : WinReg → Bool
  | .cmd | .limbIn _ | .hiIn _ | .bytesIn _ => true
  | .id | .ctrl | .status | .finfo | .limbOut _ | .hiOut _ | .bytesOut _ => false

variable {s : State}

/-- A write to CMD or an input buffer while a command runs is an abort, and is itself discarded (R46, R136). -/
theorem State.writeReg_of_abortsRunning {run : Word64} {r : WinReg} (hf : s.fault = false) (hrun : s.inFlight = some run)
    (hr : r.abortsRunning = true) (v : Word64) : s.writeReg r v = s.abort run (winOffset r) := by
  cases r with
  | cmd => exact State.writeReg_cmd_of_running hf hrun v
  | limbIn | hiIn | bytesIn => simp [State.writeReg, State.writeInput, hrun]
  | _ => cases hr

/-- What is recorded of an abort, and what becomes of the write that raised it (R126, R136). -/
theorem State.abort_record {run : Word64} {t : State} (hf : s.fault = false) (r : WinReg)
    (ht : SameBlock (s.abort run (winOffset r)) t) :
    t.fault = true ∧ t.fcode = 0x08 ∧ t.inFlight = none ∧
      t.finfo.toNat = (run.setWidth 32).toNat + winOffset r * 2 ^ 32 ∧
      t.limbIn = s.limbIn ∧ t.hiIn = s.hiIn ∧ t.bytesIn = s.bytesIn := by
  have hinfo : (s.abort run (winOffset r)).finfo = busyInfo (run.setWidth 32) (winOffset r) := by simp [hf]
  rw [ht]
  exact ⟨by simp, by simp [hf, FaultCode.byte], by simp, hinfo ▸ busyInfo_toNat _ (winOffset_lt r), by simp, by simp,
    by simp⟩

/-- An abort leaves alone what a fault of the aborted command does (R127, R136). -/
theorem State.abort_keepsAllBut {o : Output} (h : s.runningOutput = some o) (v : Word64) (off : Nat) :
    KeepsAllBut o s (s.abort v off) := by
  have hspoil : s.abort v off = (s.raise .busy (busyInfo (v.setWidth 32) off)).spoil o := by simp [State.abort, h]
  exact hspoil ▸ keepsAllBut_spoil s _ _ o

theorem KeepsAllBut.of_sameBlock {o : Output} {t u : State} (h : KeepsAllBut o s t) (htu : SameBlock t u) :
    KeepsAllBut o s u := by
  rw [htu]
  exact h

theorem AtReset.fault {b : Build} {t : State} (h : AtReset b t) : t.fault = false := by
  rw [h]; rfl

/-- The output of a command in flight is that of the command (R76). -/
theorem State.runningOutput_of_command {i : Instr} (h : s.inFlight = some (cmdValue (encode i))) :
    s.runningOutput = some (outputOf i) := by
  simp [State.runningOutput, h, decode_encode]

/-- A host access that faults a running command has aborted it, and leaves alone what that fault does (R127, R136). -/
theorem State.access_keepsAllBut {o : Output} (ho : s.runningOutput = some o) (hf : s.fault = false) {a : Access}
    (ht : (s.access a).fault = true) : KeepsAllBut o s (s.access a) := by
  rcases s.access_block_cases a with h | h | ⟨run, off, h⟩ | ⟨hidle, -⟩
  · rw [h] at ht
    simp [hf] at ht
  · simp [h.fault] at ht
  · exact (State.abort_keepsAllBut ho run off).of_sameBlock h
  · simp [State.runningOutput_of_idle hidle] at ho

end Sys2Proof.Machine
end

section
/-! ## The obligations -/

namespace Sys2Proof.Proofs

open Sys2Proof.Machine Sys2Proof.Laws

/-- Settles O9, by the register written; a read leaves the block as it was. -/
theorem busyWriteAborts : Obligations.BusyWriteAborts := by
  intro s run v r hr hf hrun
  have habort (h : r.abortsRunning = true) := State.abort_record hf r
    (sameBlock_hostWrite_of_eq (State.writeReg_of_abortsRunning hf hrun h v))
  refine ⟨⟨_, hostDoes_write hr r v, ?_⟩, _, hostDoes_read hr r, sameBlock_answer s _⟩
  cases r with
  | id | status | finfo | limbOut | hiOut | bytesOut => exact sameBlock_hostWrite_of_eq rfl
  | ctrl =>
    cases hv : v.getLsbD 0 with
    | true => simpa [hv] using sameBlock_initial_softReset hr hv
    | false => simpa [hv] using sameBlock_hostWrite_of_eq (s.writeReg_ctrl_ignored hv)
  | cmd | limbIn | hiIn | bytesIn => exact habort rfl

/-- Settles O21: the sources are read first, and the fault is recorded with the command's word. -/
theorem invalidSourceFaults : Obligations.InvalidSourceFaults := by
  intro i s h
  obtain ⟨hkeep, hrecord⟩ := fail_frame s i .uninit
  exact ⟨_, exec_of_invalid_source h, hrecord, hkeep⟩

/-- Settles O23: the decoder comes before the sources, and these before the value checks. -/
theorem faultPriority : Obligations.FaultPriority := by
  intro s t v hf hv ht
  have hexec (i : Instr) (hi : v = cmdValue (encode i)) : exec i s = .next t :=
    (coreDoes_eq (hi ▸ hv) (decode_encode i)).symm.trans ht
  refine ⟨fun hlegal => ?_, fun i hi hsrc => ?_, fun i hi hsrc => ?_⟩
  · obtain ⟨hl, -⟩ | ⟨-, hillegal⟩ := commandRunsOrIsIllegal s v hv hf
    · simp [hlegal] at hl
    · obtain rfl := Host.Outcome.next.inj (ht.symm.trans hillegal)
      rfl
  · obtain rfl := Host.Outcome.next.inj ((hexec i hi).symm.trans (exec_of_invalid_source hsrc))
    simp [hf, FaultCode.byte]
  · rcases exec_of_valid_sources hsrc (hexec i hi) with hc | ⟨c, hcheck, rfl⟩
    · obtain ⟨-, -, -, -, -, -, -, -, hfault, -⟩ := hc.frame
      exact .inl (hfault.trans hf)
    · have hcode : (s.fail i c).fcode = c.byte := by simp [hf]
      refine .inr ?_
      cases hcheck with
      | noncanon d => exact .inl ⟨d, rfl, hcode⟩
      | rawRange d => exact .inr (.inl ⟨d, rfl, hcode⟩)
      | redcRange d => exact .inr (.inr (.inl ⟨d, rfl, hcode⟩))
      | invZero d a => exact .inr (.inr (.inr ⟨d, a, rfl, .inl hcode⟩))
      | invCheck d a => exact .inr (.inr (.inr ⟨d, a, rfl, .inr hcode⟩))

/-- Settles O25: a fault of the command's own spoils its output only, and so does an abort. -/
theorem faultingCommandLeavesTheRest : Obligations.FaultingCommandLeavesTheRest := by
  refine ⟨fun i s t hf h ht => ?_, fun i s t r v _ hf hrun h ht => ?_⟩
  · rcases exec_inv h with hc | ⟨c, -, rfl⟩
    · obtain ⟨-, -, -, -, -, -, -, -, hfault, -⟩ := hc.frame
      simp [hfault, hf] at ht
    · exact (fail_frame s i c).1
  · obtain rfl := eq_access_of_hostDoes h
    exact State.access_keepsAllBut (State.runningOutput_of_command hrun) hf ht

/-- Settles O22: each check fails, and the destination of each of these commands is a register, which a fault keeps. -/
theorem valueChecksFault : Obligations.ValueChecksFault := by
  intro s d a hf
  have hfail {i : Instr} (ho : outputOf i = .reg d) (c : FaultCode) :=
    congrArg (Host.Outcome.next (φ := Fault) (ρ := Refusal)) (State.fail_of_register ho hf c)
  exact ⟨fun h => (exec_fldb_noncanon h d).trans (hfail rfl .noncanon),
    fun h => (exec_fldraw_rawRange h d).trans (hfail rfl .rawRange),
    fun h => (exec_redc_range h d).trans (hfail rfl .redcRange),
    fun h => (exec_finv_zero h BitVec.toNat_zero d).trans (hfail rfl .invZero)⟩

end Sys2Proof.Proofs
end

/-! # Proofs: reset and hazards (70_reset_and_hazards.md)

The hard reset, and that what the host reads while a command runs has no bearing on the command's result. -/

section
/-! ## The block held in reset (R150, U13) -/

namespace Sys2Proof.Machine

open Sys2Proof.Laws

/-- A held block answers no access to its window: the machine stops. -/
theorem hostDoes_of_held {s : State} (hr : s.resetIn = true) {off : Nat} (hoff : off < windowSize) {a : Access}
    (ha : a.addr = s.build.windowBase + off) : hostDoes a s = .fault .heldInReset := by
  change hostAccess s a = _
  simp [hostAccess, hr, ha, windowOffset_base_add s.build off hoff]

end Sys2Proof.Machine
end

section
/-! ## The answers given so far have no bearing on the core's turn (R157, R160) -/

namespace Sys2Proof.Machine

open Sys2Proof.Laws

theorem State.spoil_answers_comm (s : State) (o : Output) (answers : List Answer) :
    { s with answers }.spoil o = { s.spoil o with answers } := by
  cases o <;> rfl

theorem State.fail_answers_comm (s : State) (i : Instr) (c : FaultCode) (answers : List Answer) :
    { s with answers }.fail i c = { s.fail i c with answers } :=
  (s.raise c (commandInfo (encode i))).spoil_answers_comm (outputOf i) answers

theorem State.useF_answers_comm {s : State} {i : Instr} {r : FReg} {k k' : Word → State} {answers : List Answer}
    (h : ∀ x, k' x = { k x with answers }) :
    { s with answers }.useF i r k' = { s.useF i r k with answers } := by
  unfold State.useF
  cases s.f[r.val] with
  | none => exact s.fail_answers_comm i .uninit answers
  | some x => exact h x

theorem ite_answers_comm {c : Prop} [Decidable c] {x x' y y' : State} {answers : List Answer}
    (hx : x' = { x with answers }) (hy : y' = { y with answers }) :
    (if c then x' else y') = { if c then x else y with answers } := by
  split
  · exact hx
  · exact hy

/-- A command ends in the same state whatever answers the host has been given, but for these. -/
theorem exec_answers_comm {i : Instr} {s t : State} (h : exec i s = .next t) (answers : List Answer) :
    exec i { s with answers } = .next { t with answers } := by
  cases i <;> obtain rfl := Host.Outcome.next.inj h <;> refine congrArg Host.Outcome.next ?_
  case fldl | fldu56 | fzero | fone => rfl
  case fstraw | fstl | fstb | fstbits | fneg | fisz | fisone | fdbl | fsqr | fpow | fpowu =>
    exact State.useF_answers_comm fun x => rfl
  case fldraw | fldb | redc => exact ite_answers_comm rfl rfl
  case feq | fadd | fsub | wmul | fmul =>
    exact State.useF_answers_comm fun x => State.useF_answers_comm fun y => rfl
  case finv => exact State.useF_answers_comm fun x => ite_answers_comm rfl (ite_answers_comm rfl rfl)

theorem runCore_answers_comm {s t : State} (h : runCore s = .next t) (answers : List Answer) :
    runCore { s with answers } = .next { t with answers } := by
  rcases runCore_cases h with ⟨hi, rfl⟩ | ⟨v, i, hv, hd, he⟩ | ⟨v, e, hv, hd, rfl⟩
  · simp [runCore, hi]
  · exact (runCore_eq_exec (s := { s with answers }) hv hd).trans (exec_answers_comm he answers)
  · simp [runCore, hv, hd, State.raise]

/-- A run of the block goes on from the state its first step gives. -/
theorem coreRun_succ {s t : State} (h : step s = .next t) (k : Nat) :
    Host.Core.run Sys2Proof.core (k + 1) s = Host.Core.run Sys2Proof.core k t :=
  run_succ (M := Sys2Proof.core) h k

/-- A run through host reads gives the host its answers and changes nothing else (R60, R157). -/
theorem run_hostReads (polls : List Event) (hpolls : ∀ e ∈ polls, isHostRead e = true) (rest : List Event) (k : Nat) :
    ∀ s : State, s.resetIn = false → ∃ answers,
      Host.Core.run Sys2Proof.core (polls.length + k) { s with script := polls ++ rest } =
        Host.Core.run Sys2Proof.core k { s with script := rest, answers } := by
  induction polls with
  | nil =>
    intro s _
    exact ⟨s.answers, by rw [List.length_nil, Nat.zero_add, List.nil_append]⟩
  | cons e polls ih =>
    obtain ⟨he, hrest⟩ := List.forall_mem_cons.mp hpolls
    intro s hr
    obtain ⟨given, hstep⟩ := step_hostRead (s := { s with script := e :: (polls ++ rest) }) hr he rfl
    obtain ⟨answers, hrun⟩ := ih hrest { s with answers := given } hr
    refine ⟨answers, ?_⟩
    rw [List.length_cons, Nat.succ_add]
    exact (coreRun_succ hstep _).trans hrun

end Sys2Proof.Machine
end

section
/-! ## The obligations -/

namespace Sys2Proof.Proofs

open Sys2Proof.Machine Sys2Proof.Laws

/-- Settles O59: the reads change the answers alone, and the core's turn does not look at these. -/
theorem latencyDoesNotChangeResult : Obligations.LatencyDoesNotChangeResult := by
  intro s v polls rest hr _ hpolls
  obtain ⟨t, ht, -⟩ := runCore_completes { s with script := rest }
  obtain ⟨answers, hreads⟩ := run_hostReads polls hpolls (.core :: rest) 1 s hr
  have hatOnce : step { s with script := .core :: rest } = .next t := ht
  have hlater : step { s with script := .core :: rest, answers } = .next { t with answers } :=
    runCore_answers_comm ht answers
  exact ⟨t, { t with answers }, coreRun_succ hatOnce 0, hreads.trans (coreRun_succ hlater 0), rfl⟩

/-- Settles O20: both events clear the block; held, it answers nothing, and released, it is idle and without a fault. -/
theorem hardReset : Obligations.HardReset := by
  intro s rest
  refine ⟨⟨_, rfl, State.setResetIn_atReset _ true, rfl, fun off width v hoff => ⟨?_, ?_⟩⟩,
    ⟨_, rfl, State.setResetIn_atReset _ false, rfl, fun v => ⟨_, hostDoes_write rfl .cmd v, ?_⟩⟩⟩
  · exact hostDoes_of_held rfl hoff rfl
  · exact hostDoes_of_held rfl hoff rfl
  · rw [sameBlock_hostWrite_of_eq (State.writeReg_cmd_of_idle rfl rfl v)]

end Sys2Proof.Proofs
end
